-- ==== Sys2Proof/Word.lean ====
section
/-! DEFINITION. The word types of the VMU CORE (spec/00_scope.md R7): bytes and the address widths. -/

namespace Sys2Proof

/-- An unsigned 8-bit value; all arithmetic on it wraps at 256 (R7). -/
abbrev Byte := BitVec 8

/-- A data-space (and work-RAM) address, 0x000 to 0x1FF (R7, R70). -/
abbrev DAddr := BitVec 9

/-- A program-space address and the width of the program counter (R7, R21). -/
abbrev PAddr := BitVec 16

/-- A flash address: bit 16 is the flash bank (R70, R104). -/
abbrev FAddr := BitVec 17

/-- The number of a pointer register inside its bank, the `j` of `@Rj` (R16, R133). -/
abbrev PtrNum := BitVec 2

/-- A bit index, the `b3` of the bit instructions (R16, R138). -/
abbrev BitNum := BitVec 3

/-- The 16-bit value `hi:lo` (R11). -/
abbrev word16 (hi lo : Byte) : BitVec 16 := hi ++ lo

end Sys2Proof
end

