-- ==== Sys2Proof/Config.lean ====
section
/-! DEFINITION. What the spec leaves to an implementation or a collaborator and gives no value for: opaque
constants, so that no proof can see a value. The parameters that DO have a value in the spec (00_scope.md R9)
stand in Machine/Params.lean. -/

namespace Sys2Proof

/-- DESIGN CHOICE (log entry 2), unsafe: what a byte of RAM, XRAM, work RAM, ROM or flash reads as when nothing
has written it. The spec leaves these contents OPEN (10_state.md R42). -/
abbrev Config.unlistedByte : Byte := 0

/-- The live counter byte the timer collaborator supplies for a timer counter register, at the n-th draw
(20_memory.md R82). A free value. -/
opaque Config.timerCounter : DAddr → Nat → Byte

/-- The externally driven pin byte OR'd into a read of a port-status register, at the n-th draw
(20_memory.md R82). A free value. -/
opaque Config.pins : DAddr → Nat → Byte

/-- The OPEN predicate `displayBlanked` over the SFR state, given as the SFR array (20_memory.md R93,
92_eei_decisions.md D33). -/
opaque Config.displayBlanked : List (Nat × Byte) → Bool

/-- The draw `OOR_VALUE`: the byte an out-of-range read returns (60_exceptions.md R401). A free value. -/
opaque Config.outOfRangeByte : Nat → Byte

/-- The pc recorded in the error log when the interrupt entry of an IDLE step overflows the stack: no
instruction raised the error, and the spec states no address (60_exceptions.md R400). A free value. -/
opaque Config.idleErrorPc : Nat → PAddr

/-- The cycle cost of a step whose fetch failed, so that there is no opcode row to give it
(60_exceptions.md R401, R441). A free value. -/
opaque Config.failedFetchCycles : Nat → Nat

end Sys2Proof
end

