-- ==== Sys2Proof/Machine/Flags.lean ====
section
/-! DEFINITION. Every flag computation of the spec, on bytes: parity (10_state.md R24), the adder and the subtracter
(40_arith.md R200, R201), the compare carry (44_branch.md R290), the overflow of MUL and DIV (40_arith.md R218, R219),
and the PSW layout (10_state.md R22). -/

namespace Sys2Proof.Machine

/-- The number of 1 bits of a byte (00_scope.md R11). -/
def popcount (v : Byte) : Nat := (List.range 8).countP fun k => v.getLsbD k

/-- The parity flag of an accumulator value: 1 for an odd number of 1 bits (10_state.md R24). -/
def parity (v : Byte) : Bool := popcount v % 2 == 1

/-- The byte with bit `pos` equal to `x` and no other bit set: `x << pos` (00_scope.md R12). -/
def bitAt (pos : Nat) (x : Bool) : Byte := if x then 1#8 <<< pos else 0

/-! The PSW layout (10_state.md R22). -/

def cyPos : Nat := 7
def acPos : Nat := 6
def ovPos : Nat := 2
def ramBankPos : Nat := 1

/-- IRBK = PSW[4:3] (10_state.md R22). -/
def irbkOf (psw : Byte) : BitVec 2 := psw.extractLsb' 3 2

/-- The PSW byte a read returns: the stored byte with bit 0 the parity of ACC (10_state.md R24, 20_memory.md R80). -/
def pswByte (stored acc : Byte) : Byte := (stored &&& 0xFE) ||| bitAt 0 (parity acc)

/-- What the adder and the subtracter give: `(r, CY, AC, OV)`. -/
structure AluResult where
  value : Byte
  cy : Bool
  ac : Bool
  ov : Bool
deriving DecidableEq, Repr

/-- `AddALU(a, b, cin)` (40_arith.md R200). -/
def addAlu (a b : Byte) (cin : Bool) : AluResult :=
  let t := a.toNat + b.toNat + cin.toNat
  let r := BitVec.ofNat 8 t
  let s := BitVec.ofNat 8 (b.toNat + cin.toNat)
  { value := r
    cy := decide (t > 255)
    ac := decide (a.toNat % 16 + b.toNat % 16 + cin.toNat > 15)
    ov := (~~~(a ^^^ s) &&& (a ^^^ r)).getLsbD 7 }

/-- `SubALU(a, b, cin)` (40_arith.md R201). -/
def subAlu (a b : Byte) (cin : Bool) : AluResult :=
  let r := BitVec.ofInt 8 ((a.toNat : Int) - b.toNat - cin.toNat)
  let s := BitVec.ofNat 8 (b.toNat + cin.toNat)
  { value := r
    cy := decide (a.toNat < b.toNat + cin.toNat)
    ac := decide (a.toNat % 16 < b.toNat % 16 + cin.toNat)
    ov := ((a ^^^ s) &&& (a ^^^ r)).getLsbD 7 }

/-- The compare carry of BE and BNE: unsigned less-than (44_branch.md R290). -/
def compareCarry (lhs rhs : Byte) : Bool := decide (lhs.toNat < rhs.toNat)

/-- The product `x * B` of `MUL`, 24 bits (40_arith.md R218). -/
def mulProduct (acc c b : Byte) : Nat := (word16 acc c).toNat * b.toNat

/-- The OV flag of `MUL` (40_arith.md R218). -/
def mulOverflow (p : Nat) : Bool := decide (p > 0xFFFF)

/-- Quotient and remainder of `DIV`, division by zero included (40_arith.md R219). -/
def divResult (acc c b : Byte) : Nat × Nat :=
  if b = 0 then (0xFF00 ||| c.toNat, 0)
  else ((word16 acc c).toNat / b.toNat, (word16 acc c).toNat % b.toNat)

/-- The OV flag of `DIV`: set exactly when the remainder is zero (40_arith.md R219). -/
def divOverflow (rem : Nat) : Bool := decide (rem = 0)

/-- The byte k of a number, byte 0 the least significant (00_scope.md R11). -/
def numByte (n k : Nat) : Byte := BitVec.ofNat 8 (n / 256 ^ k)

/-- Rotate left; `cin` enters bit 0 (41_logic.md R240, R241). -/
def rotateLeft (a : Byte) (cin : Bool) : Byte := a <<< 1 ||| bitAt 0 cin

/-- Rotate right; `cin` enters bit 7 (41_logic.md R242, R243). -/
def rotateRight (a : Byte) (cin : Bool) : Byte := a >>> 1 ||| bitAt 7 cin

end Sys2Proof.Machine
end

