-- ==== Sys2Proof/Machine/State.lean ====
section
/-! DEFINITION. The state of the VMU CORE as plain data (spec/10_state.md R50, field by field), the reasons a step could
stop, and the machine right after power-on reset (spec/70_reset_and_hazards.md R500, R501). -/

namespace Sys2Proof.Machine

/-- A byte array held sparsely: (index, byte) pairs. Its canonical form is `Memory.wf`; what an index that is not
listed reads as is `Config.unlistedByte` (Machine/Memory.lean). -/
abbrev Memory := List Host.Cell

/-- The interrupt sources, in the order of `IRQ_TABLE` (60_exceptions.md R420). -/
inductive IrqSource where
  | int0
  | int1
  /-- INT2, or Timer0 low overflow -/
  | int2T0l
  /-- INT3, or base timer -/
  | int3Bt
  | t0h
  | t1
  | sio0
  | sio1
  | rfb
  | p3
deriving DecidableEq, Repr

/-- The priority levels, LOW < HIGH < HIGHEST (60_exceptions.md R422). -/
inductive Level where
  | low
  | high
  | highest
deriving DecidableEq, Repr

/-- For each level, no source or one source: the slots and the round-robin memory (10_state.md R45). -/
structure PerLevel where
  low : Option IrqSource
  high : Option IrqSource
  highest : Option IrqSource
deriving DecidableEq, Repr

/-- The source of program space (10_state.md R43). -/
inductive ProgSrc where
  | rom
  | flash
deriving DecidableEq, Repr

/-- The flash-programming state: locked, part-way through the handshake, programming (10_state.md R46). -/
inductive FlashState where
  | s0
  | s1
  | s2
  | prog
deriving DecidableEq, Repr

/-- The error codes of 60_exceptions.md R400, in the order of their numbers 1 to 7. They are recorded; none stops
the machine (R401). -/
inductive ErrorCode where
  | outOfRange
  | invalidOpcode
  | stackOverflow
  | stackUnderflow
  | flashProgramSequenceError
  | invalidBankSelect
  | undefinedProgramSourceSwitch
deriving DecidableEq, Repr

/-- One entry `(code, addr, value, pc)` of the error log (60_exceptions.md R400). -/
structure ErrorEntry where
  code : ErrorCode
  addr : Nat
  value : Byte
  pc : PAddr
deriving DecidableEq, Repr

/-- One entry of the event log (10_state.md R48, 20_memory.md R88, R94, 60_exceptions.md R459). -/
inductive Event where
  | displayDirty (addr : DAddr) (value : Byte)
  | redraw
  | sinkWrite (addr : DAddr) (value : Byte)
  | memoryChanged (addr : DAddr) (value : Byte)
  | pcChanged (old new : PAddr)
deriving DecidableEq, Repr

/-- The whole state (10_state.md R50) and, at the end, the model's own four fields. -/
structure State where
  /-- program counter (R21) -/
  pc : PAddr
  /-- `ram[b][i]` at index 256 b + i (R42) -/
  ram : Memory
  /-- `sfr[i]`, the byte of data address 0x100 + i (R42) -/
  sfr : Memory
  /-- `xram[b][i]` at index 128 b + i (R42) -/
  xram : Memory
  /-- `wram[i]` (R42) -/
  wram : Memory
  /-- `rom[i]` (R42) -/
  rom : Memory
  /-- `flash[b][i]` at index 65536 b + i (R42) -/
  flash : Memory
  /-- the XRAM bank mapped at 0x180 to 0x1FF (R43) -/
  xramBank : Fin 3
  /-- the program-space source (R43) -/
  progSrc : ProgSrc
  /-- the pending bitmap: bit k is the source of table index k (R45) -/
  pending : BitVec 10
  /-- the source that occupies each level's slot (R45) -/
  slot : PerLevel
  /-- the previously serviced priority (R45) -/
  prevLevel : Level
  /-- the one-shot suppression flag (R45) -/
  suppress : Bool
  /-- the last source dispatched at each level (R45) -/
  rrLast : PerLevel
  /-- the flash-programming state (R46) -/
  fstate : FlashState
  /-- the flash byte counter (R46) -/
  fcount : Nat
  /-- the cycle cost of the last step (R49) -/
  lastCycles : Nat
  /-- the error log, oldest first (R47) -/
  errorLog : List ErrorEntry
  /-- the event log, oldest first (R48) -/
  eventLog : List Event
  /-- MODEL's own (log entry 9): the address of the instruction being executed, `ipc` of 60_exceptions.md R441 -/
  ipc : PAddr
  /-- MODEL's own (log entry 6): how many free values have been drawn -/
  draws : Nat
  /-- MODEL's own (log entry 8): the requests collaborators raise during each coming step, the next step's first -/
  arrivals : List (List IrqSource)
  /-- MODEL's own (log entry 10): the fault code the step reports to its caller (60_exceptions.md R401) -/
  faultReport : Option ErrorCode
deriving DecidableEq, Repr

/-- No fault stops this machine: "No error stops the block" (60_exceptions.md R401), every error of R400 is
recorded in `errorLog` and the step goes on. So this type has NO constructor; nothing raises it. -/
inductive Fault
deriving DecidableEq, Repr

/-- Why a step has no meaning. -/
inductive Refusal where
  /-- Raised only by an arm of `exec` for an instruction that has no meaning yet; safe. Every instruction of this
  model has its meaning, so nothing raises it. -/
  | notModelled (mnemonic : String)
deriving DecidableEq, Repr

/-- No source at any level. -/
def PerLevel.empty : PerLevel := ⟨none, none, none⟩

/-- The machine right after power-on (R500, R501): every array lists nothing (log entries 1 to 3), the hidden
state is as R500 sets it, both logs are empty (log entry 14), the model's own fields are zero, empty or none. -/
def State.reset : State where
  pc := 0
  ram := []
  sfr := []
  xram := []
  wram := []
  rom := []
  flash := []
  xramBank := 0
  progSrc := .rom
  pending := 0
  slot := PerLevel.empty
  prevLevel := .low
  suppress := false
  rrLast := PerLevel.empty
  fstate := .s0
  fcount := 0
  lastCycles := 0
  errorLog := []
  eventLog := []
  ipc := 0
  draws := 0
  arrivals := []
  faultReport := none

end Sys2Proof.Machine
end

