-- ==== Sys2Proof/Machine/Params.lean ====
section
/-! DEFINITION. The parameters of spec/00_scope.md R9 at the values the spec uses when a model does not override them
(log entries 4 and 5): SFR addresses and classes, interrupt table, stack bounds, unlock pairs and the rest. -/

namespace Sys2Proof.Machine

/-- The named SFRs (10_state.md R30). -/
inductive Sfr where
  | acc
  | psw
  | b
  | c
  | trl
  | trh
  | sp
  | pcon
  | ie
  | ip
  | ext
  | ocr
  | t0con
  | t0prr
  | t0l
  | t0lr
  | t0h
  | t0hr
  | t1cnt
  | t1lc
  /-- T1L when read, T1LR when written -/
  | t1l
  | t1hc
  /-- T1H when read, T1HR when written -/
  | t1h
  | mcr
  | xbnk
  | vccr
  | p1
  | p1ddr
  | p1fcr
  | p3
  | p3ddr
  | p3int
  | fpr
  | p7
  | vsel
  | vrmad1
  | vrmad2
  | vtrbf
  | btcr
deriving DecidableEq, Repr

/-- `SFR_ADDR` (10_state.md R30). -/
def Sfr.addr : Sfr → DAddr
  | .acc => 0x100
  | .psw => 0x101
  | .b => 0x102
  | .c => 0x103
  | .trl => 0x104
  | .trh => 0x105
  | .sp => 0x106
  | .pcon => 0x107
  | .ie => 0x108
  | .ip => 0x109
  | .ext => 0x10D
  | .ocr => 0x10E
  | .t0con => 0x110
  | .t0prr => 0x111
  | .t0l => 0x112
  | .t0lr => 0x113
  | .t0h => 0x114
  | .t0hr => 0x115
  | .t1cnt => 0x118
  | .t1lc => 0x11A
  | .t1l => 0x11B
  | .t1hc => 0x11C
  | .t1h => 0x11D
  | .mcr => 0x120
  | .xbnk => 0x125
  | .vccr => 0x127
  | .p1 => 0x144
  | .p1ddr => 0x145
  | .p1fcr => 0x146
  | .p3 => 0x14C
  | .p3ddr => 0x14D
  | .p3int => 0x14E
  | .fpr => 0x154
  | .p7 => 0x15C
  | .vsel => 0x163
  | .vrmad1 => 0x164
  | .vrmad2 => 0x165
  | .vtrbf => 0x166
  | .btcr => 0x17F

/-- The index of a register's byte in the array `sfr`: `sfr[addr & 0x7F]` (10_state.md R42). -/
def Sfr.idx (r : Sfr) : Nat := r.addr.toNat % 128

/-- `WO_SET`: the write-only registers (10_state.md R30). -/
def writeOnlySet : List Sfr := [.mcr, .vccr, .p1ddr, .p1fcr, .p3ddr]

/-- `WO_READ_VALUE`: what a write-only register reads as (20_memory.md R80). -/
def writeOnlyReadValue : Byte := 0xFF

/-- The timer counter registers of `LIVE_SET` (20_memory.md R82). -/
def liveCounterSet : List Sfr := [.t0l, .t0h, .t1l, .t1h]

/-- The port-status registers of `LIVE_SET`, read as the stored byte OR'd with the pins (20_memory.md R82). -/
def livePortSet : List Sfr := [.p3]

/-- `LATCH_SET`: the registers whose latch read is the stored byte (20_memory.md R86). -/
def latchSet : List Sfr := [.t1l, .t1h, .p1, .p3, .p7]

/-- Membership of a data address in a set of registers. -/
def inSet (set : List Sfr) (a : DAddr) : Bool := set.any fun r => r.addr == a

/-- `ROM_SIZE` (92_eei_decisions.md D43). -/
def romSize : Nat := 65536

/-- `REL16_BIAS` (30_encoding.md R136; log entry 5). -/
def rel16Bias : BitVec 16 := 0

/-- `STACK_LO` (20_memory.md R108). -/
def stackLo : Byte := 0x80

/-- `STACK_HI` (20_memory.md R108). -/
def stackHi : Byte := 0xFF

/-- `EXT_FLASH_VALUE`, as the value of EXT bit 0 that selects flash (10_state.md R34). -/
def extFlashValue : Bool := true

/-- `IDLE_CYCLES` (60_exceptions.md R440). -/
def idleCycles : Nat := 1

/-- `FLASH_UNLOCK_SEQ`: the pair (TRH:TRL, ACC) each state of the handshake expects; none while programming
(46_system.md R345). -/
def flashUnlockPair : FlashState → Option (BitVec 16 × Byte)
  | .s0 => some (0x5555, 0xAA)
  | .s1 => some (0x2AAA, 0x55)
  | .s2 => some (0x5555, 0xA0)
  | .prog => none

/-- The state that follows a matching pair (46_system.md R345). -/
def flashNextState : FlashState → FlashState
  | .s0 => .s1
  | .s1 => .s2
  | .s2 => .prog
  | .prog => .prog

/-- The bytes one unlock cycle may program (46_system.md R345). -/
def flashBudget : Nat := 128

/-- `IRQ_TABLE` order (60_exceptions.md R420). -/
def irqTable : List IrqSource :=
  [.int0, .int1, .int2T0l, .int3Bt, .t0h, .t1, .sio0, .sio1, .rfb, .p3]

/-- The table index of a source (60_exceptions.md R420). -/
def IrqSource.index : IrqSource → Nat
  | .int0 => 0
  | .int1 => 1
  | .int2T0l => 2
  | .int3Bt => 3
  | .t0h => 4
  | .t1 => 5
  | .sio0 => 6
  | .sio1 => 7
  | .rfb => 8
  | .p3 => 9

/-- The handler's first address (60_exceptions.md R420). -/
def IrqSource.vector : IrqSource → PAddr
  | .int0 => 0x0003
  | .int1 => 0x000B
  | .int2T0l => 0x0013
  | .int3Bt => 0x001B
  | .t0h => 0x0023
  | .t1 => 0x002B
  | .sio0 => 0x0033
  | .sio1 => 0x003B
  | .rfb => 0x0043
  | .p3 => 0x004B

/-- The source's bit of IP; none for the hardware pair INT0, INT1 (60_exceptions.md R420). -/
def IrqSource.ipBit : IrqSource → Option Nat
  | .int0 => none
  | .int1 => none
  | .int2T0l => some 0
  | .int3Bt => some 1
  | .t0h => some 2
  | .t1 => some 3
  | .sio0 => some 4
  | .sio1 => some 5
  | .rfb => some 6
  | .p3 => some 7

/-- Which error codes are of the fault class; the others are warnings (60_exceptions.md R400). -/
def ErrorCode.isFault : ErrorCode → Bool
  | .outOfRange => true
  | .invalidOpcode => true
  | .stackOverflow => false
  | .stackUnderflow => false
  | .flashProgramSequenceError => false
  | .invalidBankSelect => true
  | .undefinedProgramSourceSwitch => true

end Sys2Proof.Machine
end

