-- ==== Sys2Proof/Machine/Ops.lean ====
section
/-! DEFINITION. The named operations of the machine (spec/20_memory.md, spec/60_exceptions.md): the error and event logs,
the data-space read, latch read and write with their side effects, program space and flash, the stack, and the
interrupt dispatch with the return from it. -/

namespace Sys2Proof.Machine

/-! ### Logs -/

/-- Record an error: append its entry, and report it to the step's caller when it is of the fault class
(60_exceptions.md R400, R401). -/
def State.raise (s : State) (code : ErrorCode) (addr : Nat) (value : Byte) : State :=
  { s with
    errorLog := s.errorLog ++ [⟨code, addr, value, s.ipc⟩]
    faultReport := if code.isFault then some code else s.faultReport }

/-- Append an event (10_state.md R48). -/
def State.emit (s : State) (e : Event) : State := { s with eventLog := s.eventLog ++ [e] }

/-! ### Registers -/

/-- The stored byte of a register (20_memory.md R81). -/
def State.reg (s : State) (r : Sfr) : Byte := s.sfr.read r.idx

/-- Store a register's byte directly: no side effect, no event. -/
def State.setReg (s : State) (r : Sfr) (v : Byte) : State := { s with sfr := s.sfr.write r.idx v }

def State.acc (s : State) : Byte := s.reg .acc
def State.sp (s : State) : Byte := s.reg .sp

/-- PSW as a read returns it, with P derived (10_state.md R24). -/
def State.psw (s : State) : Byte := pswByte (s.reg .psw) s.acc

/-! PSW bits 7 to 1 are those of the stored byte (20_memory.md R80), so its fields are read from there. -/

def State.cy (s : State) : Bool := (s.reg .psw).getLsbD cyPos
def State.ac (s : State) : Bool := (s.reg .psw).getLsbD acPos
def State.ov (s : State) : Bool := (s.reg .psw).getLsbD ovPos
def State.irbk (s : State) : BitVec 2 := irbkOf (s.reg .psw)

/-- The RAM bank mapped at 0x000 to 0x0FF: PSW.RAMBK0 (10_state.md R44). -/
def State.ramBank (s : State) : Nat := ((s.reg .psw).getLsbD ramBankPos).toNat

/-- PCON.HALT (10_state.md R31). -/
def State.halted (s : State) : Bool := (s.reg .pcon).getLsbD 0

/-- The table-reference pointer TRH:TRL (10_state.md R27). -/
def State.tablePtr (s : State) : BitVec 16 := word16 (s.reg .trh) (s.reg .trl)

/-! ### Data space: decode (20_memory.md R71) -/

/-- The segments of the data space. -/
inductive Segment where
  | gp1
  | gp2
  | sfr
  | xram
deriving DecidableEq, Repr

/-- The segment `a[8:7]`. -/
def segmentOf (a : DAddr) : Segment :=
  if a.toNat < 0x80 then .gp1 else if a.toNat < 0x100 then .gp2 else if a.toNat < 0x180 then .sfr else .xram

/-- The index of a data address's byte in its backing array. -/
def State.cellIndex (s : State) (a : DAddr) : Nat :=
  match segmentOf a with
  | .gp1 => 256 * s.ramBank + a.toNat % 128
  | .gp2 => 256 * s.ramBank + (0x80 + a.toNat % 128)
  | .sfr => a.toNat % 128
  | .xram => 128 * s.xramBank.val + a.toNat % 128

/-- The backing byte of a data address. -/
def State.dataByte (s : State) (a : DAddr) : Byte :=
  match segmentOf a with
  | .gp1 => s.ram.read (s.cellIndex a)
  | .gp2 => s.ram.read (s.cellIndex a)
  | .sfr => s.sfr.read (s.cellIndex a)
  | .xram => s.xram.read (s.cellIndex a)

/-- Store the backing byte of a data address (20_memory.md R88 (d)). -/
def State.storeByte (s : State) (a : DAddr) (v : Byte) : State :=
  match segmentOf a with
  | .gp1 => { s with ram := s.ram.write (s.cellIndex a) v }
  | .gp2 => { s with ram := s.ram.write (s.cellIndex a) v }
  | .sfr => { s with sfr := s.sfr.write (s.cellIndex a) v }
  | .xram => { s with xram := s.xram.write (s.cellIndex a) v }

/-! ### The work-RAM port (20_memory.md R83, R95) -/

/-- The access address WA (10_state.md R38). -/
def State.workAddr (s : State) : DAddr := (s.reg .vrmad2).extractLsb' 0 1 ++ s.reg .vrmad1

/-- VSEL.INCE (10_state.md R37). -/
def State.workAutoInc (s : State) : Bool := (s.reg .vsel).getLsbD 4

/-- `IncWA()`: direct stores, no events (20_memory.md R95). -/
def State.incWorkAddr (s : State) : State :=
  let low := s.reg .vrmad1 + 1
  if low = 0 then (s.setReg .vrmad1 low).setReg .vrmad2 (s.reg .vrmad2 ^^^ 1)
  else s.setReg .vrmad1 low

/-- The increment that follows every access of the port when INCE is set. -/
def State.afterWorkAccess (s : State) : State := if s.workAutoInc then s.incWorkAddr else s

/-- `VtrbfRead()` (20_memory.md R83). -/
def State.workRead (s : State) : Byte × State := (s.wram.read s.workAddr.toNat, s.afterWorkAccess)

/-- The side effect of a write to VTRBF (20_memory.md R95). -/
def State.workWrite (s : State) (v : Byte) : State :=
  ({ s with wram := s.wram.write s.workAddr.toNat v } : State).afterWorkAccess

/-! ### Data-space read (20_memory.md R80 to R87) -/

/-- `LiveRead(a)`: a fresh draw (20_memory.md R82; log entry 6). -/
def State.liveRead (s : State) (a : DAddr) : Byte × State :=
  let v := if inSet livePortSet a then s.dataByte a ||| Config.pins a s.draws else Config.timerCounter a s.draws
  (v, { s with draws := s.draws + 1 })

/-- `DRead(a)`: the byte and the state after the read's side effect (20_memory.md R80). Every 9-bit address is in
range. -/
def State.dread (s : State) (a : DAddr) : Byte × State :=
  if inSet writeOnlySet a then (writeOnlyReadValue, s)
  else if a = Sfr.vtrbf.addr then s.workRead
  else if inSet liveCounterSet a || inSet livePortSet a then s.liveRead a
  else if a = Sfr.psw.addr then (s.psw, s)
  else (s.dataByte a, s)

/-- `DReadLatch(a)` (20_memory.md R86). -/
def State.dreadLatch (s : State) (a : DAddr) : Byte × State :=
  if inSet latchSet a then (s.dataByte a, s) else s.dread a

/-! ### Program space and flash (20_memory.md R100 to R104) -/

/-- Whether a program address is inside the active array (R100; always, with the default `ROM_SIZE`). -/
def State.inProgram (s : State) (a : PAddr) : Bool :=
  match s.progSrc with
  | .rom => decide (a.toNat < romSize)
  | .flash => true

/-- The program byte at an address: mask ROM, or flash bank 0 (R100). -/
def State.programByte (s : State) (a : PAddr) : Byte :=
  match s.progSrc with
  | .rom => s.rom.read a.toNat
  | .flash => s.flash.read a.toNat

/-- `FRead(f)` (R104). -/
def State.flashByte (s : State) (f : FAddr) : Byte := s.flash.read f.toNat

/-- `FWrite(f, v)` (R104). -/
def State.flashStore (s : State) (f : FAddr) (v : Byte) : State := { s with flash := s.flash.write f.toNat v }

/-- `FAddr()`: FPR.ADDR, TRH, TRL (46_system.md R343). -/
def State.flashAddr (s : State) : FAddr := (s.reg .fpr).extractLsb' 0 1 ++ s.tablePtr

/-- The opcode byte of JMPF (30_encoding.md R142). -/
def jmpfOpcode : Byte := 0x21

/-! ### Data-space write (20_memory.md R88 to R97) -/

/-- The side effect of a write to EXT, made against the current pc and the OLD source (20_memory.md R92). -/
def State.extEffect (s : State) (v : Byte) : State :=
  if v.getLsbD 0 = (s.reg .ext).getLsbD 0 then s
  else
    let s1 : State :=
      if s.programByte s.pc = jmpfOpcode then
        { s with pc := word16 (s.programByte (s.pc + 1)) (s.programByte (s.pc + 2)) }
      else s.raise .undefinedProgramSourceSwitch s.pc.toNat v
    { s1 with progSrc := if v.getLsbD 0 = extFlashValue then .flash else .rom }

/-- The side effect of a write to XBNK (20_memory.md R93; `displayBlanked` is log entry 7). -/
def State.xbnkEffect (s : State) (v : Byte) : State :=
  if h : v.toNat < 3 then
    { s with xramBank := if Config.displayBlanked s.sfr then s.xramBank else ⟨v.toNat, h⟩ }
  else s.raise .invalidBankSelect Sfr.xbnk.addr.toNat v

/-- The side effect of a write to VCCR (20_memory.md R94). -/
def State.vccrEffect (s : State) (v : Byte) : State :=
  if v.getLsbD 7 = (s.reg .vccr).getLsbD 7 then s else s.emit .redraw

/-- Step (a) of a data write: the register-specific side effect. ACC's (R89) and PSW's (R90, R91) are the derived
parity and the derived bank; the timer registers' (R96) is the notification every write makes. -/
def State.writeEffect (s : State) (a : DAddr) (v : Byte) : State :=
  if a = Sfr.ext.addr then s.extEffect v
  else if a = Sfr.xbnk.addr then s.xbnkEffect v
  else if a = Sfr.vccr.addr then s.vccrEffect v
  else if a = Sfr.vtrbf.addr then s.workWrite v
  else s

/-- Step (c) of a data write: the display notification for an XRAM byte that changes. -/
def State.noteDirty (s : State) (a : DAddr) (v : Byte) : State :=
  if segmentOf a = .xram ∧ s.dataByte a ≠ v then s.emit (.displayDirty a v) else s

/-- Steps (e) and (f) of a data write: the notifications every write makes. -/
def State.noteWrite (s : State) (a : DAddr) (v : Byte) : State :=
  (s.emit (.sinkWrite a v)).emit (.memoryChanged a v)

/-- `DWrite(a, v)` (20_memory.md R88). Every 9-bit address is in range. -/
def State.dwrite (s : State) (a : DAddr) (v : Byte) : State :=
  (((s.writeEffect a v).noteDirty a v).storeByte a v).noteWrite a v

/-- `R <- v` for a register name: `DWrite(SFR_ADDR[R], v)` (00_scope.md R12). -/
def State.writeReg (s : State) (r : Sfr) (v : Byte) : State := s.dwrite r.addr v

/-! ### Stack (20_memory.md R106 to R109) -/

/-- `Push(v)`: always RAM bank 0; a push at `STACK_HI` records a warning and goes ahead. -/
def State.push (s : State) (v : Byte) : State :=
  let sp' := s.sp + 1
  let s1 := if s.sp = stackHi then s.raise .stackOverflow sp'.toNat v else s
  { s1.setReg .sp sp' with ram := s1.ram.write sp'.toNat v }

/-- `Pop()`: always RAM bank 0; a pop at `STACK_LO - 1` records a warning and goes ahead. -/
def State.pop (s : State) : Byte × State :=
  let v := s.ram.read s.sp.toNat
  let s1 := if s.sp = stackLo - 1 then s.raise .stackUnderflow s.sp.toNat v else s
  (v, s1.setReg .sp (s.sp - 1))

/-- `PushPC(t)`: low byte, then high byte (45_subroutine.md R325). -/
def State.pushPC (s : State) (t : PAddr) : State := (s.push (t.setWidth 8)).push (t.extractLsb' 8 8)

/-- `PopPC()`: high byte, then low byte (45_subroutine.md R325). -/
def State.popPC (s : State) : PAddr × State :=
  let hi := s.pop
  let lo := hi.2.pop
  (word16 hi.1 lo.1, lo.2)

/-! ### Levels and slots (60_exceptions.md R422) -/

def PerLevel.get (p : PerLevel) : Level → Option IrqSource
  | .low => p.low
  | .high => p.high
  | .highest => p.highest

def PerLevel.set (p : PerLevel) (l : Level) (x : Option IrqSource) : PerLevel :=
  match l with
  | .low => { p with low := x }
  | .high => { p with high := x }
  | .highest => { p with highest := x }

/-- The highest occupied level. -/
def PerLevel.top (p : PerLevel) : Option Level :=
  if p.highest.isSome then some .highest
  else if p.high.isSome then some .high
  else if p.low.isSome then some .low
  else none

/-! ### Interrupt requests, dispatch and return (60_exceptions.md R421, R432, R434) -/

/-- The pending bit of a source. -/
def IrqSource.bit (src : IrqSource) : BitVec 10 := 1#10 <<< src.index

/-- Whether a source's request is pending. -/
def State.isPending (s : State) (src : IrqSource) : Bool := s.pending.getLsbD src.index

/-- `raiseIrq(src)` (60_exceptions.md R421). -/
def State.raiseIrq (s : State) (src : IrqSource) : State := { s with pending := s.pending ||| src.bit }

/-- `Dispatch(s, l)`: the one way a handler is entered (60_exceptions.md R432). The return address is the current pc. -/
def State.dispatch (s : State) (src : IrqSource) (l : Level) : State :=
  let s1 := { s with pending := s.pending &&& ~~~src.bit, slot := s.slot.set l (some src) }
  let s2 := s1.pushPC s1.pc
  let s3 := s2.setReg .pcon (s2.reg .pcon &&& 0xFE)
  { s3 with pc := src.vector, suppress := true, rrLast := s3.rrLast.set l (some src) }

/-- `ReturnFromInterrupt()` (60_exceptions.md R434). -/
def State.returnFromInterrupt (s : State) : State :=
  let r := s.popPC
  let s1 := { r.2 with pc := r.1 }
  match s1.slot.top with
  | none => s1
  | some l => { s1 with slot := s1.slot.set l none, prevLevel := l }

end Sys2Proof.Machine
end

