-- ==== Sys2Proof/Machine/Operands.lean ====
section
/-! DEFINITION. The operand forms and targets of the instructions: the indirect effective address (spec/20_memory.md R110),
the branch and jump targets (spec/44_branch.md R290), and the writes of PSW fields (spec/00_scope.md R12). -/

namespace Sys2Proof.Machine

/-- The data address of the pointer byte of `@Rj`: `(PSW[4:3] << 2) | j` (20_memory.md R110, R111). -/
def State.ptrAddr (s : State) (j : PtrNum) : DAddr := (s.irbk ++ j).setWidth 9

/-- `IndEA(j)`: bit 8 is j[1], bits 7:0 are the pointer byte (20_memory.md R110). The pointer lies in GP1, whose reads
have no side effect (R81). -/
def State.indEA (s : State) (j : PtrNum) : DAddr := j.extractLsb' 1 1 ++ s.dataByte (s.ptrAddr j)

/-- `Rel8(r8)` from the already advanced pc (44_branch.md R290). -/
def rel8 (pcNext : PAddr) (r8 : Byte) : PAddr := pcNext + r8.signExtend 16

/-- `Rel16(r16)` (44_branch.md R290; log entry 5 for the bias). -/
def rel16 (pcNext : PAddr) (r16 : BitVec 16) : PAddr := pcNext + r16 + rel16Bias

/-- `Page12(a12)`: the page is that of the already advanced pc (44_branch.md R290). -/
def page12 (pcNext : PAddr) (a12 : BitVec 12) : PAddr := pcNext.extractLsb' 12 4 ++ a12

/-- `pc <- t` (00_scope.md R12). -/
def State.jump (s : State) (t : PAddr) : State := { s with pc := t }

/-- A branch that is taken when `c` holds; otherwise pc keeps its value (44_branch.md R290). -/
def State.jumpIf (s : State) (c : Bool) (t : PAddr) : State := if c then s.jump t else s

/-- Write the PSW bits of `mask` to those of `bits` by one data write that keeps the others (00_scope.md R12). -/
def State.writePswBits (s : State) (mask bits : Byte) : State :=
  s.writeReg .psw ((s.psw &&& ~~~mask) ||| bits)

/-- `PSW.CY <- cy` -/
def State.setCy (s : State) (cy : Bool) : State := s.writePswBits (bitAt cyPos true) (bitAt cyPos cy)

/-- `PSW.CY <- cy; PSW.OV <- ov`, one write -/
def State.setCyOv (s : State) (cy ov : Bool) : State :=
  s.writePswBits (bitAt cyPos true ||| bitAt ovPos true) (bitAt cyPos cy ||| bitAt ovPos ov)

/-- `PSW.CY <- cy; PSW.AC <- ac; PSW.OV <- ov`, one write -/
def State.setCyAcOv (s : State) (cy ac ov : Bool) : State :=
  s.writePswBits (bitAt cyPos true ||| bitAt acPos true ||| bitAt ovPos true)
    (bitAt cyPos cy ||| bitAt acPos ac ||| bitAt ovPos ov)

/-- ACC and the three flags of an adder or subtracter result, ACC first (40_arith.md R202). -/
def State.putAlu (s : State) (r : AluResult) : State := (s.writeReg .acc r.value).setCyAcOv r.cy r.ac r.ov

/-- A read-modify-write of one byte: latch read, then write (20_memory.md R87). -/
def State.modify (s : State) (a : DAddr) (f : Byte → Byte) : State :=
  let v := s.dreadLatch a
  v.2.dwrite a (f v.1)

end Sys2Proof.Machine
end

