-- ==== Sys2Proof/Machine/Arith.lean ====
section
/-! DEFINITION. The arithmetic instructions (spec/40_arith.md R202 to R219).
Each meaning runs after fetch has set `pc` to `pc_next` (30_encoding.md R140). -/

namespace Sys2Proof.Machine

/-- `ADD #i8` (R202) -/
def execAddImm (i8 : Byte) (s : State) : Host.Outcome State Fault Refusal :=
  .next (s.putAlu (addAlu s.acc i8 false))

/-- `ADD d9` (R203) -/
def execAddDir (d9 : DAddr) (s : State) : Host.Outcome State Fault Refusal :=
  let b := s.dread d9
  .next (b.2.putAlu (addAlu s.acc b.1 false))

/-- `ADD @Rj` (R204) -/
def execAddInd (j : PtrNum) (s : State) : Host.Outcome State Fault Refusal :=
  let b := s.dread (s.indEA j)
  .next (b.2.putAlu (addAlu s.acc b.1 false))

/-- `ADDC #i8` (R205) -/
def execAddcImm (i8 : Byte) (s : State) : Host.Outcome State Fault Refusal :=
  .next (s.putAlu (addAlu s.acc i8 s.cy))

/-- `ADDC d9` (R206) -/
def execAddcDir (d9 : DAddr) (s : State) : Host.Outcome State Fault Refusal :=
  let b := s.dread d9
  .next (b.2.putAlu (addAlu s.acc b.1 s.cy))

/-- `ADDC @Rj` (R207) -/
def execAddcInd (j : PtrNum) (s : State) : Host.Outcome State Fault Refusal :=
  let b := s.dread (s.indEA j)
  .next (b.2.putAlu (addAlu s.acc b.1 s.cy))

/-- `SUB #i8` (R208) -/
def execSubImm (i8 : Byte) (s : State) : Host.Outcome State Fault Refusal :=
  .next (s.putAlu (subAlu s.acc i8 false))

/-- `SUB d9` (R209) -/
def execSubDir (d9 : DAddr) (s : State) : Host.Outcome State Fault Refusal :=
  let b := s.dread d9
  .next (b.2.putAlu (subAlu s.acc b.1 false))

/-- `SUB @Rj` (R210) -/
def execSubInd (j : PtrNum) (s : State) : Host.Outcome State Fault Refusal :=
  let b := s.dread (s.indEA j)
  .next (b.2.putAlu (subAlu s.acc b.1 false))

/-- `SUBC #i8` (R211) -/
def execSubcImm (i8 : Byte) (s : State) : Host.Outcome State Fault Refusal :=
  .next (s.putAlu (subAlu s.acc i8 s.cy))

/-- `SUBC d9` (R212) -/
def execSubcDir (d9 : DAddr) (s : State) : Host.Outcome State Fault Refusal :=
  let b := s.dread d9
  .next (b.2.putAlu (subAlu s.acc b.1 s.cy))

/-- `SUBC @Rj` (R213) -/
def execSubcInd (j : PtrNum) (s : State) : Host.Outcome State Fault Refusal :=
  let b := s.dread (s.indEA j)
  .next (b.2.putAlu (subAlu s.acc b.1 s.cy))

/-- `INC d9` (R214) -/
def execIncDir (d9 : DAddr) (s : State) : Host.Outcome State Fault Refusal :=
  .next (s.modify d9 fun v => v + 1)

/-- `INC @Rj` (R215) -/
def execIncInd (j : PtrNum) (s : State) : Host.Outcome State Fault Refusal :=
  .next (s.modify (s.indEA j) fun v => v + 1)

/-- `DEC d9` (R216) -/
def execDecDir (d9 : DAddr) (s : State) : Host.Outcome State Fault Refusal :=
  .next (s.modify d9 fun v => v - 1)

/-- `DEC @Rj` (R217) -/
def execDecInd (j : PtrNum) (s : State) : Host.Outcome State Fault Refusal :=
  .next (s.modify (s.indEA j) fun v => v - 1)

/-- `MUL`: B:ACC:C is ACC:C times B (R218) -/
def execMul (s : State) : Host.Outcome State Fault Refusal :=
  let p := mulProduct s.acc (s.reg .c) (s.reg .b)
  let t := ((s.writeReg .c (numByte p 0)).writeReg .acc (numByte p 1)).writeReg .b (numByte p 2)
  .next (t.setCyOv false (mulOverflow p))

/-- `DIV`: quotient ACC:C and remainder B of ACC:C by B (R219) -/
def execDiv (s : State) : Host.Outcome State Fault Refusal :=
  let q := divResult s.acc (s.reg .c) (s.reg .b)
  let t := ((s.writeReg .c (numByte q.1 0)).writeReg .acc (numByte q.1 1)).writeReg .b (numByte q.2 0)
  .next (t.setCyOv false (divOverflow q.2))

end Sys2Proof.Machine
end

