-- ==== Sys2Proof/Machine/Bit.lean ====
section
/-! DEFINITION. The bit instructions (spec/43_bit.md R280 to R284): read-modify-writes through the latch read (R283).
Each meaning runs after fetch has set `pc` to `pc_next` (30_encoding.md R140). -/

namespace Sys2Proof.Machine

/-- `SET1 d9,b3` (R280) -/
def execSet1 (d9 : DAddr) (b3 : BitNum) (s : State) : Host.Outcome State Fault Refusal :=
  .next (s.modify d9 fun v => v ||| bitAt b3.toNat true)

/-- `CLR1 d9,b3` (R281) -/
def execClr1 (d9 : DAddr) (b3 : BitNum) (s : State) : Host.Outcome State Fault Refusal :=
  .next (s.modify d9 fun v => v &&& ~~~bitAt b3.toNat true)

/-- `NOT1 d9,b3` (R282) -/
def execNot1 (d9 : DAddr) (b3 : BitNum) (s : State) : Host.Outcome State Fault Refusal :=
  .next (s.modify d9 fun v => v ^^^ bitAt b3.toNat true)

end Sys2Proof.Machine
end

