-- ==== Sys2Proof/Machine/Branch.lean ====
section
/-! DEFINITION. The branch and jump instructions (spec/44_branch.md R291 to R311). Every target is computed from the fetch-time
`pc_next`, also where a write to EXT has moved pc before the branch (90_conflicts.md C4).
Each meaning runs after fetch has set `pc` to `pc_next` (30_encoding.md R140). -/

namespace Sys2Proof.Machine

/-- `BR r8` (R291) -/
def execBr (r8 : Byte) (s : State) : Host.Outcome State Fault Refusal :=
  .next (s.jump (rel8 s.pc r8))

/-- `BRF r16` (R292) -/
def execBrf (r16 : BitVec 16) (s : State) : Host.Outcome State Fault Refusal :=
  .next (s.jump (rel16 s.pc r16))

/-- `BZ r8` (R294) -/
def execBz (r8 : Byte) (s : State) : Host.Outcome State Fault Refusal :=
  .next (s.jumpIf (s.acc == 0) (rel8 s.pc r8))

/-- `BNZ r8` (R295) -/
def execBnz (r8 : Byte) (s : State) : Host.Outcome State Fault Refusal :=
  .next (s.jumpIf (s.acc != 0) (rel8 s.pc r8))

/-- `BP d9,b3,r8` (R296) -/
def execBp (d9 : DAddr) (b3 : BitNum) (r8 : Byte) (s : State) : Host.Outcome State Fault Refusal :=
  let v := s.dread d9
  .next (v.2.jumpIf (v.1.getLsbD b3.toNat) (rel8 s.pc r8))

/-- `BPC d9,b3,r8`: nothing is written when the bit is 0 (R297) -/
def execBpc (d9 : DAddr) (b3 : BitNum) (r8 : Byte) (s : State) : Host.Outcome State Fault Refusal :=
  let v := s.dreadLatch d9
  if v.1.getLsbD b3.toNat then .next ((v.2.dwrite d9 (v.1 &&& ~~~bitAt b3.toNat true)).jump (rel8 s.pc r8))
  else .next v.2

/-- `BN d9,b3,r8` (R298) -/
def execBn (d9 : DAddr) (b3 : BitNum) (r8 : Byte) (s : State) : Host.Outcome State Fault Refusal :=
  let v := s.dread d9
  .next (v.2.jumpIf (!v.1.getLsbD b3.toNat) (rel8 s.pc r8))

/-- Decrement a byte and branch when it is not zero (R300). -/
def State.decrementAndBranch (s : State) (a : DAddr) (r8 : Byte) : State :=
  let v := s.dreadLatch a
  (v.2.dwrite a (v.1 - 1)).jumpIf (v.1 - 1 != 0) (rel8 s.pc r8)

/-- `DBNZ d9,r8` (R300) -/
def execDbnzDir (d9 : DAddr) (r8 : Byte) (s : State) : Host.Outcome State Fault Refusal :=
  .next (s.decrementAndBranch d9 r8)

/-- `DBNZ @Rj,r8` (R301) -/
def execDbnzInd (j : PtrNum) (r8 : Byte) (s : State) : Host.Outcome State Fault Refusal :=
  .next (s.decrementAndBranch (s.indEA j) r8)

/-- Write the compare carry and branch when equality is `want` (R290). -/
def State.compareAndBranch (s : State) (lhs rhs : Byte) (want : Bool) (r8 : Byte) : State :=
  (s.setCy (compareCarry lhs rhs)).jumpIf ((lhs == rhs) == want) (rel8 s.pc r8)

/-- `BE #i8,r8` (R302) -/
def execBeImm (i8 r8 : Byte) (s : State) : Host.Outcome State Fault Refusal :=
  .next (s.compareAndBranch s.acc i8 true r8)

/-- `BE d9,r8` (R303) -/
def execBeDir (d9 : DAddr) (r8 : Byte) (s : State) : Host.Outcome State Fault Refusal :=
  let b := s.dread d9
  .next (b.2.compareAndBranch s.acc b.1 true r8)

/-- `BE @Rj,#i8,r8`: the left operand is the indirect byte (R304) -/
def execBeInd (j : PtrNum) (i8 r8 : Byte) (s : State) : Host.Outcome State Fault Refusal :=
  let a := s.dread (s.indEA j)
  .next (a.2.compareAndBranch a.1 i8 true r8)

/-- `BNE #i8,r8` (R305) -/
def execBneImm (i8 r8 : Byte) (s : State) : Host.Outcome State Fault Refusal :=
  .next (s.compareAndBranch s.acc i8 false r8)

/-- `BNE d9,r8` (R306) -/
def execBneDir (d9 : DAddr) (r8 : Byte) (s : State) : Host.Outcome State Fault Refusal :=
  let b := s.dread d9
  .next (b.2.compareAndBranch s.acc b.1 false r8)

/-- `BNE @Rj,#i8,r8`: the left operand is the indirect byte (R307) -/
def execBneInd (j : PtrNum) (i8 r8 : Byte) (s : State) : Host.Outcome State Fault Refusal :=
  let a := s.dread (s.indEA j)
  .next (a.2.compareAndBranch a.1 i8 false r8)

/-- `JMP a12` (R310) -/
def execJmp (a12 : BitVec 12) (s : State) : Host.Outcome State Fault Refusal :=
  .next (s.jump (page12 s.pc a12))

/-- `JMPF a16` (R311) -/
def execJmpf (a16 : PAddr) (s : State) : Host.Outcome State Fault Refusal :=
  .next (s.jump a16)

end Sys2Proof.Machine
end

