-- ==== Sys2Proof/Machine/Logic.lean ====
section
/-! DEFINITION. The logic and rotate instructions (spec/41_logic.md R230 to R245).
Each meaning runs after fetch has set `pc` to `pc_next` (30_encoding.md R140). -/

namespace Sys2Proof.Machine

/-- `AND #i8` (R231) -/
def execAndImm (i8 : Byte) (s : State) : Host.Outcome State Fault Refusal :=
  .next (s.writeReg .acc (s.acc &&& i8))

/-- `AND d9` (R232) -/
def execAndDir (d9 : DAddr) (s : State) : Host.Outcome State Fault Refusal :=
  let v := s.dread d9
  .next (v.2.writeReg .acc (s.acc &&& v.1))

/-- `AND @Rj` (R233) -/
def execAndInd (j : PtrNum) (s : State) : Host.Outcome State Fault Refusal :=
  let v := s.dread (s.indEA j)
  .next (v.2.writeReg .acc (s.acc &&& v.1))

/-- `OR #i8` (R234) -/
def execOrImm (i8 : Byte) (s : State) : Host.Outcome State Fault Refusal :=
  .next (s.writeReg .acc (s.acc ||| i8))

/-- `OR d9` (R235) -/
def execOrDir (d9 : DAddr) (s : State) : Host.Outcome State Fault Refusal :=
  let v := s.dread d9
  .next (v.2.writeReg .acc (s.acc ||| v.1))

/-- `OR @Rj` (R236) -/
def execOrInd (j : PtrNum) (s : State) : Host.Outcome State Fault Refusal :=
  let v := s.dread (s.indEA j)
  .next (v.2.writeReg .acc (s.acc ||| v.1))

/-- `XOR #i8` (R237) -/
def execXorImm (i8 : Byte) (s : State) : Host.Outcome State Fault Refusal :=
  .next (s.writeReg .acc (s.acc ^^^ i8))

/-- `XOR d9` (R238) -/
def execXorDir (d9 : DAddr) (s : State) : Host.Outcome State Fault Refusal :=
  let v := s.dread d9
  .next (v.2.writeReg .acc (s.acc ^^^ v.1))

/-- `XOR @Rj` (R239) -/
def execXorInd (j : PtrNum) (s : State) : Host.Outcome State Fault Refusal :=
  let v := s.dread (s.indEA j)
  .next (v.2.writeReg .acc (s.acc ^^^ v.1))

/-- `ROL` (R240) -/
def execRol (s : State) : Host.Outcome State Fault Refusal :=
  .next (s.writeReg .acc (rotateLeft s.acc (s.acc.getLsbD 7)))

/-- `ROLC` (R241) -/
def execRolc (s : State) : Host.Outcome State Fault Refusal :=
  .next ((s.writeReg .acc (rotateLeft s.acc s.cy)).setCy (s.acc.getLsbD 7))

/-- `ROR` (R242) -/
def execRor (s : State) : Host.Outcome State Fault Refusal :=
  .next (s.writeReg .acc (rotateRight s.acc (s.acc.getLsbD 0)))

/-- `RORC` (R243) -/
def execRorc (s : State) : Host.Outcome State Fault Refusal :=
  .next ((s.writeReg .acc (rotateRight s.acc s.cy)).setCy (s.acc.getLsbD 0))

end Sys2Proof.Machine
end

