-- ==== Sys2Proof/Machine/Subroutine.lean ====
section
/-! DEFINITION. The subroutine instructions and the return from interrupt (spec/45_subroutine.md R320 to R325).
Each meaning runs after fetch has set `pc` to `pc_next` (30_encoding.md R140). -/

namespace Sys2Proof.Machine

/-- `CALL a12` (R320) -/
def execCall (a12 : BitVec 12) (s : State) : Host.Outcome State Fault Refusal :=
  .next ((s.pushPC s.pc).jump (page12 s.pc a12))

/-- `CALLF a16` (R321) -/
def execCallf (a16 : PAddr) (s : State) : Host.Outcome State Fault Refusal :=
  .next ((s.pushPC s.pc).jump a16)

/-- `CALLR r16` (R322) -/
def execCallr (r16 : BitVec 16) (s : State) : Host.Outcome State Fault Refusal :=
  .next ((s.pushPC s.pc).jump (rel16 s.pc r16))

/-- `RET` (R323) -/
def execRet (s : State) : Host.Outcome State Fault Refusal :=
  .next (s.popPC.2.jump s.popPC.1)

/-- `RETI` (R324, 60_exceptions.md R434) -/
def execReti (s : State) : Host.Outcome State Fault Refusal :=
  .next s.returnFromInterrupt

end Sys2Proof.Machine
end

