-- ==== Sys2Proof/Machine/System.lean ====
section
/-! DEFINITION. NOP, LDF and STF with the flash-programming state machine (spec/46_system.md R340 to R347).
Each meaning runs after fetch has set `pc` to `pc_next` (30_encoding.md R140). -/

namespace Sys2Proof.Machine

/-- `NOP` (R340) -/
def execNop (s : State) : Host.Outcome State Fault Refusal :=
  .next s

/-- `LDF` (R342) -/
def execLdf (s : State) : Host.Outcome State Fault Refusal :=
  .next (s.writeReg .acc (s.flashByte s.flashAddr))

/-- FPR.UNLOCK (10_state.md R36). -/
def State.flashUnlock (s : State) : Bool := (s.reg .fpr).getLsbD 1

/-- The error of a rejected STF; no flash byte is written (46_system.md R346). -/
def State.flashError (s : State) (v : Byte) : State := s.raise .flashProgramSequenceError s.flashAddr.toNat v

/-- An STF rejected as locked or as an unaligned start: the error, and back to locked (46_system.md R345). -/
def State.flashReject (s : State) (v : Byte) : State := { s.flashError v with fstate := .s0, fcount := 0 }

/-- An STF while programming (46_system.md R345). -/
def State.flashProgram (s : State) (v : Byte) : State :=
  if s.fcount = 0 ∧ s.tablePtr.extractLsb' 0 7 ≠ 0 then s.flashReject v
  else
    let t := s.flashStore s.flashAddr v
    if s.fcount + 1 = flashBudget then { t with fstate := .s0, fcount := 0 } else { t with fcount := s.fcount + 1 }

/-- An STF that is a step of the unlock handshake (46_system.md R345). -/
def State.flashHandshake (s : State) (v : Byte) : State :=
  if some (s.tablePtr, v) = flashUnlockPair s.fstate then { s with fstate := flashNextState s.fstate, fcount := 0 }
  else { s.flashError v with fstate := if some (s.tablePtr, v) = flashUnlockPair .s0 then .s1 else .s0 }

/-- `FlashStep(TRH:TRL, ACC)` (46_system.md R345). -/
def State.flashStep (s : State) (v : Byte) : State :=
  if s.fstate = .prog then s.flashProgram v
  else if s.flashUnlock then s.flashHandshake v
  else s.flashReject v

/-- `STF` (R344) -/
def execStf (s : State) : Host.Outcome State Fault Refusal :=
  .next (s.flashStep s.acc)

end Sys2Proof.Machine
end

