-- ==== Sys2Proof/Machine/Transfer.lean ====
section
/-! DEFINITION. The data transfer instructions (spec/42_transfer.md R250 to R270).
Each meaning runs after fetch has set `pc` to `pc_next` (30_encoding.md R140). -/

namespace Sys2Proof.Machine

/-- `LD d9` (R250) -/
def execLdDir (d9 : DAddr) (s : State) : Host.Outcome State Fault Refusal :=
  let v := s.dread d9
  .next (v.2.writeReg .acc v.1)

/-- `LD @Rj` (R251) -/
def execLdInd (j : PtrNum) (s : State) : Host.Outcome State Fault Refusal :=
  let v := s.dread (s.indEA j)
  .next (v.2.writeReg .acc v.1)

/-- `ST d9` (R252) -/
def execStDir (d9 : DAddr) (s : State) : Host.Outcome State Fault Refusal :=
  .next (s.dwrite d9 s.acc)

/-- `ST @Rj` (R253) -/
def execStInd (j : PtrNum) (s : State) : Host.Outcome State Fault Refusal :=
  .next (s.dwrite (s.indEA j) s.acc)

/-- `MOV #i8,d9` (R254) -/
def execMovDir (i8 : Byte) (d9 : DAddr) (s : State) : Host.Outcome State Fault Refusal :=
  .next (s.dwrite d9 i8)

/-- `MOV #i8,@Rj` (R255) -/
def execMovInd (i8 : Byte) (j : PtrNum) (s : State) : Host.Outcome State Fault Refusal :=
  .next (s.dwrite (s.indEA j) i8)

/-- The exchange of ACC and a data byte: plain read, the memory operand written first, then ACC (R256). -/
def State.exchange (s : State) (a : DAddr) : State :=
  let t := s.dread a
  (t.2.dwrite a t.2.acc).writeReg .acc t.1

/-- `XCH d9` (R256) -/
def execXchDir (d9 : DAddr) (s : State) : Host.Outcome State Fault Refusal :=
  .next (s.exchange d9)

/-- `XCH @Rj` (R257) -/
def execXchInd (j : PtrNum) (s : State) : Host.Outcome State Fault Refusal :=
  .next (s.exchange (s.indEA j))

/-- `PUSH d9` (R260) -/
def execPush (d9 : DAddr) (s : State) : Host.Outcome State Fault Refusal :=
  let v := s.dread d9
  .next (v.2.push v.1)

/-- `POP d9` (R261) -/
def execPop (d9 : DAddr) (s : State) : Host.Outcome State Fault Refusal :=
  let v := s.pop
  .next (v.2.dwrite d9 v.1)

/-- The table address of `LDC`: TRH:TRL plus ACC, modulo 65536 (R270). -/
def State.tableAddr (s : State) : PAddr := s.tablePtr + s.acc.setWidth 16

/-- `LDC` (R270). A read outside program space records `OutOfRange` and stops the instruction (60_exceptions.md R401;
log entry 11: no address is outside with the default `ROM_SIZE`). -/
def execLdc (s : State) : Host.Outcome State Fault Refusal :=
  if s.inProgram s.tableAddr then .next (s.writeReg .acc (s.programByte s.tableAddr))
  else .next (s.raise .outOfRange s.tableAddr.toNat 0)

end Sys2Proof.Machine
end

