-- ==== Sys2Proof/Syntax.lean ====
section
/-! DEFINITION. The instructions: one constructor for each of the 70 rows of spec/opcode_table.json, in the
table's order (30_encoding.md R142). Suffixes name the operand form: `Imm` is #i8, `Dir` is d9, `Ind` is @Rj.
Operands stand in the order of the assembler syntax (R147). -/

namespace Sys2Proof

inductive Instr where
  /-- `NOP` (R340) -/
  | nop
  /-- `BR r8` (R291) -/
  | br (r8 : Byte)
  /-- `LD d9` (R250) -/
  | ldDir (d9 : DAddr)
  /-- `LD @Rj` (R251) -/
  | ldInd (j : PtrNum)
  /-- `CALL a12` (R320) -/
  | call (a12 : BitVec 12)
  /-- `CALLR r16` (R322) -/
  | callr (r16 : BitVec 16)
  /-- `BRF r16` (R292) -/
  | brf (r16 : BitVec 16)
  /-- `ST d9` (R252) -/
  | stDir (d9 : DAddr)
  /-- `ST @Rj` (R253) -/
  | stInd (j : PtrNum)
  /-- `CALLF a16` (R321) -/
  | callf (a16 : PAddr)
  /-- `JMPF a16` (R311) -/
  | jmpf (a16 : PAddr)
  /-- `MOV #i8,d9` (R254) -/
  | movDir (i8 : Byte) (d9 : DAddr)
  /-- `MOV #i8,@Rj` (R255) -/
  | movInd (i8 : Byte) (j : PtrNum)
  /-- `JMP a12` (R310) -/
  | jmp (a12 : BitVec 12)
  /-- `MUL` (R218) -/
  | mul
  /-- `BE #i8,r8` (R302) -/
  | beImm (i8 : Byte) (r8 : Byte)
  /-- `BE d9,r8` (R303) -/
  | beDir (d9 : DAddr) (r8 : Byte)
  /-- `BE @Rj,#i8,r8` (R304) -/
  | beInd (j : PtrNum) (i8 : Byte) (r8 : Byte)
  /-- `DIV` (R219) -/
  | div
  /-- `BNE #i8,r8` (R305) -/
  | bneImm (i8 : Byte) (r8 : Byte)
  /-- `BNE d9,r8` (R306) -/
  | bneDir (d9 : DAddr) (r8 : Byte)
  /-- `BNE @Rj,#i8,r8` (R307) -/
  | bneInd (j : PtrNum) (i8 : Byte) (r8 : Byte)
  /-- `BPC d9,b3,r8` (R297) -/
  | bpc (d9 : DAddr) (b3 : BitNum) (r8 : Byte)
  /-- `LDF` (R342) -/
  | ldf
  /-- `STF` (R344) -/
  | stf
  /-- `DBNZ d9,r8` (R300) -/
  | dbnzDir (d9 : DAddr) (r8 : Byte)
  /-- `DBNZ @Rj,r8` (R301) -/
  | dbnzInd (j : PtrNum) (r8 : Byte)
  /-- `PUSH d9` (R260) -/
  | push (d9 : DAddr)
  /-- `INC d9` (R214) -/
  | incDir (d9 : DAddr)
  /-- `INC @Rj` (R215) -/
  | incInd (j : PtrNum)
  /-- `BP d9,b3,r8` (R296) -/
  | bp (d9 : DAddr) (b3 : BitNum) (r8 : Byte)
  /-- `POP d9` (R261) -/
  | pop (d9 : DAddr)
  /-- `DEC d9` (R216) -/
  | decDir (d9 : DAddr)
  /-- `DEC @Rj` (R217) -/
  | decInd (j : PtrNum)
  /-- `BZ r8` (R294) -/
  | bz (r8 : Byte)
  /-- `ADD #i8` (R202) -/
  | addImm (i8 : Byte)
  /-- `ADD d9` (R203) -/
  | addDir (d9 : DAddr)
  /-- `ADD @Rj` (R204) -/
  | addInd (j : PtrNum)
  /-- `BN d9,b3,r8` (R298) -/
  | bn (d9 : DAddr) (b3 : BitNum) (r8 : Byte)
  /-- `BNZ r8` (R295) -/
  | bnz (r8 : Byte)
  /-- `ADDC #i8` (R205) -/
  | addcImm (i8 : Byte)
  /-- `ADDC d9` (R206) -/
  | addcDir (d9 : DAddr)
  /-- `ADDC @Rj` (R207) -/
  | addcInd (j : PtrNum)
  /-- `RET` (R323) -/
  | ret
  /-- `SUB #i8` (R208) -/
  | subImm (i8 : Byte)
  /-- `SUB d9` (R209) -/
  | subDir (d9 : DAddr)
  /-- `SUB @Rj` (R210) -/
  | subInd (j : PtrNum)
  /-- `NOT1 d9,b3` (R282) -/
  | not1 (d9 : DAddr) (b3 : BitNum)
  /-- `RETI` (R324) -/
  | reti
  /-- `SUBC #i8` (R211) -/
  | subcImm (i8 : Byte)
  /-- `SUBC d9` (R212) -/
  | subcDir (d9 : DAddr)
  /-- `SUBC @Rj` (R213) -/
  | subcInd (j : PtrNum)
  /-- `ROR` (R242) -/
  | ror
  /-- `LDC` (R270) -/
  | ldc
  /-- `XCH d9` (R256) -/
  | xchDir (d9 : DAddr)
  /-- `XCH @Rj` (R257) -/
  | xchInd (j : PtrNum)
  /-- `CLR1 d9,b3` (R281) -/
  | clr1 (d9 : DAddr) (b3 : BitNum)
  /-- `RORC` (R243) -/
  | rorc
  /-- `OR #i8` (R234) -/
  | orImm (i8 : Byte)
  /-- `OR d9` (R235) -/
  | orDir (d9 : DAddr)
  /-- `OR @Rj` (R236) -/
  | orInd (j : PtrNum)
  /-- `ROL` (R240) -/
  | rol
  /-- `AND #i8` (R231) -/
  | andImm (i8 : Byte)
  /-- `AND d9` (R232) -/
  | andDir (d9 : DAddr)
  /-- `AND @Rj` (R233) -/
  | andInd (j : PtrNum)
  /-- `SET1 d9,b3` (R280) -/
  | set1 (d9 : DAddr) (b3 : BitNum)
  /-- `ROLC` (R241) -/
  | rolc
  /-- `XOR #i8` (R237) -/
  | xorImm (i8 : Byte)
  /-- `XOR d9` (R238) -/
  | xorDir (d9 : DAddr)
  /-- `XOR @Rj` (R239) -/
  | xorInd (j : PtrNum)
deriving DecidableEq, Repr

end Sys2Proof
end

