-- ==== Sys2Proof/Machine/Dispatch.lean ====
section
/-! DEFINITION. The dispatch of every instruction to its meaning, one arm per constructor, in the opcode table's order. -/

namespace Sys2Proof.Machine

def exec (i : Instr) (s : State) : Host.Outcome State Fault Refusal :=
  match i with
  | .nop => Sys2Proof.Machine.execNop s
  | .br r8 => Sys2Proof.Machine.execBr r8 s
  | .ldDir d9 => Sys2Proof.Machine.execLdDir d9 s
  | .ldInd j => Sys2Proof.Machine.execLdInd j s
  | .call a12 => Sys2Proof.Machine.execCall a12 s
  | .callr r16 => Sys2Proof.Machine.execCallr r16 s
  | .brf r16 => Sys2Proof.Machine.execBrf r16 s
  | .stDir d9 => Sys2Proof.Machine.execStDir d9 s
  | .stInd j => Sys2Proof.Machine.execStInd j s
  | .callf a16 => Sys2Proof.Machine.execCallf a16 s
  | .jmpf a16 => Sys2Proof.Machine.execJmpf a16 s
  | .movDir i8 d9 => Sys2Proof.Machine.execMovDir i8 d9 s
  | .movInd i8 j => Sys2Proof.Machine.execMovInd i8 j s
  | .jmp a12 => Sys2Proof.Machine.execJmp a12 s
  | .mul => Sys2Proof.Machine.execMul s
  | .beImm i8 r8 => Sys2Proof.Machine.execBeImm i8 r8 s
  | .beDir d9 r8 => Sys2Proof.Machine.execBeDir d9 r8 s
  | .beInd j i8 r8 => Sys2Proof.Machine.execBeInd j i8 r8 s
  | .div => Sys2Proof.Machine.execDiv s
  | .bneImm i8 r8 => Sys2Proof.Machine.execBneImm i8 r8 s
  | .bneDir d9 r8 => Sys2Proof.Machine.execBneDir d9 r8 s
  | .bneInd j i8 r8 => Sys2Proof.Machine.execBneInd j i8 r8 s
  | .bpc d9 b3 r8 => Sys2Proof.Machine.execBpc d9 b3 r8 s
  | .ldf => Sys2Proof.Machine.execLdf s
  | .stf => Sys2Proof.Machine.execStf s
  | .dbnzDir d9 r8 => Sys2Proof.Machine.execDbnzDir d9 r8 s
  | .dbnzInd j r8 => Sys2Proof.Machine.execDbnzInd j r8 s
  | .push d9 => Sys2Proof.Machine.execPush d9 s
  | .incDir d9 => Sys2Proof.Machine.execIncDir d9 s
  | .incInd j => Sys2Proof.Machine.execIncInd j s
  | .bp d9 b3 r8 => Sys2Proof.Machine.execBp d9 b3 r8 s
  | .pop d9 => Sys2Proof.Machine.execPop d9 s
  | .decDir d9 => Sys2Proof.Machine.execDecDir d9 s
  | .decInd j => Sys2Proof.Machine.execDecInd j s
  | .bz r8 => Sys2Proof.Machine.execBz r8 s
  | .addImm i8 => Sys2Proof.Machine.execAddImm i8 s
  | .addDir d9 => Sys2Proof.Machine.execAddDir d9 s
  | .addInd j => Sys2Proof.Machine.execAddInd j s
  | .bn d9 b3 r8 => Sys2Proof.Machine.execBn d9 b3 r8 s
  | .bnz r8 => Sys2Proof.Machine.execBnz r8 s
  | .addcImm i8 => Sys2Proof.Machine.execAddcImm i8 s
  | .addcDir d9 => Sys2Proof.Machine.execAddcDir d9 s
  | .addcInd j => Sys2Proof.Machine.execAddcInd j s
  | .ret => Sys2Proof.Machine.execRet s
  | .subImm i8 => Sys2Proof.Machine.execSubImm i8 s
  | .subDir d9 => Sys2Proof.Machine.execSubDir d9 s
  | .subInd j => Sys2Proof.Machine.execSubInd j s
  | .not1 d9 b3 => Sys2Proof.Machine.execNot1 d9 b3 s
  | .reti => Sys2Proof.Machine.execReti s
  | .subcImm i8 => Sys2Proof.Machine.execSubcImm i8 s
  | .subcDir d9 => Sys2Proof.Machine.execSubcDir d9 s
  | .subcInd j => Sys2Proof.Machine.execSubcInd j s
  | .ror => Sys2Proof.Machine.execRor s
  | .ldc => Sys2Proof.Machine.execLdc s
  | .xchDir d9 => Sys2Proof.Machine.execXchDir d9 s
  | .xchInd j => Sys2Proof.Machine.execXchInd j s
  | .clr1 d9 b3 => Sys2Proof.Machine.execClr1 d9 b3 s
  | .rorc => Sys2Proof.Machine.execRorc s
  | .orImm i8 => Sys2Proof.Machine.execOrImm i8 s
  | .orDir d9 => Sys2Proof.Machine.execOrDir d9 s
  | .orInd j => Sys2Proof.Machine.execOrInd j s
  | .rol => Sys2Proof.Machine.execRol s
  | .andImm i8 => Sys2Proof.Machine.execAndImm i8 s
  | .andDir d9 => Sys2Proof.Machine.execAndDir d9 s
  | .andInd j => Sys2Proof.Machine.execAndInd j s
  | .set1 d9 b3 => Sys2Proof.Machine.execSet1 d9 b3 s
  | .rolc => Sys2Proof.Machine.execRolc s
  | .xorImm i8 => Sys2Proof.Machine.execXorImm i8 s
  | .xorDir d9 => Sys2Proof.Machine.execXorDir d9 s
  | .xorInd j => Sys2Proof.Machine.execXorInd j s

end Sys2Proof.Machine
end

