-- ==== Sys2Proof/WellFormed.lean ====
section
/-! DEFINITION. Which instructions are well formed. The spec reserves no operand value: "Every d9, j, i8, r8,
r16, a12, a16 and b3 value is legal" (30_encoding.md R145). The width of each operand (R7, R132 to R138, R143) is in its
TYPE (a `BitVec` of exactly that width), so an operand out of range cannot be written down and there is nothing
left for a check to refuse. -/

namespace Sys2Proof

/-- Every instruction is well formed (R145). -/
def Instr.wellFormed (_ : Instr) : Bool := true

end Sys2Proof
end

