-- ==== Sys2Proof/Decode.lean ====
section
/-! DEFINITION. Decoding and encoding (spec/30_encoding.md): the sixteen formats of R131, the field positions of
R132 to R139 and R143, the opcode map of R142, a total decoder and, after it, the encoder. -/

namespace Sys2Proof

/-! ### Field extraction (R132 to R139, R143) -/

/-- d9 of F2D, F3DI and F3DR: bit 8 is byte0[0] (R132). -/
def d9Low (b0 b1 : Byte) : DAddr := b0.extractLsb' 0 1 ++ b1

/-- d9 of F2BIT and F3BR: bit 8 is byte0[4] (R132). -/
def d9High (b0 b1 : Byte) : DAddr := b0.extractLsb' 4 1 ++ b1

/-- j is byte0[1:0] (R133). -/
def ptrNum (b0 : Byte) : PtrNum := b0.extractLsb' 0 2

/-- b3 is byte0[2:0] (R138). -/
def bitNum (b0 : Byte) : BitNum := b0.extractLsb' 0 3

/-- a12 is byte0[4], byte0[2:0], byte1 (R137). -/
def addr12 (b0 b1 : Byte) : BitVec 12 := b0.extractLsb' 4 1 ++ b0.extractLsb' 0 3 ++ b1

/-- a16 is stored high byte first (R143). -/
def addr16 (b1 b2 : Byte) : PAddr := word16 b1 b2

/-- r16 is stored low byte first (R136). -/
def rel16Field (b1 b2 : Byte) : BitVec 16 := word16 b2 b1

/-! ### Formats (R131) -/

/-- One of the sixteen formats of R131, with the constructor its operands go to (assembler order, R139, R147). -/
inductive Layout where
  | f1 (mk : Instr)
  | f1r (mk : PtrNum → Instr)
  | f2i (mk : Byte → Instr)
  | f2d (mk : DAddr → Instr)
  | f2ri (mk : Byte → PtrNum → Instr)
  | f2r8 (mk : Byte → Instr)
  | f2rr (mk : PtrNum → Byte → Instr)
  | f2a12 (mk : BitVec 12 → Instr)
  | f2bit (mk : DAddr → BitNum → Instr)
  | f3di (mk : Byte → DAddr → Instr)
  | f3ir (mk : Byte → Byte → Instr)
  | f3dr (mk : DAddr → Byte → Instr)
  | f3rir (mk : PtrNum → Byte → Byte → Instr)
  | f3br (mk : DAddr → BitNum → Byte → Instr)
  | f3a16 (mk : PAddr → Instr)
  | f3r16 (mk : BitVec 16 → Instr)

/-- The bytes an instruction of the format takes (R131). -/
def layoutLength : Layout → Nat
  | .f1 _ | .f1r _ => 1
  | .f2i _ | .f2d _ | .f2ri _ | .f2r8 _ | .f2rr _ | .f2a12 _ | .f2bit _ => 2
  | .f3di _ | .f3ir _ | .f3dr _ | .f3rir _ | .f3br _ | .f3a16 _ | .f3r16 _ => 3

/-- The instruction of bytes 0, 1 and 2; a byte past the format's length is not looked at (R131 to R143). -/
def layoutBuild (l : Layout) (b0 b1 b2 : Byte) : Instr :=
  match l with
  | .f1 mk => mk
  | .f1r mk => mk (ptrNum b0)
  | .f2i mk => mk b1
  | .f2d mk => mk (d9Low b0 b1)
  | .f2ri mk => mk b1 (ptrNum b0)
  | .f2r8 mk => mk b1
  | .f2rr mk => mk (ptrNum b0) b1
  | .f2a12 mk => mk (addr12 b0 b1)
  | .f2bit mk => mk (d9High b0 b1) (bitNum b0)
  | .f3di mk => mk b2 (d9Low b0 b1)
  | .f3ir mk => mk b1 b2
  | .f3dr mk => mk (d9Low b0 b1) b2
  | .f3rir mk => mk (ptrNum b0) b1 b2
  | .f3br mk => mk (d9High b0 b1) (bitNum b0) b2
  | .f3a16 mk => mk (addr16 b1 b2)
  | .f3r16 mk => mk (rel16Field b1 b2)

/-! ### The opcode map (R142) -/

/-- One row of the opcode map: the opcode bytes with `byte0 &&& mask = bits`, the cycle cost (R150), the format. -/
structure Row where
  mask : Byte
  bits : Byte
  cycles : Nat
  layout : Layout

/-- The 70 rows of R142, in its order. -/
def opcodeTable : List Row :=
  [⟨0xFF, 0x00, 1, .f1 .nop⟩,
   ⟨0xFF, 0x01, 2, .f2r8 .br⟩,
   ⟨0xFE, 0x02, 1, .f2d .ldDir⟩,
   ⟨0xFC, 0x04, 1, .f1r .ldInd⟩,
   ⟨0xE8, 0x08, 2, .f2a12 .call⟩,
   ⟨0xFF, 0x10, 4, .f3r16 .callr⟩,
   ⟨0xFF, 0x11, 4, .f3r16 .brf⟩,
   ⟨0xFE, 0x12, 1, .f2d .stDir⟩,
   ⟨0xFC, 0x14, 1, .f1r .stInd⟩,
   ⟨0xFF, 0x20, 2, .f3a16 .callf⟩,
   ⟨0xFF, 0x21, 2, .f3a16 .jmpf⟩,
   ⟨0xFE, 0x22, 2, .f3di .movDir⟩,
   ⟨0xFC, 0x24, 1, .f2ri .movInd⟩,
   ⟨0xE8, 0x28, 2, .f2a12 .jmp⟩] ++
  [⟨0xFF, 0x30, 7, .f1 .mul⟩,
   ⟨0xFF, 0x31, 2, .f3ir .beImm⟩,
   ⟨0xFE, 0x32, 2, .f3dr .beDir⟩,
   ⟨0xFC, 0x34, 2, .f3rir .beInd⟩,
   ⟨0xFF, 0x40, 7, .f1 .div⟩,
   ⟨0xFF, 0x41, 2, .f3ir .bneImm⟩,
   ⟨0xFE, 0x42, 2, .f3dr .bneDir⟩,
   ⟨0xFC, 0x44, 2, .f3rir .bneInd⟩,
   ⟨0xE8, 0x48, 2, .f3br .bpc⟩,
   ⟨0xFF, 0x50, 2, .f1 .ldf⟩,
   ⟨0xFF, 0x51, 2, .f1 .stf⟩,
   ⟨0xFE, 0x52, 2, .f3dr .dbnzDir⟩,
   ⟨0xFC, 0x54, 2, .f2rr .dbnzInd⟩,
   ⟨0xFE, 0x60, 2, .f2d .push⟩] ++
  [⟨0xFE, 0x62, 1, .f2d .incDir⟩,
   ⟨0xFC, 0x64, 1, .f1r .incInd⟩,
   ⟨0xE8, 0x68, 2, .f3br .bp⟩,
   ⟨0xFE, 0x70, 2, .f2d .pop⟩,
   ⟨0xFE, 0x72, 1, .f2d .decDir⟩,
   ⟨0xFC, 0x74, 1, .f1r .decInd⟩,
   ⟨0xFF, 0x80, 2, .f2r8 .bz⟩,
   ⟨0xFF, 0x81, 1, .f2i .addImm⟩,
   ⟨0xFE, 0x82, 1, .f2d .addDir⟩,
   ⟨0xFC, 0x84, 1, .f1r .addInd⟩,
   ⟨0xE8, 0x88, 2, .f3br .bn⟩,
   ⟨0xFF, 0x90, 2, .f2r8 .bnz⟩,
   ⟨0xFF, 0x91, 1, .f2i .addcImm⟩,
   ⟨0xFE, 0x92, 1, .f2d .addcDir⟩] ++
  [⟨0xFC, 0x94, 1, .f1r .addcInd⟩,
   ⟨0xFF, 0xA0, 2, .f1 .ret⟩,
   ⟨0xFF, 0xA1, 1, .f2i .subImm⟩,
   ⟨0xFE, 0xA2, 1, .f2d .subDir⟩,
   ⟨0xFC, 0xA4, 1, .f1r .subInd⟩,
   ⟨0xE8, 0xA8, 1, .f2bit .not1⟩,
   ⟨0xFF, 0xB0, 2, .f1 .reti⟩,
   ⟨0xFF, 0xB1, 1, .f2i .subcImm⟩,
   ⟨0xFE, 0xB2, 1, .f2d .subcDir⟩,
   ⟨0xFC, 0xB4, 1, .f1r .subcInd⟩,
   ⟨0xFF, 0xC0, 1, .f1 .ror⟩,
   ⟨0xFF, 0xC1, 2, .f1 .ldc⟩,
   ⟨0xFE, 0xC2, 1, .f2d .xchDir⟩,
   ⟨0xFC, 0xC4, 1, .f1r .xchInd⟩] ++
  [⟨0xE8, 0xC8, 1, .f2bit .clr1⟩,
   ⟨0xFF, 0xD0, 1, .f1 .rorc⟩,
   ⟨0xFF, 0xD1, 1, .f2i .orImm⟩,
   ⟨0xFE, 0xD2, 1, .f2d .orDir⟩,
   ⟨0xFC, 0xD4, 1, .f1r .orInd⟩,
   ⟨0xFF, 0xE0, 1, .f1 .rol⟩,
   ⟨0xFF, 0xE1, 1, .f2i .andImm⟩,
   ⟨0xFE, 0xE2, 1, .f2d .andDir⟩,
   ⟨0xFC, 0xE4, 1, .f1r .andInd⟩,
   ⟨0xE8, 0xE8, 1, .f2bit .set1⟩,
   ⟨0xFF, 0xF0, 1, .f1 .rolc⟩,
   ⟨0xFF, 0xF1, 1, .f2i .xorImm⟩,
   ⟨0xFE, 0xF2, 1, .f2d .xorDir⟩,
   ⟨0xFC, 0xF4, 1, .f1r .xorInd⟩]

/-- The row an opcode byte selects (R142; every byte selects exactly one, R145). -/
def rowOf (op : Byte) : Option Row :=
  opcodeTable.find? fun r => op &&& r.mask == r.bits

/-! ### Decoding (R130, R140, R141) -/

/-- Why bytes hold no instruction. -/
inductive DecodeError where
  /-- There is no opcode byte. -/
  | empty
  /-- The opcode byte has no row (never with the table of R142: R145). -/
  | invalidOpcode (op : Byte)
  /-- The opcode's format is longer than the bytes at hand. -/
  | truncated (op : Byte)
deriving DecidableEq, Repr

/-- The first instruction of a byte list and the bytes after it. Total: every list decodes or is rejected by name. -/
def decode (bytes : List Byte) : Except DecodeError (Instr × List Byte) :=
  match bytes with
  | [] => .error .empty
  | b0 :: rest =>
    match rowOf b0 with
    | none => .error (.invalidOpcode b0)
    | some row =>
      match layoutLength row.layout, rest with
      | 1, _ => .ok (layoutBuild row.layout b0 0 0, rest)
      | 2, b1 :: rest' => .ok (layoutBuild row.layout b0 b1 0, rest')
      | 3, b1 :: b2 :: rest' => .ok (layoutBuild row.layout b0 b1 b2, rest')
      | _, _ => .error (.truncated b0)

/-- Bytes 0, 1 and 2 of an instruction numbered as spec/opcode_table.json numbers its bits: byte k is bits
8k+7..8k; bits from `nbits` up are 0. -/
def tableBytes (nbits w : Nat) : List Byte :=
  let v := w % 2 ^ nbits
  [BitVec.ofNat 8 v, BitVec.ofNat 8 (v / 2 ^ 8), BitVec.ofNat 8 (v / 2 ^ 16)]

/-- The instruction the decoder reads from a table word. -/
def decodeTableWord (nbits w : Nat) : Option Instr :=
  match decode (tableBytes nbits w) with
  | .ok (i, _) => some i
  | .error _ => none

/-! ### Encoding (R131): each helper takes the row's fixed bits and sets the operand fields -/

def encF1 (op : Byte) : List Byte := [op]
def encF1R (op : Byte) (j : PtrNum) : List Byte := [op ||| j.setWidth 8]
def encF2I (op i8 : Byte) : List Byte := [op, i8]
/-- byte0 with d9[8] in bit 0. -/
def encD9Low (op : Byte) (d9 : DAddr) : Byte := op ||| (d9.extractLsb' 8 1).setWidth 8
/-- byte0 with d9[8] in bit 4 and b3 in bits 2:0. -/
def encD9Bit (op : Byte) (d9 : DAddr) (b3 : BitNum) : Byte :=
  op ||| ((d9.extractLsb' 8 1).setWidth 8 <<< 4) ||| b3.setWidth 8
def encF2D (op : Byte) (d9 : DAddr) : List Byte := [encD9Low op d9, d9.setWidth 8]
def encF2RI (op i8 : Byte) (j : PtrNum) : List Byte := [op ||| j.setWidth 8, i8]
def encF2R8 (op r8 : Byte) : List Byte := [op, r8]
def encF2RR (op : Byte) (j : PtrNum) (r8 : Byte) : List Byte := [op ||| j.setWidth 8, r8]
def encF2A12 (op : Byte) (a12 : BitVec 12) : List Byte :=
  [op ||| ((a12.extractLsb' 11 1).setWidth 8 <<< 4) ||| (a12.extractLsb' 8 3).setWidth 8, a12.setWidth 8]
def encF2BIT (op : Byte) (d9 : DAddr) (b3 : BitNum) : List Byte := [encD9Bit op d9 b3, d9.setWidth 8]
def encF3DI (op i8 : Byte) (d9 : DAddr) : List Byte := [encD9Low op d9, d9.setWidth 8, i8]
def encF3IR (op i8 r8 : Byte) : List Byte := [op, i8, r8]
def encF3DR (op : Byte) (d9 : DAddr) (r8 : Byte) : List Byte := [encD9Low op d9, d9.setWidth 8, r8]
def encF3RIR (op : Byte) (j : PtrNum) (i8 r8 : Byte) : List Byte := [op ||| j.setWidth 8, i8, r8]
def encF3BR (op : Byte) (d9 : DAddr) (b3 : BitNum) (r8 : Byte) : List Byte := [encD9Bit op d9 b3, d9.setWidth 8, r8]
/-- High byte first (R143). -/
def encF3A16 (op : Byte) (a16 : PAddr) : List Byte := [op, a16.extractLsb' 8 8, a16.setWidth 8]
/-- Low byte first (R136). -/
def encF3R16 (op : Byte) (r16 : BitVec 16) : List Byte := [op, r16.setWidth 8, r16.extractLsb' 8 8]

/-- The bytes of an instruction, byte 0 first (R131, R142). -/
def encode : Instr → List Byte
  | .nop => encF1 0x00
  | .br r8 => encF2R8 0x01 r8
  | .ldDir d9 => encF2D 0x02 d9
  | .ldInd j => encF1R 0x04 j
  | .call a12 => encF2A12 0x08 a12
  | .callr r16 => encF3R16 0x10 r16
  | .brf r16 => encF3R16 0x11 r16
  | .stDir d9 => encF2D 0x12 d9
  | .stInd j => encF1R 0x14 j
  | .callf a16 => encF3A16 0x20 a16
  | .jmpf a16 => encF3A16 0x21 a16
  | .movDir i8 d9 => encF3DI 0x22 i8 d9
  | .movInd i8 j => encF2RI 0x24 i8 j
  | .jmp a12 => encF2A12 0x28 a12
  | .mul => encF1 0x30
  | .beImm i8 r8 => encF3IR 0x31 i8 r8
  | .beDir d9 r8 => encF3DR 0x32 d9 r8
  | .beInd j i8 r8 => encF3RIR 0x34 j i8 r8
  | .div => encF1 0x40
  | .bneImm i8 r8 => encF3IR 0x41 i8 r8
  | .bneDir d9 r8 => encF3DR 0x42 d9 r8
  | .bneInd j i8 r8 => encF3RIR 0x44 j i8 r8
  | .bpc d9 b3 r8 => encF3BR 0x48 d9 b3 r8
  | .ldf => encF1 0x50
  | .stf => encF1 0x51
  | .dbnzDir d9 r8 => encF3DR 0x52 d9 r8
  | .dbnzInd j r8 => encF2RR 0x54 j r8
  | .push d9 => encF2D 0x60 d9
  | .incDir d9 => encF2D 0x62 d9
  | .incInd j => encF1R 0x64 j
  | .bp d9 b3 r8 => encF3BR 0x68 d9 b3 r8
  | .pop d9 => encF2D 0x70 d9
  | .decDir d9 => encF2D 0x72 d9
  | .decInd j => encF1R 0x74 j
  | .bz r8 => encF2R8 0x80 r8
  | .addImm i8 => encF2I 0x81 i8
  | .addDir d9 => encF2D 0x82 d9
  | .addInd j => encF1R 0x84 j
  | .bn d9 b3 r8 => encF3BR 0x88 d9 b3 r8
  | .bnz r8 => encF2R8 0x90 r8
  | .addcImm i8 => encF2I 0x91 i8
  | .addcDir d9 => encF2D 0x92 d9
  | .addcInd j => encF1R 0x94 j
  | .ret => encF1 0xA0
  | .subImm i8 => encF2I 0xA1 i8
  | .subDir d9 => encF2D 0xA2 d9
  | .subInd j => encF1R 0xA4 j
  | .not1 d9 b3 => encF2BIT 0xA8 d9 b3
  | .reti => encF1 0xB0
  | .subcImm i8 => encF2I 0xB1 i8
  | .subcDir d9 => encF2D 0xB2 d9
  | .subcInd j => encF1R 0xB4 j
  | .ror => encF1 0xC0
  | .ldc => encF1 0xC1
  | .xchDir d9 => encF2D 0xC2 d9
  | .xchInd j => encF1R 0xC4 j
  | .clr1 d9 b3 => encF2BIT 0xC8 d9 b3
  | .rorc => encF1 0xD0
  | .orImm i8 => encF2I 0xD1 i8
  | .orDir d9 => encF2D 0xD2 d9
  | .orInd j => encF1R 0xD4 j
  | .rol => encF1 0xE0
  | .andImm i8 => encF2I 0xE1 i8
  | .andDir d9 => encF2D 0xE2 d9
  | .andInd j => encF1R 0xE4 j
  | .set1 d9 b3 => encF2BIT 0xE8 d9 b3
  | .rolc => encF1 0xF0
  | .xorImm i8 => encF2I 0xF1 i8
  | .xorDir d9 => encF2D 0xF2 d9
  | .xorInd j => encF1R 0xF4 j

end Sys2Proof
end

