-- ==== Sys2Proof/Machine/Interrupt.lean ====
section
/-! DEFINITION. The interrupt controller's boundary step (spec/60_exceptions.md R423, R430, R431) and the arrival of requests
inside a step (R441). -/

namespace Sys2Proof.Machine

/-- `priorityOf(src)`: a level, or none when the source is not admissible (R423). -/
def State.priorityOf (s : State) (src : IrqSource) : Option Level :=
  let ie := s.reg .ie
  match src.ipBit with
  | none =>
    if ie.getLsbD 1 = false ∧ ie.getLsbD 0 = false then some .highest
    else if ie.getLsbD 7 then some .low else none
  | some k =>
    if ie.getLsbD 7 then (if (s.reg .ip).getLsbD k then some .high else some .low) else none

/-- The scan order when no slot is occupied: `(prev - 1) mod 3, (prev - 2) mod 3, prev` (R430). -/
def idleOrder : Level → List Level
  | .low => [.highest, .high, .low]
  | .high => [.low, .highest, .high]
  | .highest => [.high, .low, .highest]

/-- The levels strictly above one, from the highest down (R430). -/
def levelsAbove : Level → List Level
  | .low => [.highest, .high]
  | .high => [.highest]
  | .highest => []

/-- The levels the boundary step scans, in order (R430). -/
def State.scanOrder (s : State) : List Level :=
  match s.slot.top with
  | none => idleOrder s.prevLevel
  | some l => levelsAbove l

/-- The pending sources of a level, in table order (R430). -/
def State.candidates (s : State) (l : Level) : List IrqSource :=
  irqTable.filter fun src => s.isPending src && decide (s.priorityOf src = some l)

/-- The table in cyclic order, starting just after a source (R431). -/
def tableAfter (src : IrqSource) : List IrqSource :=
  irqTable.drop (src.index + 1) ++ irqTable.take (src.index + 1)

/-- `Pick(l, cand)`: round robin within a level (R431). -/
def pick (last : Option IrqSource) (cand : List IrqSource) : Option IrqSource :=
  match last with
  | none => cand.head?
  | some src => (tableAfter src).find? fun x => decide (x ∈ cand)

/-- The source the boundary step admits, with its level (R430). -/
def State.admitted (s : State) : Option (IrqSource × Level) :=
  s.scanOrder.findSome? fun l => (pick (s.rrLast.get l) (s.candidates l)).map fun src => (src, l)

/-- `Boundary()` (R430). -/
def State.boundary (s : State) : State :=
  if s.suppress then { s with suppress := false }
  else
    match s.admitted with
    | none => s
    | some (src, l) => s.dispatch src l

/-- `Timers.advance` and the sinks: the requests collaborators raise during this step become pending
(R421, R441, 20_memory.md R98; log entry 8). -/
def State.takeArrivals (s : State) : State :=
  match s.arrivals with
  | [] => s
  | now :: later => now.foldl State.raiseIrq { s with arrivals := later }

end Sys2Proof.Machine
end

