-- ==== Sys2Proof/Machine/Fetch.lean ====
section
/-! DEFINITION. The parts of a step around the instruction's meaning (spec/30_encoding.md R140, spec/60_exceptions.md R401,
R440, R441): the fetch, the failed fetches, the idle step, and the end of a step. -/

namespace Sys2Proof.Machine

/-- What a fetch gives (R140, R401). -/
inductive Fetched where
  /-- An instruction, its length in bytes and its cycle cost. -/
  | instr (i : Instr) (len : Nat) (cycles : Nat)
  /-- The opcode byte lies outside program space. -/
  | opcodeOutOfRange
  /-- The opcode byte has no row. -/
  | invalidOpcode (op : Byte)
  /-- The operand byte at an address lies outside program space; the row gives length and cycle cost. -/
  | operandOutOfRange (at_ : PAddr) (len : Nat) (cycles : Nat)
deriving DecidableEq, Repr

/-- The addresses of the `n` program bytes from `a` on, modulo 65536 (R140). -/
def programAddrs (a : PAddr) (n : Nat) : List PAddr := (List.range n).map fun k => a + BitVec.ofNat 16 k

/-- The `n` program bytes from `a` on. -/
def State.programBytes (s : State) (a : PAddr) (n : Nat) : List Byte := (programAddrs a n).map s.programByte

/-- `fetch()` and `decode()` (R140, R141): opcode byte, length from its row, operand bytes, instruction. -/
def State.fetch (s : State) : Fetched :=
  if s.inProgram s.pc then
    match rowOf (s.programByte s.pc) with
    | none => .invalidOpcode (s.programByte s.pc)
    | some row =>
      match (programAddrs s.pc (layoutLength row.layout)).find? fun a => !s.inProgram a with
      | some a => .operandOutOfRange a (layoutLength row.layout) row.cycles
      | none =>
        match decode (s.programBytes s.pc (layoutLength row.layout)) with
        | .ok (i, _) => .instr i (layoutLength row.layout) row.cycles
        | .error _ => .invalidOpcode (s.programByte s.pc)
  else .opcodeOutOfRange

/-- `pc` and `ipc` as an instruction of `len` bytes sees them: pc is `pc_next`, ipc the instruction's own address
(R140, R441). -/
def State.enter (s : State) (len : Nat) : State := { s with ipc := s.pc, pc := s.pc + BitVec.ofNat 16 len }

/-- The length an opcode without a row is given (R145, R401; log entry 12). -/
def invalidOpcodeLength : Nat := 1

/-- Draw the cycle cost of a failed fetch, which no row gives (log entries 11 and 12). -/
def State.drawCycles (s : State) : Nat × State := (Config.failedFetchCycles s.draws, { s with draws := s.draws + 1 })

/-- `OutOfRange` on the opcode fetch: pc + 1 and nothing else (R401). -/
def State.opcodeOutOfRange (s : State) : State := (s.enter 1).raise .outOfRange s.pc.toNat 0

/-- `OutOfRange` on an operand byte: pc_next and nothing else (R401). -/
def State.operandOutOfRange (s : State) (a : PAddr) (len : Nat) : State := (s.enter len).raise .outOfRange a.toNat 0

/-- `InvalidOpcode`: pc_next and nothing else (R401). -/
def State.invalidOpcode (s : State) (op : Byte) : State :=
  (s.enter invalidOpcodeLength).raise .invalidOpcode s.pc.toNat op

/-- The idle step of a halted CPU up to its timer update (R440). No instruction runs, so the address an error of the
boundary step would carry is a free value (log entry 9). -/
def State.idle (s : State) : State := { s with ipc := Config.idleErrorPc s.draws, draws := s.draws + 1 }

/-- The start of a step: nothing is reported yet (R401; log entry 10). -/
def State.beginStep (s : State) : State := { s with faultReport := none }

/-- The end of a step: `lastCycles`, the timer update, the boundary step (R441). -/
def State.endStep (s : State) (cycles : Nat) : State := ({ s with lastCycles := cycles }.takeArrivals).boundary

/-- Store up to three bytes from `a` on in the active program array (20_memory.md R100, R101). -/
def State.storeProgram (s : State) (a : PAddr) : List Byte → State
  | [] => s
  | b :: bs =>
    let t : State :=
      match s.progSrc with
      | .rom => { s with rom := s.rom.write a.toNat b }
      | .flash => { s with flash := s.flash.write a.toNat b }
    t.storeProgram (a + 1) bs

/-- The state in which the next step fetches exactly the table word's instruction: its bytes at pc in the active
program array, and HALT clear, without which nothing is fetched (log entry 1). -/
def State.withTableWord (s : State) (nbits w : Nat) : State :=
  (if s.halted then s.setReg .pcon (s.reg .pcon &&& 0xFE) else s).storeProgram s.pc (tableBytes nbits w)

end Sys2Proof.Machine
end

