-- ==== Sys2Proof/Machine/Step.lean ====
section
/-! DEFINITION. One step of the block (spec/60_exceptions.md R441): an instruction or an idle step, then the timer update and
the boundary step. -/

namespace Sys2Proof.Machine

/-- An instruction's outcome with the end of the step around it. -/
def finish (o : Host.Outcome State Fault Refusal) (cycles : Nat) : Host.Outcome State Fault Refusal :=
  match o with
  | .next t => .next (t.endStep cycles)
  | .fault f => .fault f
  | .refused r => .refused r

/-- `Step()` (R441). -/
def step (s : State) : Host.Outcome State Fault Refusal :=
  let s0 := s.beginStep
  if s0.halted then .next (s0.idle.endStep idleCycles)
  else
    match s0.fetch with
    | .instr i len cycles => finish (exec i (s0.enter len)) cycles
    | .opcodeOutOfRange => .next (s0.drawCycles.2.opcodeOutOfRange.endStep s0.drawCycles.1)
    | .invalidOpcode op => .next ((s0.drawCycles.2.invalidOpcode op).endStep s0.drawCycles.1)
    | .operandOutOfRange a len cycles => .next ((s0.operandOutOfRange a len).endStep cycles)

/-- `s` with a table word stored where `step` fetches its next instruction. -/
def State.withFetchWord (s : State) (nbits w : Nat) : State := s.withTableWord nbits w

end Sys2Proof.Machine
end

