-- ==== Sys2Proof/Machine/HostIface.lean ====
section
/-! DEFINITION. What a host or a collaborator may do to the block BETWEEN steps (spec/60_exceptions.md R421, R455 to R461,
spec/20_memory.md R101, spec/70_reset_and_hazards.md R500). `raiseIrq` itself stands in Machine/Ops.lean. -/

namespace Sys2Proof.Machine

/-- A host access logs its errors with the current pc (R460) and reports only its own fault. -/
def State.hostAccess (s : State) : State := { s with ipc := s.pc, faultReport := none }

/-- The result of an out-of-range host read: the error, and a free byte (20_memory.md R80, R100; log entry 11). -/
def State.outOfRangeRead (s : State) (a : Nat) : Byte × State :=
  let t := s.raise .outOfRange a 0
  (Config.outOfRangeByte t.draws, { t with draws := t.draws + 1 })

/-- A host `DRead` of any address (R460, 20_memory.md R80). -/
def State.hostRead (s : State) (a : Nat) : Byte × State :=
  if a > 0x1FF then s.hostAccess.outOfRangeRead a else s.hostAccess.dread (BitVec.ofNat 9 a)

/-- A host `DReadLatch` of any address (R460, 20_memory.md R86). -/
def State.hostReadLatch (s : State) (a : Nat) : Byte × State :=
  if a > 0x1FF then s.hostAccess.outOfRangeRead a else s.hostAccess.dreadLatch (BitVec.ofNat 9 a)

/-- A host `DWrite` of any address: out of range it stores nothing (R460, 20_memory.md R88 (b)). -/
def State.hostWrite (s : State) (a : Nat) (v : Byte) : State :=
  if a > 0x1FF then s.hostAccess.raise .outOfRange a v else s.hostAccess.dwrite (BitVec.ofNat 9 a) v

/-- A host `PRead` (R460, 20_memory.md R100). -/
def State.hostReadProgram (s : State) (a : PAddr) : Byte × State :=
  if s.inProgram a then (s.programByte a, s.hostAccess) else s.hostAccess.outOfRangeRead a.toNat

/-- `writeProgram(a, v)`: the active program array, bounds-checked (20_memory.md R101). -/
def State.writeProgram (s : State) (a : PAddr) (v : Byte) : State :=
  if s.inProgram a then
    match s.progSrc with
    | .rom => { s.hostAccess with rom := s.rom.write a.toNat v }
    | .flash => { s.hostAccess with flash := s.flash.write a.toNat v }
  else s.hostAccess.raise .outOfRange a.toNat v

/-- `getPC()` (R459). -/
def State.getPC (s : State) : PAddr := s.pc

/-- `setPC(v)`: v modulo 65536, and the one event only the host hook makes (R459). -/
def State.setPC (s : State) (v : Nat) : State :=
  { s.emit (.pcChanged s.pc (BitVec.ofNat 16 v)) with pc := BitVec.ofNat 16 v }

/-- Save returns the complete state (R461). -/
def State.save (s : State) : State := s

/-- Restore replaces the state of the block, with no side effect and no event (R461). DESIGN CHOICE (log entry 19): the
collaborators' inputs are not put back; the free values drawn after it are fresh and the requests still to arrive are
those of the machine restored into. -/
def State.restore (s saved : State) : State :=
  { saved with
    ipc := s.ipc
    draws := max s.draws saved.draws
    arrivals := s.arrivals
    faultReport := none }

/-- What `Reset()` leaves OPEN: the SFR image and the contents of the RAMs (70_reset_and_hazards.md R500). -/
structure ResetDraw where
  sfr : Memory
  ram : Memory
  xram : Memory
  wram : Memory
deriving DecidableEq, Repr

/-- The constraints on `RESET_SFR` (70_reset_and_hazards.md R501). -/
abbrev ResetDraw.allowed (d : ResetDraw) : Prop :=
  (d.sfr.read Sfr.ext.idx).getLsbD 0 ≠ extFlashValue ∧ d.sfr.read Sfr.xbnk.idx = 0 ∧
    (d.sfr.read Sfr.pcon.idx).getLsbD 0 = false

/-- `Reset()` between steps (R500), the OPEN contents given as `d` (log entry 13): ROM, flash and the error log are
kept. -/
def State.warmReset (s : State) (d : ResetDraw) : State :=
  { s with
    pc := 0
    sfr := d.sfr
    ram := d.ram
    xram := d.xram
    wram := d.wram
    progSrc := .rom
    xramBank := 0
    pending := 0
    slot := PerLevel.empty
    prevLevel := .low
    suppress := false
    rrLast := PerLevel.empty
    fstate := .s0
    fcount := 0
    lastCycles := 0
    eventLog := []
    faultReport := none }

end Sys2Proof.Machine
end

