-- ==== Sys2Proof/Safety.lean ====
section
/-! DEFINITION. The terms the statements use: what stays, what a data access may do, what the stack and the interrupt
controller may do, and the invariant of the machine. They are written from the spec's rules with literal addresses
(10_state.md R30), not from the operations of Machine/, so that a slip in one shows against the other.
An index of the array `sfr` is an SFR address less 0x100: ACC 0, PSW 1, B 2, C 3, TRL 4, TRH 5, SP 6, PCON 7, IE 8, IP 9,
EXT 0x0D, XBNK 0x25, VCCR 0x27, FPR 0x54, VSEL 0x63, VRMAD1 0x64, VRMAD2 0x65, VTRBF 0x66. -/

namespace Sys2Proof.Safety

open Sys2Proof.Machine

/-! ### What stays -/

/-- Every SFR byte but those of the listed indices reads as before. -/
def KeepsRegs (except : List Nat) (s t : State) : Prop :=
  ∀ k, k ∉ except → t.sfr.read k = s.sfr.read k

/-- Every byte of RAM but those of the listed indices reads as before (bank 1 begins at index 256). -/
def KeepsRam (except : List Nat) (s t : State) : Prop :=
  ∀ k, k ∉ except → t.ram.read k = s.ram.read k

/-- Every byte of XRAM reads as before. -/
def KeepsXram (s t : State) : Prop := ∀ k, t.xram.read k = s.xram.read k

/-- Every byte of work RAM reads as before. -/
def KeepsWram (s t : State) : Prop := ∀ k, t.wram.read k = s.wram.read k

/-- Every byte of the mask ROM reads as before. -/
def KeepsRom (s t : State) : Prop := ∀ k, t.rom.read k = s.rom.read k

/-- Every byte of flash reads as before. -/
def KeepsFlash (s t : State) : Prop := ∀ k, t.flash.read k = s.flash.read k

/-- Every byte of every memory array reads as before. -/
structure KeepsMemory (s t : State) : Prop where
  ram : KeepsRam [] s t
  xram : KeepsXram s t
  wram : KeepsWram s t
  rom : KeepsRom s t
  flash : KeepsFlash s t

/-- The interrupt controller's state is as before. -/
structure KeepsPic (s t : State) : Prop where
  pending : t.pending = s.pending
  slot : t.slot = s.slot
  prevLevel : t.prevLevel = s.prevLevel
  suppress : t.suppress = s.suppress
  rrLast : t.rrLast = s.rrLast

/-- The flash-programming state, the cycle output and the model's bookkeeping of the step are as before. -/
structure KeepsMisc (s t : State) : Prop where
  fstate : t.fstate = s.fstate
  fcount : t.fcount = s.fcount
  lastCycles : t.lastCycles = s.lastCycles
  ipc : t.ipc = s.ipc
  arrivals : t.arrivals = s.arrivals

/-- The bank and source pointers are as before. -/
structure KeepsBanks (s t : State) : Prop where
  xramBank : t.xramBank = s.xramBank
  progSrc : t.progSrc = s.progSrc

/-- No error was recorded or reported. -/
structure KeepsErrors (s t : State) : Prop where
  errorLog : t.errorLog = s.errorLog
  faultReport : t.faultReport = s.faultReport

/-- Nothing changed but the listed SFR bytes, the event log and pc. -/
structure RegsOnly (regs : List Nat) (s t : State) : Prop where
  regs : KeepsRegs regs s t
  memory : KeepsMemory s t
  pic : KeepsPic s t
  misc : KeepsMisc s t
  banks : KeepsBanks s t
  errors : KeepsErrors s t
  draws : t.draws = s.draws

/-! ### Data-space reads (20_memory.md R71, R80 to R87) -/

/-- The backing byte of a data address (R71). -/
def backing (s : State) (a : DAddr) : Byte :=
  if a.toNat < 0x100 then s.ram.read (256 * ((s.sfr.read 1).getLsbD 1).toNat + a.toNat)
  else if a.toNat < 0x180 then s.sfr.read (a.toNat - 0x100)
  else s.xram.read (128 * s.xramBank.val + (a.toNat - 0x180))

/-- The work-RAM access address (10_state.md R38). -/
def workIndex (s : State) : Nat := 256 * ((s.sfr.read 0x65).toNat % 2) + (s.sfr.read 0x64).toNat

/-- VSEL.INCE (10_state.md R37). -/
def workInc (s : State) : Bool := (s.sfr.read 0x63).getLsbD 4

/-- PSW as a read returns it: bit 0 is 1 when ACC holds an odd number of 1 bits (10_state.md R24). -/
def pswRead (s : State) : Byte :=
  (s.sfr.read 1 &&& 0xFE) ||| (if popcount (s.sfr.read 0) % 2 = 1 then 1 else 0)

/-- What `DRead(a)` returns (R80, R82, R83, R24). -/
def readValue (s : State) (a : DAddr) : Byte :=
  if a ∈ [0x120, 0x127, 0x145, 0x146, 0x14D] then 0xFF
  else if a = 0x166 then s.wram.read (workIndex s)
  else if a ∈ [0x112, 0x114, 0x11B, 0x11D] then Config.timerCounter a s.draws
  else if a = 0x14C then s.sfr.read 0x4C ||| Config.pins a s.draws
  else if a = 0x101 then pswRead s
  else backing s a

/-- What `DReadLatch(a)` returns (R86). -/
def latchValue (s : State) (a : DAddr) : Byte :=
  if a ∈ [0x11B, 0x11D, 0x144, 0x14C, 0x15C] then s.sfr.read (a.toNat - 0x100) else readValue s a

/-- What a read of `a` may change: a read of VTRBF with INCE set moves the work-RAM address on by one, modulo 512
(R83, R95); `drawn` free values are drawn; nothing else (R84). -/
structure ReadEffect (s : State) (a : DAddr) (drawn : Nat) (t : State) : Prop where
  regs : KeepsRegs (if a = 0x166 ∧ workInc s then [0x64, 0x65] else []) s t
  workIndex : workIndex t = if a = 0x166 ∧ workInc s then (workIndex s + 1) % 512 else workIndex s
  workHigh : t.sfr.read 0x65 &&& 0xFE = s.sfr.read 0x65 &&& 0xFE
  memory : KeepsMemory s t
  pic : KeepsPic s t
  misc : KeepsMisc s t
  banks : KeepsBanks s t
  errors : KeepsErrors s t
  pc : t.pc = s.pc
  eventLog : t.eventLog = s.eventLog
  draws : t.draws = s.draws + drawn

/-- `t` is the state after `DRead(a)` at `s` gave `v`. -/
structure ReadOutcome (s : State) (a : DAddr) (v : Byte) (t : State) : Prop where
  value : v = readValue s a
  effect : ReadEffect s a (if a ∈ [0x112, 0x114, 0x11B, 0x11D, 0x14C] then 1 else 0) t

/-- `t` is the state after `DReadLatch(a)` at `s` gave `v`. -/
structure LatchOutcome (s : State) (a : DAddr) (v : Byte) (t : State) : Prop where
  value : v = latchValue s a
  effect : ReadEffect s a (if a ∈ [0x112, 0x114] then 1 else 0) t

/-! ### Data-space writes (20_memory.md R88 to R97) -/

/-- The index in `ram` of a data address below 0x100 (R71, R91). -/
def ramIndex (s : State) (a : DAddr) : Nat := 256 * ((s.sfr.read 1).getLsbD 1).toNat + a.toNat

/-- The index in `xram` of a data address from 0x180 on (R71). -/
def xramIndex (s : State) (a : DAddr) : Nat := 128 * s.xramBank.val + (a.toNat - 0x180)

/-- A write of `v` to `a` switches the program source (R92). -/
abbrev switches (s : State) (a : DAddr) (v : Byte) : Prop :=
  a = 0x10D ∧ v.getLsbD 0 ≠ (s.sfr.read 0x0D).getLsbD 0

/-- The program byte at an address, in the active source (R100). -/
def codeByte (s : State) (a : PAddr) : Byte :=
  if s.progSrc = .rom then s.rom.read a.toNat else s.flash.read a.toNat

/-- The instruction at pc is JMPF (R92). -/
abbrev atJmpf (s : State) : Prop := codeByte s s.pc = 0x21

/-- `t` is the state after `DWrite(a, v)` at `s` (R88). After a bad XBNK value the byte is stored and the bank kept
(decisions D15, D41), a blanked display keeps the bank (D33, log entry 7), and EXT switches the source with or without a
JMPF (D16). -/
structure WriteOutcome (s : State) (a : DAddr) (v : Byte) (t : State) : Prop where
  /-- the byte is stored at its backing place (R88 (d)) -/
  ram : ∀ k, t.ram.read k = if a.toNat < 0x100 ∧ k = ramIndex s a then v else s.ram.read k
  xram : ∀ k, t.xram.read k = if 0x180 ≤ a.toNat ∧ k = xramIndex s a then v else s.xram.read k
  stored : 0x100 ≤ a.toNat → a.toNat < 0x180 → t.sfr.read (a.toNat - 0x100) = v
  /-- no other register changes, but the work-RAM address a VTRBF write moves (R95) -/
  regs : KeepsRegs ((if 0x100 ≤ a.toNat ∧ a.toNat < 0x180 then [a.toNat - 0x100] else []) ++
    if a = 0x166 ∧ workInc s then [0x64, 0x65] else []) s t
  workIndex : a = 0x166 → workIndex t = if workInc s then (workIndex s + 1) % 512 else workIndex s
  workHigh : a = 0x166 → t.sfr.read 0x65 &&& 0xFE = s.sfr.read 0x65 &&& 0xFE
  wram : ∀ k, t.wram.read k = if a = 0x166 ∧ k = Safety.workIndex s then v else s.wram.read k
  rom : KeepsRom s t
  flash : KeepsFlash s t
  /-- XBNK: the bank of a value 0, 1 or 2, unless the display is blanked (R93) -/
  xramBank : t.xramBank.val =
    if a = 0x125 ∧ v.toNat < 3 ∧ Config.displayBlanked s.sfr = false then v.toNat else s.xramBank.val
  /-- EXT: the source, and a JMPF at pc resolved in the old source (R92) -/
  progSrc : t.progSrc = if switches s a v then (if v.getLsbD 0 then .flash else .rom) else s.progSrc
  pc : t.pc =
    if switches s a v ∧ atJmpf s then word16 (codeByte s (s.pc + 1)) (codeByte s (s.pc + 2)) else s.pc
  /-- the two errors a write can record (R92, R93) -/
  errorLog : t.errorLog = s.errorLog ++
    if switches s a v ∧ ¬ atJmpf s then [⟨.undefinedProgramSourceSwitch, s.pc.toNat, v, s.ipc⟩]
    else if a = 0x125 ∧ 3 ≤ v.toNat then [⟨.invalidBankSelect, 0x125, v, s.ipc⟩] else []
  faultReport : t.faultReport =
    if switches s a v ∧ ¬ atJmpf s then some .undefinedProgramSourceSwitch
    else if a = 0x125 ∧ 3 ≤ v.toNat then some .invalidBankSelect else s.faultReport
  /-- the notifications, in order (R88 (c), (e), (f), R94) -/
  eventLog : t.eventLog = s.eventLog ++
    (if a = 0x127 ∧ v.getLsbD 7 ≠ (s.sfr.read 0x27).getLsbD 7 then [.redraw] else []) ++
    (if 0x180 ≤ a.toNat ∧ s.xram.read (xramIndex s a) ≠ v then [.displayDirty a v] else []) ++
    [.sinkWrite a v, .memoryChanged a v]
  pic : KeepsPic s t
  misc : KeepsMisc s t
  draws : t.draws = s.draws

/-! ### Results in ACC and PSW -/

/-- ACC is written with `r`: P follows it, PSW's other bits and everything else stay (41_logic.md R230,
42_transfer.md R258). -/
structure AccOutcome (u : State) (r : Byte) (t : State) : Prop where
  acc : t.sfr.read 0 = r
  parity : (pswRead t).getLsbD 0 = decide (popcount r % 2 = 1)
  frame : RegsOnly [0] u t
  pc : t.pc = u.pc
  eventLog : t.eventLog = u.eventLog ++ [.sinkWrite 0x100 r, .memoryChanged 0x100 r]

/-- PSW is written with the flags of `mask` set to those of `bits`; the other bits and everything else stay. -/
structure FlagOutcome (u : State) (mask bits : Byte) (t : State) : Prop where
  written : t.sfr.read 1 &&& mask = bits
  others : t.sfr.read 1 &&& (0xFE &&& ~~~mask) = u.sfr.read 1 &&& (0xFE &&& ~~~mask)
  frame : RegsOnly [1] u t
  pc : t.pc = u.pc
  eventLog : t.eventLog = u.eventLog ++
    [.sinkWrite 0x101 (t.sfr.read 1), .memoryChanged 0x101 (t.sfr.read 1)]

/-- ACC and the three flags of an addition or subtraction are written (40_arith.md R202). -/
structure AluOutcome (u : State) (r : Byte) (cy ac ov : Bool) (t : State) : Prop where
  acc : t.sfr.read 0 = r
  cy : (t.sfr.read 1).getLsbD 7 = cy
  ac : (t.sfr.read 1).getLsbD 6 = ac
  ov : (t.sfr.read 1).getLsbD 2 = ov
  parity : (pswRead t).getLsbD 0 = decide (popcount r % 2 = 1)
  others : t.sfr.read 1 &&& 0x3A = u.sfr.read 1 &&& 0x3A
  frame : RegsOnly [0, 1] u t
  pc : t.pc = u.pc
  eventLog : t.eventLog = u.eventLog ++ [.sinkWrite 0x100 r, .memoryChanged 0x100 r,
    .sinkWrite 0x101 (t.sfr.read 1), .memoryChanged 0x101 (t.sfr.read 1)]

/-- An outcome is a next state with the property. -/
def Next (o : Host.Outcome State Fault Refusal) (p : State → Prop) : Prop := ∃ t, o = .next t ∧ p t

/-- The carry of PSW. -/
def carry (s : State) : Bool := (s.sfr.read 1).getLsbD 7

/-- `o` adds `b` and the carry-in to `a` (40_arith.md R200): `u` is the state after the operand read. -/
def Adds (u : State) (a b : Byte) (cin : Bool) (o : Host.Outcome State Fault Refusal) : Prop :=
  let r := BitVec.ofNat 8 (a.toNat + b.toNat + cin.toNat)
  let s := BitVec.ofNat 8 (b.toNat + cin.toNat)
  Next o (AluOutcome u r (decide (255 < a.toNat + b.toNat + cin.toNat))
    (decide (15 < a.toNat % 16 + b.toNat % 16 + cin.toNat)) (a.msb == s.msb && r.msb != a.msb))

/-- `o` subtracts `b` and the carry-in from `a` (40_arith.md R201): `u` is the state after the operand read. -/
def Subtracts (u : State) (a b : Byte) (cin : Bool) (o : Host.Outcome State Fault Refusal) : Prop :=
  let r := BitVec.ofInt 8 ((a.toNat : Int) - (b.toNat : Int) - (cin.toNat : Int))
  let s := BitVec.ofNat 8 (b.toNat + cin.toNat)
  Next o (AluOutcome u r (decide ((a.toNat : Int) - b.toNat - cin.toNat < 0))
    (decide (a.toNat % 16 < b.toNat % 16 + cin.toNat)) (a.msb != s.msb && r.msb != a.msb))

/-! ### Branch targets (44_branch.md R290) -/

/-- `Rel8(r8)` from the already advanced pc. -/
def relTarget (s : State) (r8 : Byte) : PAddr := BitVec.ofInt 16 ((s.pc.toNat : Int) + r8.toInt)

/-- `Rel16(r16)` from the already advanced pc, with the default bias 0 (log entry 5). -/
def rel16Target (s : State) (r16 : BitVec 16) : PAddr := BitVec.ofNat 16 (s.pc.toNat + r16.toNat)

/-- `Page12(a12)`: the low 12 bits of the already advanced pc replaced. -/
def pageTarget (s : State) (a12 : BitVec 12) : PAddr := BitVec.ofNat 16 (4096 * (s.pc.toNat / 4096) + a12.toNat)

/-- `t` is `m` with pc at `target` when `c` holds, and `m` otherwise. -/
def BranchOutcome (c : Prop) (target : PAddr) (m t : State) : Prop :=
  (c → t = { m with pc := target }) ∧ (¬c → t = m)

/-- `t` is the state after the compare carry of `lhs < rhs` is written at `u` and the branch is taken when `c` holds
(44_branch.md R290). -/
def CompareOutcome (u : State) (lhs rhs : Byte) (c : Prop) (target : PAddr) (t : State) : Prop :=
  ∃ m, FlagOutcome u 0x80 (if lhs.toNat < rhs.toNat then 0x80 else 0) m ∧ BranchOutcome c target m t

/-! ### Stack (20_memory.md R106 to R109) -/

/-- `t` is the state after `Push(v)` at `s` (R106): the bound is decision D20, the direct stores are D47. -/
structure PushOutcome (s : State) (v : Byte) (t : State) : Prop where
  sp : t.sfr.read 6 = s.sfr.read 6 + 1
  top : t.ram.read (s.sfr.read 6 + 1).toNat = v
  ram : KeepsRam [(s.sfr.read 6 + 1).toNat] s t
  regs : KeepsRegs [6] s t
  xram : KeepsXram s t
  wram : KeepsWram s t
  rom : KeepsRom s t
  flash : KeepsFlash s t
  errorLog : t.errorLog = s.errorLog ++
    if s.sfr.read 6 = 0xFF then [⟨.stackOverflow, 0, v, s.ipc⟩] else []
  faultReport : t.faultReport = s.faultReport
  pic : KeepsPic s t
  misc : KeepsMisc s t
  banks : KeepsBanks s t
  pc : t.pc = s.pc
  eventLog : t.eventLog = s.eventLog
  draws : t.draws = s.draws

/-- `t` is the state after `Pop()` at `s` gave `v` (R107): the bound is decision D20, the direct store is D47. -/
structure PopOutcome (s : State) (v : Byte) (t : State) : Prop where
  value : v = s.ram.read (s.sfr.read 6).toNat
  sp : t.sfr.read 6 = s.sfr.read 6 - 1
  regs : KeepsRegs [6] s t
  memory : KeepsMemory s t
  errorLog : t.errorLog = s.errorLog ++
    if s.sfr.read 6 = 0x7F then [⟨.stackUnderflow, 0x7F, v, s.ipc⟩] else []
  faultReport : t.faultReport = s.faultReport
  pic : KeepsPic s t
  misc : KeepsMisc s t
  banks : KeepsBanks s t
  pc : t.pc = s.pc
  eventLog : t.eventLog = s.eventLog
  draws : t.draws = s.draws

/-- `t` is the state after the return address `ra` is pushed, low byte first (45_subroutine.md R325,
decision D51). -/
def PushPCOutcome (s : State) (ra : PAddr) (t : State) : Prop :=
  ∃ m, PushOutcome s (BitVec.ofNat 8 ra.toNat) m ∧ PushOutcome m (BitVec.ofNat 8 (ra.toNat / 256)) t

/-- `t` is the state after the return address `ra` is popped, high byte first (45_subroutine.md R325,
decision D51). -/
def PopPCOutcome (s : State) (ra : PAddr) (t : State) : Prop :=
  ∃ hi lo m, PopOutcome s hi m ∧ PopOutcome m lo t ∧ ra = hi ++ lo

/-! ### The interrupt controller (60_exceptions.md R430 to R434) -/

/-- Whether a level's slot is occupied. -/
def occupied (s : State) (l : Level) : Bool := (s.slot.get l).isSome

/-- The number of a level: LOW 0, HIGH 1, HIGHEST 2 (R422). -/
def levelNumber : Level → Nat
  | .low => 0
  | .high => 1
  | .highest => 2

/-- The level a request of a source has, read from IE and IP (R423); none when it is not admissible. -/
def levelOf (s : State) (x : IrqSource) : Option Level :=
  if x = .int0 ∨ x = .int1 then
    if (s.sfr.read 8).getLsbD 1 = false ∧ (s.sfr.read 8).getLsbD 0 = false then some .highest
    else if (s.sfr.read 8).getLsbD 7 then some .low else none
  else if (s.sfr.read 8).getLsbD 7 = false then none
  else if (s.sfr.read 9).getLsbD (x.index - 2) then some .high else some .low

/-- A pending request of level `l` (R430). -/
def candidate (s : State) (l : Level) (x : IrqSource) : Prop :=
  s.pending.getLsbD x.index = true ∧ levelOf s x = some l

/-- A level above every occupied slot: "nested interrupts only escalate" (R430). -/
def permitted (s : State) (l : Level) : Prop := ∀ k, occupied s k = true → levelNumber k < levelNumber l

/-- The place of a level in the scan: with a slot occupied from HIGHEST down, otherwise `(prev - 1) mod 3`,
`(prev - 2) mod 3`, `prev` (R430). -/
def scanPlace (s : State) (l : Level) : Nat :=
  if occupied s .low || occupied s .high || occupied s .highest then 2 - levelNumber l
  else (levelNumber s.prevLevel + 2 - levelNumber l) % 3

/-- The place of a source in the round robin of a level: the table's order, starting just after the source last
dispatched there (R431). -/
def turn (s : State) (l : Level) (x : IrqSource) : Nat :=
  match s.rrLast.get l with
  | none => x.index
  | some y => (x.index + 9 - y.index) % 10

/-- The boundary step has to admit `x` at level `l`: the first permitted level of the scan that has a candidate, and
the candidate whose turn is first (R430, R431). -/
structure Admits (s : State) (l : Level) (x : IrqSource) : Prop where
  permitted : permitted s l
  candidate : candidate s l x
  first : ∀ k y, Safety.permitted s k → Safety.candidate s k y → scanPlace s l ≤ scanPlace s k
  next : ∀ y, Safety.candidate s l y → turn s l x ≤ turn s l y

/-- `t` is the state after `Dispatch(x, l)` at `s` (R432). The bound of the two pushes is decision D20, their direct
stores are D47, the cleared HALT and `suppress` are D11 and D10. That an overflow is logged with the address `ipc` is the
model's choice (log entry 9). -/
structure DispatchOutcome (s : State) (x : IrqSource) (l : Level) (t : State) : Prop where
  pc : t.pc = x.vector
  pending : ∀ k, t.pending.getLsbD k = (s.pending.getLsbD k && decide (k ≠ x.index))
  slot : ∀ k, t.slot.get k = if k = l then some x else s.slot.get k
  rrLast : ∀ k, t.rrLast.get k = if k = l then some x else s.rrLast.get k
  suppress : t.suppress = true
  prevLevel : t.prevLevel = s.prevLevel
  sp : t.sfr.read 6 = s.sfr.read 6 + 2
  low : t.ram.read (s.sfr.read 6 + 1).toNat = BitVec.ofNat 8 s.pc.toNat
  high : t.ram.read (s.sfr.read 6 + 2).toNat = BitVec.ofNat 8 (s.pc.toNat / 256)
  ram : KeepsRam [(s.sfr.read 6 + 1).toNat, (s.sfr.read 6 + 2).toNat] s t
  halt : t.sfr.read 7 = s.sfr.read 7 &&& 0xFE
  regs : KeepsRegs [6, 7] s t
  xram : KeepsXram s t
  wram : KeepsWram s t
  rom : KeepsRom s t
  flash : KeepsFlash s t
  /-- at most one of the two pushes overflows (R402); its logged address is log entry 9 -/
  errorLog : t.errorLog = s.errorLog ++
    if s.sfr.read 6 = 0xFF then [⟨.stackOverflow, 0, BitVec.ofNat 8 s.pc.toNat, s.ipc⟩]
    else if s.sfr.read 6 = 0xFE then [⟨.stackOverflow, 0, BitVec.ofNat 8 (s.pc.toNat / 256), s.ipc⟩] else []
  faultReport : t.faultReport = s.faultReport
  banks : KeepsBanks s t
  misc : KeepsMisc s t
  eventLog : t.eventLog = s.eventLog
  draws : t.draws = s.draws

/-! ### The invariant -/

/-- What every step keeps: the arrays are in canonical form and inside their bounds (10_state.md R42), the program source is the
one EXT selects (R34, R43), the flash counter is that of the budget and zero outside programming (R46), and an
occupied slot holds the source last dispatched at its level (R45). -/
structure Inv (s : State) : Prop where
  ram : s.ram.wf 512
  sfr : s.sfr.wf 128
  xram : s.xram.wf 384
  wram : s.wram.wf 512
  rom : s.rom.wf 65536
  flash : s.flash.wf 131072
  source : s.progSrc = if (s.sfr.read 0x0D).getLsbD 0 then .flash else .rom
  count : s.fcount < 128
  locked : s.fstate ≠ .prog → s.fcount = 0
  slots : ∀ l, s.slot.get l ≠ none → s.rrLast.get l = s.slot.get l

end Sys2Proof.Safety
end

