-- ==== Sys2Proof/Certificates/Slice0/Obligations.lean ====
section
/-! DEFINITION. The statements for the provers, one definition each. `s.sfr.read k` is the register of data address
0x100 + k; the outcome structures are those of Safety.lean. An `exec` runs after fetch has advanced pc
(30_encoding.md R140), so `s.pc` is `pc_next` in every statement about `exec`. "Decision Dn" names a sentence the spec
marks as its own reading (92_eei_decisions.md, log entry 15): a clause that rests on one is not its source's. -/

open Sys2Proof Sys2Proof.Machine Sys2Proof.Safety

/-! ### Encoding -/

/-- Decoding what was encoded gives the instruction back and leaves the bytes after it. -/
def Obligations.DecodeOfEncodeIsTheInstruction : Prop :=
  ∀ (i : Instr) (rest : List Byte), decode (encode i ++ rest) = .ok (i, rest)

/-- A byte sequence has one meaning: encoding what was decoded gives the bytes back. -/
def Obligations.EncodeOfDecodeIsTheBytes : Prop :=
  ∀ (bytes : List Byte) (i : Instr) (rest : List Byte), decode bytes = .ok (i, rest) → encode i ++ rest = bytes

/-- R145, R142: every opcode byte matches exactly one row, and the row found is that row. -/
def Obligations.EveryOpcodeByteMatchesOneRow : Prop :=
  ∀ op : Byte, (opcodeTable.filter fun r => op &&& r.mask == r.bits).length = 1 ∧ (rowOf op).isSome = true

/-- Bytes written out by hand from R131 to R143, at least one of every format, decode to their instructions. -/
def Obligations.WrittenOutWordsDecode : Prop :=
  decode [0x81, 0x13] = .ok (.addImm 0x13, []) ∧
  decode [0x97] = .ok (.addcInd 3, []) ∧
  decode [0xA3, 0x02] = .ok (.subDir 0x102, []) ∧
  decode [0x23, 0x06, 0x7F] = .ok (.movDir 0x7F 0x106, []) ∧
  decode [0x26, 0x02] = .ok (.movInd 0x02 2, []) ∧
  decode [0x01, 0xFE] = .ok (.br 0xFE, []) ∧
  decode [0x11, 0x00, 0x10] = .ok (.brf 0x1000, []) ∧
  decode [0x3D, 0x67] = .ok (.jmp 0xD67, []) ∧
  decode [0x21, 0xAB, 0xCD] = .ok (.jmpf 0xABCD, []) ∧
  decode [0x1D, 0x67] = .ok (.call 0xD67, []) ∧
  decode [0xEB, 0x20] = .ok (.set1 0x020 3, []) ∧
  decode [0xDF, 0x4C] = .ok (.clr1 0x14C 7, []) ∧
  decode [0x5B, 0x01, 0x05] = .ok (.bpc 0x101 3 0x05, []) ∧
  decode [0x34, 0x06, 0x10] = .ok (.beInd 0 0x06 0x10, []) ∧
  decode [0x31, 0x10, 0x20] = .ok (.beImm 0x10 0x20, []) ∧
  decode [0x55, 0x10] = .ok (.dbnzInd 1 0x10, []) ∧
  decode [0x52, 0x10, 0xFB] = .ok (.dbnzDir 0x010 0xFB, []) ∧
  decode [0x61, 0x00] = .ok (.push 0x100, []) ∧
  decode [0xB0] = .ok (.reti, []) ∧
  decode [0x51] = .ok (.stf, [])

/-- R142: the bit pattern of every encoding and its cycle cost, for the formats of one byte and of two. -/
def Obligations.ShortEncodingsAreTheMapPatterns : Prop :=
  (∀ p ∈ ([(.nop, 0x00, 1), (.mul, 0x30, 7), (.div, 0x40, 7), (.ldf, 0x50, 2), (.stf, 0x51, 2), (.ret, 0xA0, 2),
      (.reti, 0xB0, 2), (.ror, 0xC0, 1), (.ldc, 0xC1, 2), (.rorc, 0xD0, 1), (.rol, 0xE0, 1), (.rolc, 0xF0, 1)] :
      List (Instr × Byte × Nat)),
    encode p.1 = [p.2.1] ∧ (rowOf p.2.1).map Row.cycles = some p.2.2) ∧
  (∀ p ∈ ([(.ldInd, 0x01), (.stInd, 0x05), (.incInd, 0x19), (.decInd, 0x1D), (.addInd, 0x21), (.addcInd, 0x25),
      (.subInd, 0x29), (.subcInd, 0x2D), (.xchInd, 0x31), (.orInd, 0x35), (.andInd, 0x39), (.xorInd, 0x3D)] :
      List ((PtrNum → Instr) × BitVec 6)), ∀ j : PtrNum,
    encode (p.1 j) = [p.2 ++ j] ∧ (rowOf (p.2 ++ j)).map Row.cycles = some 1) ∧
  (∀ p ∈ ([(.br, 0x01, 2), (.bz, 0x80, 2), (.bnz, 0x90, 2), (.addImm, 0x81, 1), (.addcImm, 0x91, 1),
      (.subImm, 0xA1, 1), (.subcImm, 0xB1, 1), (.orImm, 0xD1, 1), (.andImm, 0xE1, 1), (.xorImm, 0xF1, 1)] :
      List ((Byte → Instr) × Byte × Nat)), ∀ v : Byte,
    encode (p.1 v) = [p.2.1, v] ∧ (rowOf p.2.1).map Row.cycles = some p.2.2) ∧
  (∀ p ∈ ([(.ldDir, 0x01, 1), (.stDir, 0x09, 1), (.push, 0x30, 2), (.incDir, 0x31, 1), (.pop, 0x38, 2),
      (.decDir, 0x39, 1), (.addDir, 0x41, 1), (.addcDir, 0x49, 1), (.subDir, 0x51, 1), (.subcDir, 0x59, 1),
      (.xchDir, 0x61, 1), (.orDir, 0x69, 1), (.andDir, 0x71, 1), (.xorDir, 0x79, 1)] :
      List ((DAddr → Instr) × BitVec 7 × Nat)), ∀ (h : BitVec 1) (v : Byte),
    encode (p.1 (h ++ v)) = [p.2.1 ++ h, v] ∧ (rowOf (p.2.1 ++ h)).map Row.cycles = some p.2.2) ∧
  (∀ (v : Byte) (j : PtrNum), encode (.movInd v j) = [0x09#6 ++ j, v] ∧
    (rowOf (0x09#6 ++ j)).map Row.cycles = some 1) ∧
  (∀ (j : PtrNum) (v : Byte), encode (.dbnzInd j v) = [0x15#6 ++ j, v] ∧
    (rowOf (0x15#6 ++ j)).map Row.cycles = some 2) ∧
  (∀ p ∈ ([(.call, 0), (.jmp, 1)] : List ((BitVec 12 → Instr) × BitVec 3)),
    ∀ (h : BitVec 1) (m : BitVec 3) (v : Byte),
    encode (p.1 (h ++ m ++ v)) = [p.2 ++ h ++ 1#1 ++ m, v] ∧
      (rowOf (p.2 ++ h ++ 1#1 ++ m)).map Row.cycles = some 2) ∧
  (∀ p ∈ ([(.not1, 5), (.clr1, 6), (.set1, 7)] : List ((DAddr → BitNum → Instr) × BitVec 3)),
    ∀ (h : BitVec 1) (v : Byte) (b : BitNum),
    encode (p.1 (h ++ v) b) = [p.2 ++ h ++ 1#1 ++ b, v] ∧
      (rowOf (p.2 ++ h ++ 1#1 ++ b)).map Row.cycles = some 1)

/-- R142: the bit pattern of every encoding and its cycle cost, for the formats of three bytes. -/
def Obligations.LongEncodingsAreTheMapPatterns : Prop :=
  (∀ (h l : Byte), encode (.callf (h ++ l)) = [0x20, h, l] ∧ encode (.jmpf (h ++ l)) = [0x21, h, l] ∧
    encode (.callr (h ++ l)) = [0x10, l, h] ∧ encode (.brf (h ++ l)) = [0x11, l, h]) ∧
  (∀ (i8 r8 : Byte), encode (.beImm i8 r8) = [0x31, i8, r8] ∧ encode (.bneImm i8 r8) = [0x41, i8, r8]) ∧
  (∀ (h : BitVec 1) (v i8 : Byte), encode (.movDir i8 (h ++ v)) = [0x11#7 ++ h, v, i8]) ∧
  (∀ p ∈ ([(.beDir, 0x19), (.bneDir, 0x21), (.dbnzDir, 0x29)] : List ((DAddr → Byte → Instr) × BitVec 7)),
    ∀ (h : BitVec 1) (v r8 : Byte), encode (p.1 (h ++ v) r8) = [p.2 ++ h, v, r8]) ∧
  (∀ (j : PtrNum) (i8 r8 : Byte), encode (.beInd j i8 r8) = [0x0D#6 ++ j, i8, r8] ∧
    encode (.bneInd j i8 r8) = [0x11#6 ++ j, i8, r8]) ∧
  (∀ p ∈ ([(.bpc, 2), (.bp, 3), (.bn, 4)] : List ((DAddr → BitNum → Byte → Instr) × BitVec 3)),
    ∀ (h : BitVec 1) (v r8 : Byte) (b : BitNum),
    encode (p.1 (h ++ v) b r8) = [p.2 ++ h ++ 1#1 ++ b, v, r8]) ∧
  (∀ i : Instr, (encode i).length = 3 → ((encode i).head?.bind rowOf).map Row.cycles =
    some (match i with
      | .callr _ | .brf _ => 4
      | _ => 2))

/-! ### Arithmetic (40_arith.md) -/

/-- R200, R202, R205: ADD #i8 and ADDC #i8. OV is the spec's reading of its source (decision D50). -/
def Obligations.AddImmediateWritesSumAndFlags : Prop :=
  ∀ (i8 : Byte) (s : State),
    Adds s (s.sfr.read 0) i8 false (exec (.addImm i8) s) ∧
    Adds s (s.sfr.read 0) i8 (carry s) (exec (.addcImm i8) s)

/-- R203, R204, R206, R207: ADD and ADDC of a data byte, direct and indirect. OV rests on decision D50. -/
def Obligations.AddDataWritesSumAndFlags : Prop :=
  (∀ (a : DAddr) (s : State), ∃ b u, ReadOutcome s a b u ∧
    Adds u (s.sfr.read 0) b false (exec (.addDir a) s) ∧
    Adds u (s.sfr.read 0) b (carry s) (exec (.addcDir a) s)) ∧
  (∀ (j : PtrNum) (s : State), ∃ b u, ReadOutcome s (s.indEA j) b u ∧
    Adds u (s.sfr.read 0) b false (exec (.addInd j) s) ∧
    Adds u (s.sfr.read 0) b (carry s) (exec (.addcInd j) s))

/-- R201, R208, R211: SUB #i8 and SUBC #i8. The borrow and overflow tests rest on decisions D22 and D50. -/
def Obligations.SubImmediateWritesDifferenceAndFlags : Prop :=
  ∀ (i8 : Byte) (s : State),
    Subtracts s (s.sfr.read 0) i8 false (exec (.subImm i8) s) ∧
    Subtracts s (s.sfr.read 0) i8 (carry s) (exec (.subcImm i8) s)

/-- R209, R210, R212, R213: SUB and SUBC of a data byte, direct and indirect. The flags rest on decisions D22 and D50. -/
def Obligations.SubDataWritesDifferenceAndFlags : Prop :=
  (∀ (a : DAddr) (s : State), ∃ b u, ReadOutcome s a b u ∧
    Subtracts u (s.sfr.read 0) b false (exec (.subDir a) s) ∧
    Subtracts u (s.sfr.read 0) b (carry s) (exec (.subcDir a) s)) ∧
  (∀ (j : PtrNum) (s : State), ∃ b u, ReadOutcome s (s.indEA j) b u ∧
    Subtracts u (s.sfr.read 0) b false (exec (.subInd j) s) ∧
    Subtracts u (s.sfr.read 0) b (carry s) (exec (.subcInd j) s))

/-- R214 to R217: INC and DEC read the latch (decision D25), write the byte back one more or one less, modulo 256, and
write no flag (decision D28). -/
def Obligations.IncDecWriteBackLatchPlusMinusOne : Prop :=
  (∀ (a : DAddr) (s : State), ∃ v u, LatchOutcome s a v u ∧
    Next (exec (.incDir a) s) (WriteOutcome u a (BitVec.ofNat 8 (v.toNat + 1))) ∧
    Next (exec (.decDir a) s) (WriteOutcome u a (BitVec.ofNat 8 (v.toNat + 255)))) ∧
  (∀ (j : PtrNum) (s : State), ∃ v u, LatchOutcome s (s.indEA j) v u ∧
    Next (exec (.incInd j) s) (WriteOutcome u (s.indEA j) (BitVec.ofNat 8 (v.toNat + 1))) ∧
    Next (exec (.decInd j) s) (WriteOutcome u (s.indEA j) (BitVec.ofNat 8 (v.toNat + 255))))

/-- R218: MUL leaves the product of ACC:C and B in C, ACC and B, low byte first; CY 0, OV for more than 16 bits. The byte
layout rests on decision D46. -/
def Obligations.MulPacksTwentyFourBitProduct : Prop :=
  ∀ s : State,
    let p := (256 * (s.sfr.read 0).toNat + (s.sfr.read 3).toNat) * (s.sfr.read 2).toNat
    Next (exec .mul s) fun t =>
      t.sfr.read 3 = BitVec.ofNat 8 p ∧ t.sfr.read 0 = BitVec.ofNat 8 (p / 256) ∧
      t.sfr.read 2 = BitVec.ofNat 8 (p / 65536) ∧
      (t.sfr.read 1).getLsbD 7 = false ∧ (t.sfr.read 1).getLsbD 2 = decide (0xFFFF < p) ∧
      (pswRead t).getLsbD 0 = decide (popcount (BitVec.ofNat 8 (p / 256)) % 2 = 1) ∧
      t.sfr.read 1 &&& 0x7A = s.sfr.read 1 &&& 0x7A ∧
      RegsOnly [0, 1, 2, 3] s t ∧ t.pc = s.pc ∧
      t.eventLog = s.eventLog ++ [.sinkWrite 0x103 (t.sfr.read 3), .memoryChanged 0x103 (t.sfr.read 3),
        .sinkWrite 0x100 (t.sfr.read 0), .memoryChanged 0x100 (t.sfr.read 0),
        .sinkWrite 0x102 (t.sfr.read 2), .memoryChanged 0x102 (t.sfr.read 2),
        .sinkWrite 0x101 (t.sfr.read 1), .memoryChanged 0x101 (t.sfr.read 1)]

/-- R219: DIV leaves the quotient of ACC:C by B in ACC:C and the remainder in B; division by zero gives 0xFF00 | C and
0; OV exactly when the remainder is 0. CY 0 and the byte layout rest on decisions D24 and D46. -/
def Obligations.DivLeavesQuotientAndRemainder : Prop :=
  ∀ s : State,
    let x := 256 * (s.sfr.read 0).toNat + (s.sfr.read 3).toNat
    let d := (s.sfr.read 2).toNat
    let q := if d = 0 then 0xFF00 + (s.sfr.read 3).toNat else x / d
    let r := if d = 0 then 0 else x % d
    Next (exec .div s) fun t =>
      t.sfr.read 3 = BitVec.ofNat 8 q ∧ t.sfr.read 0 = BitVec.ofNat 8 (q / 256) ∧ t.sfr.read 2 = BitVec.ofNat 8 r ∧
      (t.sfr.read 1).getLsbD 7 = false ∧ (t.sfr.read 1).getLsbD 2 = decide (r = 0) ∧
      (pswRead t).getLsbD 0 = decide (popcount (BitVec.ofNat 8 (q / 256)) % 2 = 1) ∧
      t.sfr.read 1 &&& 0x7A = s.sfr.read 1 &&& 0x7A ∧
      RegsOnly [0, 1, 2, 3] s t ∧ t.pc = s.pc ∧
      t.eventLog = s.eventLog ++ [.sinkWrite 0x103 (t.sfr.read 3), .memoryChanged 0x103 (t.sfr.read 3),
        .sinkWrite 0x100 (t.sfr.read 0), .memoryChanged 0x100 (t.sfr.read 0),
        .sinkWrite 0x102 (t.sfr.read 2), .memoryChanged 0x102 (t.sfr.read 2),
        .sinkWrite 0x101 (t.sfr.read 1), .memoryChanged 0x101 (t.sfr.read 1)]

/-- R220: a MUL by a nonzero B that leaves OV 0 is undone by reloading B (MOV) and DIV: ACC and C come back, B is 0
and OV is 1. -/
def Obligations.DivUndoesMulWithoutOverflow : Prop :=
  ∀ s : State, s.sfr.read 2 ≠ 0 →
    Next (exec .mul s) fun t => (t.sfr.read 1).getLsbD 2 = false →
      t.sfr.read 2 = 0 ∧
      Next (exec (.movDir (s.sfr.read 2) 0x102) t) fun u =>
        Next (exec .div u) fun w =>
          w.sfr.read 0 = s.sfr.read 0 ∧ w.sfr.read 3 = s.sfr.read 3 ∧ w.sfr.read 2 = 0 ∧
            (w.sfr.read 1).getLsbD 2 = true

/-! ### Logic and rotates (41_logic.md) -/

/-- R231, R234, R237: AND, OR and XOR with an immediate write ACC and no flag (decision D28). -/
def Obligations.LogicImmediateWritesAccOnly : Prop :=
  ∀ (i8 : Byte) (s : State),
    Next (exec (.andImm i8) s) (AccOutcome s (s.sfr.read 0 &&& i8)) ∧
    Next (exec (.orImm i8) s) (AccOutcome s (s.sfr.read 0 ||| i8)) ∧
    Next (exec (.xorImm i8) s) (AccOutcome s (s.sfr.read 0 ^^^ i8))

/-- R232, R233, R235, R236, R238, R239: AND, OR and XOR with a data byte, direct and indirect; no flag (decision D28). -/
def Obligations.LogicDataWritesAccOnly : Prop :=
  (∀ (a : DAddr) (s : State), ∃ v u, ReadOutcome s a v u ∧
    Next (exec (.andDir a) s) (AccOutcome u (s.sfr.read 0 &&& v)) ∧
    Next (exec (.orDir a) s) (AccOutcome u (s.sfr.read 0 ||| v)) ∧
    Next (exec (.xorDir a) s) (AccOutcome u (s.sfr.read 0 ^^^ v))) ∧
  (∀ (j : PtrNum) (s : State), ∃ v u, ReadOutcome s (s.indEA j) v u ∧
    Next (exec (.andInd j) s) (AccOutcome u (s.sfr.read 0 &&& v)) ∧
    Next (exec (.orInd j) s) (AccOutcome u (s.sfr.read 0 ||| v)) ∧
    Next (exec (.xorInd j) s) (AccOutcome u (s.sfr.read 0 ^^^ v)))

/-- R240 to R243: the rotates, arithmetically; the carry rotates write ACC first, then CY (decision D49). -/
def Obligations.RotatesMoveBitsAndCarry : Prop :=
  ∀ s : State,
    let a := (s.sfr.read 0).toNat
    let c := (carry s).toNat
    Next (exec .rol s) (AccOutcome s (BitVec.ofNat 8 (2 * a + a / 128))) ∧
    Next (exec .ror s) (AccOutcome s (BitVec.ofNat 8 (a / 2 + 128 * (a % 2)))) ∧
    (Next (exec .rolc s) fun t => ∃ m, AccOutcome s (BitVec.ofNat 8 (2 * a + c)) m ∧
      FlagOutcome m 0x80 (if 128 ≤ a then 0x80 else 0) t) ∧
    (Next (exec .rorc s) fun t => ∃ m, AccOutcome s (BitVec.ofNat 8 (a / 2 + 128 * c)) m ∧
      FlagOutcome m 0x80 (if a % 2 = 1 then 0x80 else 0) t)

/-! ### Data transfer (42_transfer.md) -/

/-- R250, R251: LD loads what the read returns; no flag is written. -/
def Obligations.LoadWritesAccWithReadValue : Prop :=
  (∀ (a : DAddr) (s : State), ∃ v u, ReadOutcome s a v u ∧ Next (exec (.ldDir a) s) (AccOutcome u v)) ∧
  (∀ (j : PtrNum) (s : State), ∃ v u, ReadOutcome s (s.indEA j) v u ∧ Next (exec (.ldInd j) s) (AccOutcome u v))

/-- R252 to R255: ST and MOV are one data write of ACC or of the immediate, with its side effects. The outcome of a write
to EXT and XBNK rests on decisions D15, D16, D33 and D41 (log entries 7 and 15). -/
def Obligations.StoreAndMoveAreOneDataWrite : Prop :=
  (∀ (a : DAddr) (i8 : Byte) (s : State),
    Next (exec (.stDir a) s) (WriteOutcome s a (s.sfr.read 0)) ∧
    Next (exec (.movDir i8 a) s) (WriteOutcome s a i8)) ∧
  (∀ (j : PtrNum) (i8 : Byte) (s : State),
    Next (exec (.stInd j) s) (WriteOutcome s (s.indEA j) (s.sfr.read 0)) ∧
    Next (exec (.movInd i8 j) s) (WriteOutcome s (s.indEA j) i8))

/-- R256, R257: XCH reads the byte, writes the old ACC there, then writes the byte to ACC (order:
decision D27). -/
def Obligations.ExchangeWritesMemoryThenAcc : Prop :=
  (∀ (a : DAddr) (s : State), ∃ v u, ReadOutcome s a v u ∧
    Next (exec (.xchDir a) s) fun t => ∃ m, WriteOutcome u a (s.sfr.read 0) m ∧ AccOutcome m v t) ∧
  (∀ (j : PtrNum) (s : State), ∃ v u, ReadOutcome s (s.indEA j) v u ∧
    Next (exec (.xchInd j) s) fun t => ∃ m, WriteOutcome u (s.indEA j) (s.sfr.read 0) m ∧ AccOutcome m v t)

/-- R260, R106: PUSH reads the byte and pushes it on the stack of RAM bank 0, by direct stores (decision D47), with the
bounds of decision D20. -/
def Obligations.PushStoresAboveStackPointer : Prop :=
  ∀ (a : DAddr) (s : State), ∃ v u, ReadOutcome s a v u ∧ Next (exec (.push a) s) (PushOutcome u v)

/-- R261: POP pops a byte, with the bound of decision D20 and a direct store to SP (decision D47), and writes it to the
operand; the outcome of a write to EXT and XBNK rests on decisions D15, D16, D33 and D41 (log entries 7 and 15). -/
def Obligations.PopWritesPoppedByte : Prop :=
  ∀ (a : DAddr) (s : State), ∃ v u, PopOutcome s v u ∧ Next (exec (.pop a) s) (WriteOutcome u a v)

/-- R107: a push followed by a pop gives the byte and the stack pointer back, whatever SP is (wraps included). Here
PUSH ACC, POP B. -/
def Obligations.PopReturnsPushedByte : Prop :=
  ∀ s : State, Next (exec (.push 0x100) s) fun t => Next (exec (.pop 0x102) t) fun u =>
    u.sfr.read 2 = s.sfr.read 0 ∧ KeepsRegs [2] s u ∧ KeepsRam [(s.sfr.read 6 + 1).toNat] s u ∧ u.pc = s.pc

/-- R270: LDC loads the program byte at TRH:TRL plus ACC, modulo 65536 (decision D42), of the
active source. -/
def Obligations.LdcReadsProgramTable : Prop :=
  ∀ s : State, Next (exec .ldc s) (AccOutcome s (codeByte s
    (BitVec.ofNat 16 (256 * (s.sfr.read 5).toNat + (s.sfr.read 4).toNat + (s.sfr.read 0).toNat))))

/-- R110, R111: the indirect effective address: bit 8 is j[1], bits 7:0 the pointer byte R(4 IRBK + j) of the mapped
RAM bank (decisions D5 and D6). -/
def Obligations.IndirectAddressIsPointerByte : Prop :=
  ∀ (s : State) (j : PtrNum),
    s.indEA j = BitVec.ofNat 9 (256 * (j.toNat / 2) +
      (s.ram.read (256 * ((s.sfr.read 1).getLsbD 1).toNat +
        (4 * ((s.sfr.read 1).toNat / 8 % 4) + j.toNat))).toNat)

/-! ### Bits (43_bit.md) -/

/-- R280 to R282: SET1, CLR1 and NOT1 read the latch and write the whole byte back with one bit changed. The outcome of a
write to EXT and XBNK rests on decisions D15, D16, D33 and D41 (log entries 7 and 15). -/
def Obligations.BitInstructionsRewriteOneBit : Prop :=
  ∀ (a : DAddr) (b : BitNum) (s : State), ∃ v u, LatchOutcome s a v u ∧
    Next (exec (.set1 a b) s) (WriteOutcome u a (v ||| 1#8 <<< b.toNat)) ∧
    Next (exec (.clr1 a b) s) (WriteOutcome u a (v &&& ~~~(1#8 <<< b.toNat))) ∧
    Next (exec (.not1 a b) s) (WriteOutcome u a (v ^^^ 1#8 <<< b.toNat))

/-- R97: a read-modify-write of a write-only register computes from 0xFF, and the byte it stores is not read back:
LD gives 0xFF. -/
def Obligations.WriteOnlyRegistersReadAsOnes : Prop :=
  ∀ (a : DAddr) (b : BitNum) (s : State), a ∈ ([0x120, 0x127, 0x145, 0x146, 0x14D] : List DAddr) →
    (Next (exec (.set1 a b) s) fun t => t.sfr.read (a.toNat - 0x100) = 0xFF) ∧
    (Next (exec (.incDir a) s) fun t => t.sfr.read (a.toNat - 0x100) = 0x00) ∧
    (Next (exec (.decDir a) s) fun t => t.sfr.read (a.toNat - 0x100) = 0xFE ∧
      Next (exec (.ldDir a) t) fun u => u.sfr.read 0 = 0xFF)

/-- R83, R95: with INCE set, LD VTRBF returns the addressed work-RAM byte and moves the address on, from 511 to 0; a
following ST VTRBF stores at the new address and moves it again. -/
def Obligations.WorkRamPortStepsThroughAllBytes : Prop :=
  ∀ s : State, workInc s = true →
    Next (exec (.ldDir 0x166) s) fun t =>
      t.sfr.read 0 = s.wram.read (workIndex s) ∧ workIndex t = (workIndex s + 1) % 512 ∧
      Next (exec (.stDir 0x166) t) fun u =>
        u.wram.read ((workIndex s + 1) % 512) = s.wram.read (workIndex s) ∧
        (∀ k, k ≠ (workIndex s + 1) % 512 → u.wram.read k = s.wram.read k) ∧
        workIndex u = (workIndex s + 2) % 512

/-- R91, R93: after MOV to PSW, addresses below 0x100 reach the RAM bank its bit 1 names; after MOV of a bank number to
XBNK, addresses from 0x180 on reach that XRAM bank, or the one mapped before while the display is blanked
(`displayBlanked` is a free predicate, log entry 7, and blanking is decision D33); neither write changes a byte of RAM or
XRAM, in any bank. -/
def Obligations.BankSwitchesTakeEffectAtOnce : Prop :=
  ∀ (v : Byte) (s : State),
    (Next (exec (.movDir v 0x101) s) fun t => KeepsRam [] s t ∧ KeepsXram s t ∧ ∀ a : DAddr, a.toNat < 0x100 →
      backing t a = s.ram.read (256 * (v.getLsbD 1).toNat + a.toNat)) ∧
    (v.toNat < 3 → Next (exec (.movDir v 0x125) s) fun t => KeepsRam [] s t ∧ KeepsXram s t ∧
      ∀ a : DAddr, 0x180 ≤ a.toNat → backing t a = s.xram.read
        (128 * (if Config.displayBlanked s.sfr then s.xramBank.val else v.toNat) + (a.toNat - 0x180)))

/-! ### Branches and jumps (44_branch.md) -/

/-- R291, R310, R311, R340, R294, R295: BR and the jumps set pc and nothing else, BZ and BNZ do so by a test of ACC, not
of a flag, and NOP changes nothing. -/
def Obligations.PlainTransfersSetPcOnly : Prop :=
  ∀ s : State,
    exec .nop s = .next s ∧
    (∀ r8 : Byte, exec (.br r8) s = .next { s with pc := relTarget s r8 }) ∧
    (∀ a12 : BitVec 12, exec (.jmp a12) s = .next { s with pc := pageTarget s a12 }) ∧
    (∀ a16 : PAddr, exec (.jmpf a16) s = .next { s with pc := a16 }) ∧
    (∀ r8 : Byte, exec (.bz r8) s = .next (if s.sfr.read 0 = 0 then { s with pc := relTarget s r8 } else s)) ∧
    (∀ r8 : Byte, exec (.bnz r8) s = .next (if s.sfr.read 0 = 0 then s else { s with pc := relTarget s r8 }))

/-- R296, R298: BP and BN test a bit of what a plain read returns. -/
def Obligations.BitBranchesTestReadValue : Prop :=
  ∀ (a : DAddr) (b : BitNum) (r8 : Byte) (s : State), ∃ v u, ReadOutcome s a v u ∧
    Next (exec (.bp a b r8) s) (BranchOutcome (v.getLsbD b.toNat = true) (relTarget s r8) u) ∧
    Next (exec (.bn a b r8) s) (BranchOutcome (v.getLsbD b.toNat = false) (relTarget s r8) u)

/-- R297: BPC tests a bit of the latch; set, the byte is written with the bit clear and the branch is taken; clear,
nothing is written (decision D26). -/
def Obligations.BpcClearsTheBitItBranchesOn : Prop :=
  ∀ (a : DAddr) (b : BitNum) (r8 : Byte) (s : State), ∃ v u, LatchOutcome s a v u ∧
    Next (exec (.bpc a b r8) s) fun t =>
      if v.getLsbD b.toNat then
        ∃ m, WriteOutcome u a (v &&& ~~~(1#8 <<< b.toNat)) m ∧ t = { m with pc := relTarget s r8 }
      else t = u

/-- R300, R301: DBNZ writes back the latch (decision D25) less one and branches unless the result is 0; no flag
(decision D28). -/
def Obligations.DbnzDecrementsAndBranches : Prop :=
  (∀ (a : DAddr) (r8 : Byte) (s : State), ∃ v u, LatchOutcome s a v u ∧
    Next (exec (.dbnzDir a r8) s) fun t => ∃ m, WriteOutcome u a (BitVec.ofNat 8 (v.toNat + 255)) m ∧
      BranchOutcome (v ≠ 1) (relTarget s r8) m t) ∧
  (∀ (j : PtrNum) (r8 : Byte) (s : State), ∃ v u, LatchOutcome s (s.indEA j) v u ∧
    Next (exec (.dbnzInd j r8) s) fun t => ∃ m, WriteOutcome u (s.indEA j) (BitVec.ofNat 8 (v.toNat + 255)) m ∧
      BranchOutcome (v ≠ 1) (relTarget s r8) m t)

/-- R302, R305: BE and BNE of ACC and an immediate. CY alone is written (decision D23). -/
def Obligations.CompareImmediateBranches : Prop :=
  ∀ (i8 r8 : Byte) (s : State),
    Next (exec (.beImm i8 r8) s)
      (CompareOutcome s (s.sfr.read 0) i8 (s.sfr.read 0 = i8) (relTarget s r8)) ∧
    Next (exec (.bneImm i8 r8) s)
      (CompareOutcome s (s.sfr.read 0) i8 (s.sfr.read 0 ≠ i8) (relTarget s r8))

/-- R303, R304, R306, R307: BE and BNE of ACC and a data byte, and of an indirect byte and an immediate.
CY alone is written (decision D23). -/
def Obligations.CompareDataBranches : Prop :=
  (∀ (a : DAddr) (r8 : Byte) (s : State), ∃ b u, ReadOutcome s a b u ∧
    Next (exec (.beDir a r8) s)
      (CompareOutcome u (s.sfr.read 0) b (s.sfr.read 0 = b) (relTarget s r8)) ∧
    Next (exec (.bneDir a r8) s)
      (CompareOutcome u (s.sfr.read 0) b (s.sfr.read 0 ≠ b) (relTarget s r8))) ∧
  (∀ (j : PtrNum) (i8 r8 : Byte) (s : State), ∃ a u, ReadOutcome s (s.indEA j) a u ∧
    Next (exec (.beInd j i8 r8) s) (CompareOutcome u a i8 (a = i8) (relTarget s r8)) ∧
    Next (exec (.bneInd j i8 r8) s) (CompareOutcome u a i8 (a ≠ i8) (relTarget s r8)))

/-! ### Subroutines (45_subroutine.md) -/

/-- R320, R321: CALL and CALLF push `pc_next`, low byte first (decision D51), with the bound of decision D20 and direct
stores (decision D47), and go to their target. -/
def Obligations.CallsPushReturnAddress : Prop :=
  ∀ s : State,
    (∀ a12 : BitVec 12, Next (exec (.call a12) s) fun t =>
      ∃ m, PushPCOutcome s s.pc m ∧ t = { m with pc := pageTarget s a12 }) ∧
    (∀ a16 : PAddr, Next (exec (.callf a16) s) fun t => ∃ m, PushPCOutcome s s.pc m ∧ t = { m with pc := a16 })

/-- R292, R322 with `REL16_BIAS` at its default 0 (decision D4, log entry 5): BRF and CALLR go to `pc_next` plus the
displacement, modulo 65536; CALLR pushes `pc_next` first. -/
def Obligations.LongRelativeTransfersAddToPc : Prop :=
  ∀ (r16 : BitVec 16) (s : State),
    exec (.brf r16) s = .next { s with pc := rel16Target s r16 } ∧
    Next (exec (.callr r16) s) fun t => ∃ m, PushPCOutcome s s.pc m ∧ t = { m with pc := rel16Target s r16 }

/-- R323: RET pops pc, high byte first (decision D51), with the bound of decision D20 and a direct store to SP (decision
D47), and does not touch the interrupt controller. -/
def Obligations.RetPopsReturnAddress : Prop :=
  ∀ s : State, Next (exec .ret s) fun t => ∃ ra u, PopPCOutcome s ra u ∧ t = { u with pc := ra }

/-- R324, R434: RETI pops pc, vacates the highest occupied slot and records its level; with no slot occupied it is a
RET (decision D9). -/
def Obligations.RetiVacatesInnermostSlot : Prop :=
  ∀ s : State, Next (exec .reti s) fun t => ∃ ra u, PopPCOutcome s ra u ∧
    if s.slot.highest ≠ none then
      t = { u with pc := ra, slot := { s.slot with highest := none }, prevLevel := .highest }
    else if s.slot.high ≠ none then
      t = { u with pc := ra, slot := { s.slot with high := none }, prevLevel := .high }
    else if s.slot.low ≠ none then
      t = { u with pc := ra, slot := { s.slot with low := none }, prevLevel := .low }
    else t = { u with pc := ra }

/-- R325 with R323: RET after CALLF comes back to `pc_next` with SP, every other register and every byte of memory but
the two stack bytes as before the call, whatever SP is. -/
def Obligations.RetUndoesCall : Prop :=
  ∀ (a16 : PAddr) (s : State), Next (exec (.callf a16) s) fun t => t.pc = a16 ∧ Next (exec .ret t) fun u =>
    u.pc = s.pc ∧ KeepsRegs [] s u ∧
    KeepsRam [(s.sfr.read 6 + 1).toNat, (s.sfr.read 6 + 2).toNat] s u ∧ KeepsXram s u ∧ KeepsWram s u ∧
    KeepsRom s u ∧ KeepsFlash s u ∧ KeepsPic s u

/-! ### Flash (46_system.md) -/

/-- R342, R343: LDF loads the flash byte at FPR.ADDR, TRH, TRL. -/
def Obligations.LdfReadsFlash : Prop :=
  ∀ s : State, Next (exec .ldf s) (AccOutcome s (s.flash.read
    (65536 * ((s.sfr.read 0x54).toNat % 2) + 256 * (s.sfr.read 5).toNat + (s.sfr.read 4).toNat)))

/-- R344, R345: STF is one step of the flash-programming state machine. While programming, an unaligned first byte is
rejected, any other stores ACC at the flash address and counts, and the 128th locks the machine again. Otherwise, with
FPR.UNLOCK set, TRH:TRL and ACC are held against the expected pair of the handshake; with it clear, the STF is
rejected. A rejected STF logs the error of R346 and writes no flash byte. The unlock pairs,
the alignment and the mismatch rule rest on decisions D29 and D30. -/
def Obligations.StfRunsTheFlashStateMachine : Prop :=
  ∀ s : State,
    let f := 65536 * ((s.sfr.read 0x54).toNat % 2) + 256 * (s.sfr.read 5).toNat + (s.sfr.read 4).toNat
    let pair := (256 * (s.sfr.read 5).toNat + (s.sfr.read 4).toNat, (s.sfr.read 0).toNat)
    let expected := if s.fstate = .s0 then (0x5555, 0xAA) else if s.fstate = .s1 then (0x2AAA, 0x55) else (0x5555, 0xA0)
    let log := s.errorLog ++ [⟨.flashProgramSequenceError, f, s.sfr.read 0, s.ipc⟩]
    Next (exec .stf s) fun t =>
      if s.fstate = .prog then
        if s.fcount = 0 ∧ (s.sfr.read 4).toNat % 128 ≠ 0 then
          t = { s with errorLog := log, fstate := .s0, fcount := 0 }
        else
          (∀ k, t.flash.read k = if k = f then s.sfr.read 0 else s.flash.read k) ∧
          t = { s with
            flash := t.flash
            fstate := if s.fcount = 127 then .s0 else .prog
            fcount := if s.fcount = 127 then 0 else s.fcount + 1 }
      else if (s.sfr.read 0x54).getLsbD 1 = false then
        t = { s with errorLog := log, fstate := .s0, fcount := 0 }
      else if pair = expected then
        t = { s with
          fstate := if s.fstate = .s0 then .s1 else if s.fstate = .s1 then .s2 else .prog
          fcount := 0 }
      else t = { s with errorLog := log, fstate := if pair = (0x5555, 0xAA) then .s1 else .s0 }

/-- R123, R347: no step writes the mask ROM, and a step that changes a flash byte is an STF while programming. -/
def Obligations.OnlyProgrammingStfChangesFlash : Prop :=
  (∀ (s t : State), step s = .next t → KeepsRom s t) ∧
  (∀ (s t : State), step s = .next t → ¬KeepsFlash s t → s.fstate = .prog ∧ codeByte s s.pc = 0x51) ∧
  (∀ (i : Instr) (s t : State), exec i s = .next t → ¬KeepsFlash s t → i = .stf ∧ s.fstate = .prog)

/-! ### The step and the interrupt controller (60_exceptions.md) -/

/-- R401: no step stops. -/
def Obligations.EveryStepAnswersNext : Prop := ∀ s : State, ∃ t, step s = .next t

/-- R140, R441: outside HALT, a step runs the instruction the bytes at pc decode to: `ipc` is its address, pc is past
it, and after it come its cycle cost, the requests of this step and the boundary step. -/
def Obligations.StepRunsTheDecodedInstruction : Prop :=
  ∀ (s : State) (i : Instr) (rest : List Byte), (s.sfr.read 7).getLsbD 0 = false → i.wellFormed = true →
    decode [codeByte s s.pc, codeByte s (s.pc + 1), codeByte s (s.pc + 2)] = .ok (i, rest) →
    ∃ t cycles, (rowOf (codeByte s s.pc)).map Row.cycles = some cycles ∧
      exec i { s with
        faultReport := none
        ipc := s.pc
        pc := s.pc + BitVec.ofNat 16 (encode i).length } = .next t ∧
      step s = .next ({ t with lastCycles := cycles }.takeArrivals.boundary)

/-- R440, R441: with HALT set a step fetches nothing; the requests of the step and the boundary step still happen.
An idle step as such is decision D11. The address an interrupt entry's stack overflow would be logged with is the
model's free value (log entry 9). -/
def Obligations.HaltedStepExecutesNothing : Prop :=
  ∀ s : State, (s.sfr.read 7).getLsbD 0 = true →
    step s = .next ({ s with
      faultReport := none
      ipc := Config.idleErrorPc s.draws
      draws := s.draws + 1
      lastCycles := 1 }.takeArrivals.boundary)

/-- R440: a halted CPU for which no request arrives and none is admissible idles: nothing but `lastCycles`, the
suppression flag and the model's own fields changes (decision D11). -/
def Obligations.HaltedWithoutRequestStaysHalted : Prop :=
  ∀ s : State, (s.sfr.read 7).getLsbD 0 = true → (s.arrivals = [] ∨ s.arrivals.head? = some []) →
    (∀ l x, permitted s l → ¬candidate s l x) →
    Next (step s) fun t => t = { s with
      lastCycles := 1
      suppress := false
      ipc := t.ipc
      draws := t.draws
      arrivals := s.arrivals.tail
      faultReport := none }

/-- R430 to R432 with R423: the boundary step. Suppressed, it only clears the flag; otherwise it dispatches exactly the
request the scan and the round robin choose, and without one it changes nothing. Rests on
decisions D7, D10, D11, D12 and D13; the entry's stack bound and direct stores on D20 and D47 (log entries 4 and 15). The
address an overflow at the entry is logged with, `ipc`, is the model's choice (log entry 9). -/
def Obligations.BoundaryDispatchesTheChosenRequest : Prop :=
  ∀ s : State,
    (s.suppress = true → s.boundary = { s with suppress := false }) ∧
    (s.suppress = false → ∀ l x, Admits s l x → DispatchOutcome s x l s.boundary) ∧
    (s.suppress = false → (∀ l x, permitted s l → ¬candidate s l x) → s.boundary = s) ∧
    ((∃ l x, permitted s l ∧ candidate s l x) → ∃ l x, Admits s l x)

/-- R435: the return from a dispatched handler comes back to the pc of the dispatch, with SP, the slots and every
register but HALT as before it. -/
def Obligations.RetiUndoesDispatch : Prop :=
  ∀ (s : State) (l : Level) (x : IrqSource), s.suppress = false → Admits s l x →
    Next (exec .reti s.boundary) fun t =>
      t.pc = s.pc ∧ t.sfr.read 6 = s.sfr.read 6 ∧ KeepsRegs [7] s t ∧ t.slot = s.slot ∧ t.prevLevel = l ∧
      t.rrLast.get l = some x

/-- R431, R435: two sources of one level alternate: while another request of the level waits, the source last
dispatched there is not dispatched there again. -/
def Obligations.SameLevelSourcesAlternate : Prop :=
  ∀ (s : State) (l : Level) (a b : IrqSource), s.suppress = false → s.rrLast.get l = some a → b ≠ a →
    candidate s l b → s.slot.get l = none → s.boundary.slot.get l ≠ none → s.boundary.slot.get l ≠ some a

/-- R420: the index, the vector and the IP bit of every interrupt source (decision D13, log entry 4). -/
def Obligations.InterruptTableIsTheSpecTable : Prop :=
  irqTable.map (fun x => (x, x.index, x.vector, x.ipBit)) =
    [(.int0, 0, 0x0003, none), (.int1, 1, 0x000B, none), (.int2T0l, 2, 0x0013, some 0), (.int3Bt, 3, 0x001B, some 1),
     (.t0h, 4, 0x0023, some 2), (.t1, 5, 0x002B, some 3), (.sio0, 6, 0x0033, some 4), (.sio1, 7, 0x003B, some 5),
     (.rfb, 8, 0x0043, some 6), (.p3, 9, 0x004B, some 7)]

/-- R421, R441: a request raised between steps, or arriving in a step, becomes pending; nothing else changes. -/
def Obligations.RaisedRequestsBecomePending : Prop :=
  (∀ (s : State) (x : IrqSource),
    s.raiseIrq x = { s with pending := (s.raiseIrq x).pending } ∧
    ∀ y : IrqSource, (s.raiseIrq x).pending.getLsbD y.index = (s.pending.getLsbD y.index || decide (y = x))) ∧
  (∀ (s : State) (now : List IrqSource) (later : List (List IrqSource)), s.arrivals = now :: later →
    s.takeArrivals = { s with arrivals := later, pending := s.takeArrivals.pending } ∧
    ∀ y : IrqSource, s.takeArrivals.pending.getLsbD y.index = (s.pending.getLsbD y.index || decide (y ∈ now)))

/-- The instructions' reach into hidden state (10_state.md R43 to R46, 60_exceptions.md R403): only RETI changes the
interrupt controller and it changes no pending bit, no `suppress` and no `rrLast`; only STF changes the
flash-programming state; none changes the cycle output. -/
def Obligations.HiddenStateChangesOnlyByItsInstruction : Prop :=
  ∀ (i : Instr) (s t : State), exec i s = .next t →
    (i ≠ .reti → KeepsPic s t) ∧
    (t.pending = s.pending ∧ t.suppress = s.suppress ∧ t.rrLast = s.rrLast) ∧
    (i ≠ .stf → t.fstate = s.fstate ∧ t.fcount = s.fcount) ∧
    (t.lastCycles = s.lastCycles ∧ t.ipc = s.ipc ∧ t.arrivals = s.arrivals)

/-- R47: entries are appended to the error log and never removed, by any step. -/
def Obligations.ErrorLogOnlyGrows : Prop :=
  ∀ s t : State, step s = .next t → ∃ new, t.errorLog = s.errorLog ++ new

/-! ### Reset and the host (70_reset_and_hazards.md, 60_exceptions.md) -/

/-- R500, R501: what power-on leaves, where the spec gives a value; what it leaves OPEN (log entries 2 and 3) and the
two logs are not part of this statement. -/
def Obligations.PowerOnLeavesTheStatedValues : Prop :=
  State.reset.pc = 0 ∧ State.reset.progSrc = .rom ∧ State.reset.xramBank = 0 ∧ State.reset.pending = 0 ∧
  (∀ l, State.reset.slot.get l = none ∧ State.reset.rrLast.get l = none) ∧ State.reset.prevLevel = .low ∧
  State.reset.suppress = false ∧ State.reset.fstate = .s0 ∧ State.reset.fcount = 0 ∧ State.reset.lastCycles = 0 ∧
  State.reset.eventLog = [] ∧
  (State.reset.sfr.read 0x0D).getLsbD 0 = false ∧ State.reset.sfr.read 0x25 = 0 ∧
  (State.reset.sfr.read 7).getLsbD 0 = false

/-- R500, R501: a reset between steps, with the contents the spec leaves OPEN given as `d`: ROM, flash and the error
log stay, everything else is as the spec sets it, and the next step fetches. The invariant holds whenever the drawn
arrays are in the model's canonical form. -/
def Obligations.WarmResetSetsTheWholeState : Prop :=
  ∀ (s : State) (d : ResetDraw), d.allowed →
    let t := s.warmReset d
    t.pc = 0 ∧ t.sfr = d.sfr ∧ t.ram = d.ram ∧ t.xram = d.xram ∧ t.wram = d.wram ∧ t.rom = s.rom ∧
    t.flash = s.flash ∧ t.progSrc = .rom ∧ t.xramBank = 0 ∧ t.pending = 0 ∧ t.slot = ⟨none, none, none⟩ ∧
    t.prevLevel = .low ∧ t.suppress = false ∧ t.rrLast = ⟨none, none, none⟩ ∧ t.fstate = .s0 ∧ t.fcount = 0 ∧
    t.lastCycles = 0 ∧ t.eventLog = [] ∧ t.errorLog = s.errorLog ∧ (t.sfr.read 7).getLsbD 0 = false ∧
    (s.rom.wf 65536 → s.flash.wf 131072 → d.sfr.wf 128 → d.ram.wf 512 → d.xram.wf 384 → d.wram.wf 512 → Inv t)

/-- The invariant holds after power-on. -/
def Obligations.InvariantHoldsAtReset : Prop := Inv State.reset

/-- Every step keeps the invariant: the arrays stay canonical and in bounds (R42), the program source stays the one
EXT selects (R34, R43), the flash counter stays below the budget and zero outside programming (R46), and an occupied
slot holds the source last dispatched at its level (R45). -/
def Obligations.StepKeepsInvariant : Prop :=
  ∀ s t : State, Inv s → step s = .next t → Inv t

/-- R459: the host's pc hook. -/
def Obligations.SetPcSetsPcAndLogsIt : Prop :=
  ∀ (s : State) (v : Nat), s.getPC = s.pc ∧
    s.setPC v = { s with
      pc := BitVec.ofNat 16 (v % 65536)
      eventLog := s.eventLog ++ [.pcChanged s.pc (BitVec.ofNat 16 (v % 65536))] }

/-- R80, R86, R88 (b), R460: a host access above 0x1FF stores nothing, and records and reports `OutOfRange` with the
current pc; it changes no memory and no register, and only a read draws a free value (log entry 11). A host access inside
the space is the same access an instruction makes. -/
def Obligations.HostAccessIsBoundsChecked : Prop :=
  (∀ (s : State) (a : Nat) (v : Byte), 0x1FF < a →
    s.hostWrite a v = { s with
      ipc := s.pc, faultReport := some .outOfRange, errorLog := s.errorLog ++ [⟨.outOfRange, a, v, s.pc⟩] } ∧
    ∀ t ∈ [(s.hostRead a).2, (s.hostReadLatch a).2], KeepsMemory s t ∧ KeepsRegs [] s t ∧
      t = { s with
        ipc := s.pc
        faultReport := some .outOfRange
        errorLog := s.errorLog ++ [⟨.outOfRange, a, 0, s.pc⟩]
        draws := s.draws + 1 }) ∧
  (∀ (s : State) (a : DAddr) (v : Byte),
    ReadOutcome { s with ipc := s.pc, faultReport := none } a (s.hostRead a.toNat).1 (s.hostRead a.toNat).2 ∧
    LatchOutcome { s with ipc := s.pc, faultReport := none } a (s.hostReadLatch a.toNat).1
      (s.hostReadLatch a.toNat).2 ∧
    WriteOutcome { s with ipc := s.pc, faultReport := none } a v (s.hostWrite a.toNat v))
end

