-- ==== Sys2Proof/Laws/Memory.lean ====
section
/-! SUPPORT. The laws of the byte arrays: read after write, and that every operation keeps the canonical form. -/

namespace Sys2Proof.Machine

@[simp] theorem Memory.read_nil (a : Nat) : Memory.read [] a = Config.unlistedByte := rfl

theorem Memory.read_cons (k : Nat) (v : Byte) (m : Memory) (a : Nat) :
    Memory.read ((k, v) :: m) a = if k = a then v else Memory.read m a := rfl

theorem Memory.read_erase_self (m : Memory) (a : Nat) : (m.erase a).read a = Config.unlistedByte := by
  induction m with
  | nil => rfl
  | cons c m ih =>
    obtain ⟨k, v⟩ := c
    unfold Memory.erase at ih ⊢
    by_cases h : k = a
    · simpa [h] using ih
    · simpa [h, Memory.read_cons] using ih

theorem Memory.read_erase_other (m : Memory) {a k : Nat} (h : k ≠ a) : (m.erase a).read k = m.read k := by
  induction m with
  | nil => rfl
  | cons c m ih =>
    obtain ⟨j, v⟩ := c
    unfold Memory.erase at ih ⊢
    by_cases hj : j = a
    · subst hj
      simpa [Memory.read_cons, Ne.symm h] using ih
    · simp only [List.filter_cons, bne_iff_ne, ne_eq, hj, not_false_eq_true, ↓reduceIte, Memory.read_cons]
      rw [ih]

theorem Memory.read_insert_other (m : Memory) {a k : Nat} (v : Byte) (h : k ≠ a) :
    (m.insert a v).read k = m.read k := by
  induction m with
  | nil => simp [Memory.insert, Memory.read_cons, Ne.symm h]
  | cons c m ih =>
    obtain ⟨j, w⟩ := c
    unfold Memory.insert
    split
    · simp [Memory.read_cons, Ne.symm h]
    · simp only [Memory.read_cons, ih]

theorem Memory.read_insert_self (m : Memory) (a : Nat) (v : Byte) (h : ∀ c ∈ m, c.1 ≠ a) :
    (m.insert a v).read a = v := by
  induction m with
  | nil => simp [Memory.insert, Memory.read_cons]
  | cons c m ih =>
    obtain ⟨j, w⟩ := c
    unfold Memory.insert
    have hj : j ≠ a := h (j, w) (by simp)
    split
    · simp [Memory.read_cons]
    · rw [Memory.read_cons, if_neg hj]
      exact ih fun c hc => h c (by simp [hc])

theorem Memory.erase_not_mem (m : Memory) (a : Nat) : ∀ c ∈ m.erase a, c.1 ≠ a := by
  intro c hc
  simpa using (List.mem_filter.mp hc).2

/-- A read after a write to the same index gives the byte written. -/
@[simp] theorem Memory.read_write_self (m : Memory) (a : Nat) (v : Byte) : (m.write a v).read a = v := by
  unfold Memory.write
  split
  · next h => rw [h, Memory.read_erase_self]
  · exact Memory.read_insert_self _ _ _ (Memory.erase_not_mem m a)

/-- A write leaves every other index alone. -/
theorem Memory.read_write_other (m : Memory) {a k : Nat} (v : Byte) (h : k ≠ a) :
    (m.write a v).read k = m.read k := by
  unfold Memory.write
  split
  · exact Memory.read_erase_other m h
  · rw [Memory.read_insert_other _ v h, Memory.read_erase_other m h]

theorem Memory.read_write (m : Memory) (a k : Nat) (v : Byte) :
    (m.write a v).read k = if k = a then v else m.read k := by
  split
  · next h => rw [h, Memory.read_write_self]
  · next h => exact Memory.read_write_other m v h

theorem Memory.mem_insert (m : Memory) (a : Nat) (v : Byte) (c : Host.Cell) :
    c ∈ m.insert a v ↔ c = (a, v) ∨ c ∈ m := by
  induction m with
  | nil => simp [Memory.insert]
  | cons d m ih =>
    obtain ⟨j, w⟩ := d
    unfold Memory.insert
    split
    · simp
    · simp only [List.mem_cons, ih]
      tauto

theorem Memory.insert_sorted (m : Memory) (a : Nat) (v : Byte) (hs : m.Pairwise fun c d => c.1 < d.1)
    (ha : ∀ c ∈ m, c.1 ≠ a) : (m.insert a v).Pairwise fun c d => c.1 < d.1 := by
  induction m with
  | nil => simp [Memory.insert]
  | cons d m ih =>
    obtain ⟨j, w⟩ := d
    have hj : j ≠ a := ha (j, w) (by simp)
    rw [List.pairwise_cons] at hs
    unfold Memory.insert
    split
    · next h =>
      refine List.pairwise_cons.mpr ⟨?_, List.pairwise_cons.mpr hs⟩
      intro c hc
      rcases List.mem_cons.mp hc with rfl | hc
      · exact h
      · exact Nat.lt_trans h (hs.1 c hc)
    · next h =>
      refine List.pairwise_cons.mpr ⟨?_, ih hs.2 fun c hc => ha c (by simp [hc])⟩
      intro c hc
      rcases (Memory.mem_insert m a v c).mp hc with rfl | hc
      · simp only
        omega
      · exact hs.1 c hc

/-- A write inside the array keeps the canonical form. -/
theorem Memory.write_wf {size : Nat} {m : Memory} (h : m.wf size) {a : Nat} (ha : a < size) (v : Byte) :
    (m.write a v).wf size := by
  have he : (m.erase a).wf size :=
    ⟨h.1.filter _, fun c hc => h.2 c (List.mem_filter.mp hc).1⟩
  unfold Memory.write
  split
  · exact he
  · next hv =>
    refine ⟨Memory.insert_sorted _ _ _ he.1 (Memory.erase_not_mem m a), fun c hc => ?_⟩
    rcases (Memory.mem_insert _ a v c).mp hc with rfl | hc
    · exact ⟨ha, hv⟩
    · exact he.2 c hc

@[simp] theorem Memory.nil_wf (size : Nat) : Memory.wf size [] := ⟨List.Pairwise.nil, by simp⟩

theorem Memory.read_of_all_gt (m : Memory) (a : Nat) (h : ∀ c ∈ m, a < c.1) : m.read a = Config.unlistedByte := by
  induction m with
  | nil => rfl
  | cons c m ih =>
    obtain ⟨k, v⟩ := c
    have hk : a < k := h (k, v) (by simp)
    rw [Memory.read_cons, if_neg (by omega)]
    exact ih fun c hc => h c (by simp [hc])

/-- Two arrays in canonical form with the same bytes are the same data. -/
theorem Memory.eq_of_read_eq {n₁ n₂ : Nat} {m₁ m₂ : Memory} (h₁ : m₁.wf n₁) (h₂ : m₂.wf n₂)
    (h : ∀ k, m₁.read k = m₂.read k) : m₁ = m₂ := by
  induction m₁ generalizing m₂ with
  | nil =>
    cases m₂ with
    | nil => rfl
    | cons d m =>
      have := h d.1
      simp only [Memory.read_nil] at this
      rw [show d = (d.1, d.2) from rfl, Memory.read_cons, if_pos rfl] at this
      exact absurd this.symm (h₂.2 d (by simp)).2
  | cons c m ih =>
    obtain ⟨k, v⟩ := c
    have s₁ := List.pairwise_cons.mp h₁.1
    cases m₂ with
    | nil =>
      have := h k
      rw [Memory.read_cons, if_pos rfl] at this
      exact absurd this (h₁.2 (k, v) (by simp)).2
    | cons d n =>
      obtain ⟨j, w⟩ := d
      have s₂ := List.pairwise_cons.mp h₂.1
      rcases Nat.lt_trichotomy k j with hlt | rfl | hgt
      · have := h k
        rw [Memory.read_cons, if_pos rfl, Memory.read_of_all_gt ((j, w) :: n) k (by
          intro c hc
          rcases List.mem_cons.mp hc with rfl | hc
          · exact hlt
          · exact Nat.lt_trans hlt (s₂.1 c hc))] at this
        exact absurd this (h₁.2 (k, v) (by simp)).2
      · have hv := h k
        rw [Memory.read_cons, Memory.read_cons, if_pos rfl, if_pos rfl] at hv
        subst hv
        congr 1
        refine ih ⟨s₁.2, fun c hc => h₁.2 c (by simp [hc])⟩ ⟨s₂.2, fun c hc => h₂.2 c (by simp [hc])⟩ fun a => ?_
        by_cases ha : k = a
        · subst ha
          rw [Memory.read_of_all_gt m k s₁.1, Memory.read_of_all_gt n k s₂.1]
        · have := h a
          rwa [Memory.read_cons, Memory.read_cons, if_neg ha, if_neg ha] at this
      · have := h j
        rw [Memory.read_of_all_gt ((k, v) :: m) j (by
          intro c hc
          rcases List.mem_cons.mp hc with rfl | hc
          · exact hgt
          · exact Nat.lt_trans hgt (s₁.1 c hc)), Memory.read_cons, if_pos rfl] at this
        exact absurd this.symm (h₂.2 (j, w) (by simp)).2

end Sys2Proof.Machine
end

