-- ==== Sys2Proof/Laws/State.lean ====
section
/-! SUPPORT. One lemma for each field and each update of the state: what an operation leaves alone, and what the plain
updates write. No later proof unfolds a record update for these. -/

namespace Sys2Proof.Machine

/-! `State.raise` leaves every field but errorLog, faultReport alone. -/

@[simp] theorem State.raise_pc (s : State) (c : ErrorCode) (a : Nat) (v : Byte) : (s.raise c a v).pc = s.pc := rfl
@[simp] theorem State.raise_ram (s : State) (c : ErrorCode) (a : Nat) (v : Byte) : (s.raise c a v).ram = s.ram := rfl
@[simp] theorem State.raise_sfr (s : State) (c : ErrorCode) (a : Nat) (v : Byte) : (s.raise c a v).sfr = s.sfr := rfl
@[simp] theorem State.raise_xram (s : State) (c : ErrorCode) (a : Nat) (v : Byte) : (s.raise c a v).xram = s.xram := rfl
@[simp] theorem State.raise_wram (s : State) (c : ErrorCode) (a : Nat) (v : Byte) : (s.raise c a v).wram = s.wram := rfl
@[simp] theorem State.raise_rom (s : State) (c : ErrorCode) (a : Nat) (v : Byte) : (s.raise c a v).rom = s.rom := rfl
@[simp] theorem State.raise_flash (s : State) (c : ErrorCode) (a : Nat) (v : Byte) : (s.raise c a v).flash = s.flash := rfl
@[simp] theorem State.raise_xramBank (s : State) (c : ErrorCode) (a : Nat) (v : Byte) : (s.raise c a v).xramBank = s.xramBank := rfl
@[simp] theorem State.raise_progSrc (s : State) (c : ErrorCode) (a : Nat) (v : Byte) : (s.raise c a v).progSrc = s.progSrc := rfl
@[simp] theorem State.raise_pending (s : State) (c : ErrorCode) (a : Nat) (v : Byte) : (s.raise c a v).pending = s.pending := rfl
@[simp] theorem State.raise_slot (s : State) (c : ErrorCode) (a : Nat) (v : Byte) : (s.raise c a v).slot = s.slot := rfl
@[simp] theorem State.raise_prevLevel (s : State) (c : ErrorCode) (a : Nat) (v : Byte) : (s.raise c a v).prevLevel = s.prevLevel := rfl
@[simp] theorem State.raise_suppress (s : State) (c : ErrorCode) (a : Nat) (v : Byte) : (s.raise c a v).suppress = s.suppress := rfl
@[simp] theorem State.raise_rrLast (s : State) (c : ErrorCode) (a : Nat) (v : Byte) : (s.raise c a v).rrLast = s.rrLast := rfl
@[simp] theorem State.raise_fstate (s : State) (c : ErrorCode) (a : Nat) (v : Byte) : (s.raise c a v).fstate = s.fstate := rfl
@[simp] theorem State.raise_fcount (s : State) (c : ErrorCode) (a : Nat) (v : Byte) : (s.raise c a v).fcount = s.fcount := rfl
@[simp] theorem State.raise_lastCycles (s : State) (c : ErrorCode) (a : Nat) (v : Byte) : (s.raise c a v).lastCycles = s.lastCycles := rfl
@[simp] theorem State.raise_eventLog (s : State) (c : ErrorCode) (a : Nat) (v : Byte) : (s.raise c a v).eventLog = s.eventLog := rfl
@[simp] theorem State.raise_ipc (s : State) (c : ErrorCode) (a : Nat) (v : Byte) : (s.raise c a v).ipc = s.ipc := rfl
@[simp] theorem State.raise_draws (s : State) (c : ErrorCode) (a : Nat) (v : Byte) : (s.raise c a v).draws = s.draws := rfl
@[simp] theorem State.raise_arrivals (s : State) (c : ErrorCode) (a : Nat) (v : Byte) : (s.raise c a v).arrivals = s.arrivals := rfl
@[simp] theorem State.raise_errorLog (s : State) (c : ErrorCode) (a : Nat) (v : Byte) :
    (s.raise c a v).errorLog = s.errorLog ++ [⟨c, a, v, s.ipc⟩] := rfl
@[simp] theorem State.raise_faultReport (s : State) (c : ErrorCode) (a : Nat) (v : Byte) :
    (s.raise c a v).faultReport = if c.isFault then some c else s.faultReport := rfl

/-! `State.emit` leaves every field but eventLog alone. -/

@[simp] theorem State.emit_pc (s : State) (e : Event) : (s.emit e).pc = s.pc := rfl
@[simp] theorem State.emit_ram (s : State) (e : Event) : (s.emit e).ram = s.ram := rfl
@[simp] theorem State.emit_sfr (s : State) (e : Event) : (s.emit e).sfr = s.sfr := rfl
@[simp] theorem State.emit_xram (s : State) (e : Event) : (s.emit e).xram = s.xram := rfl
@[simp] theorem State.emit_wram (s : State) (e : Event) : (s.emit e).wram = s.wram := rfl
@[simp] theorem State.emit_rom (s : State) (e : Event) : (s.emit e).rom = s.rom := rfl
@[simp] theorem State.emit_flash (s : State) (e : Event) : (s.emit e).flash = s.flash := rfl
@[simp] theorem State.emit_xramBank (s : State) (e : Event) : (s.emit e).xramBank = s.xramBank := rfl
@[simp] theorem State.emit_progSrc (s : State) (e : Event) : (s.emit e).progSrc = s.progSrc := rfl
@[simp] theorem State.emit_pending (s : State) (e : Event) : (s.emit e).pending = s.pending := rfl
@[simp] theorem State.emit_slot (s : State) (e : Event) : (s.emit e).slot = s.slot := rfl
@[simp] theorem State.emit_prevLevel (s : State) (e : Event) : (s.emit e).prevLevel = s.prevLevel := rfl
@[simp] theorem State.emit_suppress (s : State) (e : Event) : (s.emit e).suppress = s.suppress := rfl
@[simp] theorem State.emit_rrLast (s : State) (e : Event) : (s.emit e).rrLast = s.rrLast := rfl
@[simp] theorem State.emit_fstate (s : State) (e : Event) : (s.emit e).fstate = s.fstate := rfl
@[simp] theorem State.emit_fcount (s : State) (e : Event) : (s.emit e).fcount = s.fcount := rfl
@[simp] theorem State.emit_lastCycles (s : State) (e : Event) : (s.emit e).lastCycles = s.lastCycles := rfl
@[simp] theorem State.emit_errorLog (s : State) (e : Event) : (s.emit e).errorLog = s.errorLog := rfl
@[simp] theorem State.emit_ipc (s : State) (e : Event) : (s.emit e).ipc = s.ipc := rfl
@[simp] theorem State.emit_draws (s : State) (e : Event) : (s.emit e).draws = s.draws := rfl
@[simp] theorem State.emit_arrivals (s : State) (e : Event) : (s.emit e).arrivals = s.arrivals := rfl
@[simp] theorem State.emit_faultReport (s : State) (e : Event) : (s.emit e).faultReport = s.faultReport := rfl
@[simp] theorem State.emit_eventLog (s : State) (e : Event) : (s.emit e).eventLog = s.eventLog ++ [e] := rfl

/-! `State.setReg` leaves every field but sfr alone. -/

@[simp] theorem State.setReg_pc (s : State) (r : Sfr) (v : Byte) : (s.setReg r v).pc = s.pc := rfl
@[simp] theorem State.setReg_ram (s : State) (r : Sfr) (v : Byte) : (s.setReg r v).ram = s.ram := rfl
@[simp] theorem State.setReg_xram (s : State) (r : Sfr) (v : Byte) : (s.setReg r v).xram = s.xram := rfl
@[simp] theorem State.setReg_wram (s : State) (r : Sfr) (v : Byte) : (s.setReg r v).wram = s.wram := rfl
@[simp] theorem State.setReg_rom (s : State) (r : Sfr) (v : Byte) : (s.setReg r v).rom = s.rom := rfl
@[simp] theorem State.setReg_flash (s : State) (r : Sfr) (v : Byte) : (s.setReg r v).flash = s.flash := rfl
@[simp] theorem State.setReg_xramBank (s : State) (r : Sfr) (v : Byte) : (s.setReg r v).xramBank = s.xramBank := rfl
@[simp] theorem State.setReg_progSrc (s : State) (r : Sfr) (v : Byte) : (s.setReg r v).progSrc = s.progSrc := rfl
@[simp] theorem State.setReg_pending (s : State) (r : Sfr) (v : Byte) : (s.setReg r v).pending = s.pending := rfl
@[simp] theorem State.setReg_slot (s : State) (r : Sfr) (v : Byte) : (s.setReg r v).slot = s.slot := rfl
@[simp] theorem State.setReg_prevLevel (s : State) (r : Sfr) (v : Byte) : (s.setReg r v).prevLevel = s.prevLevel := rfl
@[simp] theorem State.setReg_suppress (s : State) (r : Sfr) (v : Byte) : (s.setReg r v).suppress = s.suppress := rfl
@[simp] theorem State.setReg_rrLast (s : State) (r : Sfr) (v : Byte) : (s.setReg r v).rrLast = s.rrLast := rfl
@[simp] theorem State.setReg_fstate (s : State) (r : Sfr) (v : Byte) : (s.setReg r v).fstate = s.fstate := rfl
@[simp] theorem State.setReg_fcount (s : State) (r : Sfr) (v : Byte) : (s.setReg r v).fcount = s.fcount := rfl
@[simp] theorem State.setReg_lastCycles (s : State) (r : Sfr) (v : Byte) : (s.setReg r v).lastCycles = s.lastCycles := rfl
@[simp] theorem State.setReg_errorLog (s : State) (r : Sfr) (v : Byte) : (s.setReg r v).errorLog = s.errorLog := rfl
@[simp] theorem State.setReg_eventLog (s : State) (r : Sfr) (v : Byte) : (s.setReg r v).eventLog = s.eventLog := rfl
@[simp] theorem State.setReg_ipc (s : State) (r : Sfr) (v : Byte) : (s.setReg r v).ipc = s.ipc := rfl
@[simp] theorem State.setReg_draws (s : State) (r : Sfr) (v : Byte) : (s.setReg r v).draws = s.draws := rfl
@[simp] theorem State.setReg_arrivals (s : State) (r : Sfr) (v : Byte) : (s.setReg r v).arrivals = s.arrivals := rfl
@[simp] theorem State.setReg_faultReport (s : State) (r : Sfr) (v : Byte) : (s.setReg r v).faultReport = s.faultReport := rfl
@[simp] theorem State.setReg_sfr (s : State) (r : Sfr) (v : Byte) : (s.setReg r v).sfr = s.sfr.write r.idx v := rfl

/-! `State.jump` leaves every field but pc alone. -/

@[simp] theorem State.jump_ram (s : State) (t : PAddr) : (s.jump t).ram = s.ram := rfl
@[simp] theorem State.jump_sfr (s : State) (t : PAddr) : (s.jump t).sfr = s.sfr := rfl
@[simp] theorem State.jump_xram (s : State) (t : PAddr) : (s.jump t).xram = s.xram := rfl
@[simp] theorem State.jump_wram (s : State) (t : PAddr) : (s.jump t).wram = s.wram := rfl
@[simp] theorem State.jump_rom (s : State) (t : PAddr) : (s.jump t).rom = s.rom := rfl
@[simp] theorem State.jump_flash (s : State) (t : PAddr) : (s.jump t).flash = s.flash := rfl
@[simp] theorem State.jump_xramBank (s : State) (t : PAddr) : (s.jump t).xramBank = s.xramBank := rfl
@[simp] theorem State.jump_progSrc (s : State) (t : PAddr) : (s.jump t).progSrc = s.progSrc := rfl
@[simp] theorem State.jump_pending (s : State) (t : PAddr) : (s.jump t).pending = s.pending := rfl
@[simp] theorem State.jump_slot (s : State) (t : PAddr) : (s.jump t).slot = s.slot := rfl
@[simp] theorem State.jump_prevLevel (s : State) (t : PAddr) : (s.jump t).prevLevel = s.prevLevel := rfl
@[simp] theorem State.jump_suppress (s : State) (t : PAddr) : (s.jump t).suppress = s.suppress := rfl
@[simp] theorem State.jump_rrLast (s : State) (t : PAddr) : (s.jump t).rrLast = s.rrLast := rfl
@[simp] theorem State.jump_fstate (s : State) (t : PAddr) : (s.jump t).fstate = s.fstate := rfl
@[simp] theorem State.jump_fcount (s : State) (t : PAddr) : (s.jump t).fcount = s.fcount := rfl
@[simp] theorem State.jump_lastCycles (s : State) (t : PAddr) : (s.jump t).lastCycles = s.lastCycles := rfl
@[simp] theorem State.jump_errorLog (s : State) (t : PAddr) : (s.jump t).errorLog = s.errorLog := rfl
@[simp] theorem State.jump_eventLog (s : State) (t : PAddr) : (s.jump t).eventLog = s.eventLog := rfl
@[simp] theorem State.jump_ipc (s : State) (t : PAddr) : (s.jump t).ipc = s.ipc := rfl
@[simp] theorem State.jump_draws (s : State) (t : PAddr) : (s.jump t).draws = s.draws := rfl
@[simp] theorem State.jump_arrivals (s : State) (t : PAddr) : (s.jump t).arrivals = s.arrivals := rfl
@[simp] theorem State.jump_faultReport (s : State) (t : PAddr) : (s.jump t).faultReport = s.faultReport := rfl
@[simp] theorem State.jump_pc (s : State) (t : PAddr) : (s.jump t).pc = t := rfl

/-! `State.jumpIf` leaves every field but pc alone. -/

@[simp] theorem State.jumpIf_ram (s : State) (c : Bool) (t : PAddr) : (s.jumpIf c t).ram = s.ram := by unfold State.jumpIf; split <;> rfl
@[simp] theorem State.jumpIf_sfr (s : State) (c : Bool) (t : PAddr) : (s.jumpIf c t).sfr = s.sfr := by unfold State.jumpIf; split <;> rfl
@[simp] theorem State.jumpIf_xram (s : State) (c : Bool) (t : PAddr) : (s.jumpIf c t).xram = s.xram := by unfold State.jumpIf; split <;> rfl
@[simp] theorem State.jumpIf_wram (s : State) (c : Bool) (t : PAddr) : (s.jumpIf c t).wram = s.wram := by unfold State.jumpIf; split <;> rfl
@[simp] theorem State.jumpIf_rom (s : State) (c : Bool) (t : PAddr) : (s.jumpIf c t).rom = s.rom := by unfold State.jumpIf; split <;> rfl
@[simp] theorem State.jumpIf_flash (s : State) (c : Bool) (t : PAddr) : (s.jumpIf c t).flash = s.flash := by unfold State.jumpIf; split <;> rfl
@[simp] theorem State.jumpIf_xramBank (s : State) (c : Bool) (t : PAddr) : (s.jumpIf c t).xramBank = s.xramBank := by unfold State.jumpIf; split <;> rfl
@[simp] theorem State.jumpIf_progSrc (s : State) (c : Bool) (t : PAddr) : (s.jumpIf c t).progSrc = s.progSrc := by unfold State.jumpIf; split <;> rfl
@[simp] theorem State.jumpIf_pending (s : State) (c : Bool) (t : PAddr) : (s.jumpIf c t).pending = s.pending := by unfold State.jumpIf; split <;> rfl
@[simp] theorem State.jumpIf_slot (s : State) (c : Bool) (t : PAddr) : (s.jumpIf c t).slot = s.slot := by unfold State.jumpIf; split <;> rfl
@[simp] theorem State.jumpIf_prevLevel (s : State) (c : Bool) (t : PAddr) : (s.jumpIf c t).prevLevel = s.prevLevel := by unfold State.jumpIf; split <;> rfl
@[simp] theorem State.jumpIf_suppress (s : State) (c : Bool) (t : PAddr) : (s.jumpIf c t).suppress = s.suppress := by unfold State.jumpIf; split <;> rfl
@[simp] theorem State.jumpIf_rrLast (s : State) (c : Bool) (t : PAddr) : (s.jumpIf c t).rrLast = s.rrLast := by unfold State.jumpIf; split <;> rfl
@[simp] theorem State.jumpIf_fstate (s : State) (c : Bool) (t : PAddr) : (s.jumpIf c t).fstate = s.fstate := by unfold State.jumpIf; split <;> rfl
@[simp] theorem State.jumpIf_fcount (s : State) (c : Bool) (t : PAddr) : (s.jumpIf c t).fcount = s.fcount := by unfold State.jumpIf; split <;> rfl
@[simp] theorem State.jumpIf_lastCycles (s : State) (c : Bool) (t : PAddr) : (s.jumpIf c t).lastCycles = s.lastCycles := by unfold State.jumpIf; split <;> rfl
@[simp] theorem State.jumpIf_errorLog (s : State) (c : Bool) (t : PAddr) : (s.jumpIf c t).errorLog = s.errorLog := by unfold State.jumpIf; split <;> rfl
@[simp] theorem State.jumpIf_eventLog (s : State) (c : Bool) (t : PAddr) : (s.jumpIf c t).eventLog = s.eventLog := by unfold State.jumpIf; split <;> rfl
@[simp] theorem State.jumpIf_ipc (s : State) (c : Bool) (t : PAddr) : (s.jumpIf c t).ipc = s.ipc := by unfold State.jumpIf; split <;> rfl
@[simp] theorem State.jumpIf_draws (s : State) (c : Bool) (t : PAddr) : (s.jumpIf c t).draws = s.draws := by unfold State.jumpIf; split <;> rfl
@[simp] theorem State.jumpIf_arrivals (s : State) (c : Bool) (t : PAddr) : (s.jumpIf c t).arrivals = s.arrivals := by unfold State.jumpIf; split <;> rfl
@[simp] theorem State.jumpIf_faultReport (s : State) (c : Bool) (t : PAddr) : (s.jumpIf c t).faultReport = s.faultReport := by unfold State.jumpIf; split <;> rfl
@[simp] theorem State.jumpIf_pc (s : State) (c : Bool) (t : PAddr) : (s.jumpIf c t).pc = if c then t else s.pc := by
  unfold State.jumpIf; split <;> rfl

/-! `State.flashStore` leaves every field but flash alone. -/

@[simp] theorem State.flashStore_pc (s : State) (f : FAddr) (v : Byte) : (s.flashStore f v).pc = s.pc := rfl
@[simp] theorem State.flashStore_ram (s : State) (f : FAddr) (v : Byte) : (s.flashStore f v).ram = s.ram := rfl
@[simp] theorem State.flashStore_sfr (s : State) (f : FAddr) (v : Byte) : (s.flashStore f v).sfr = s.sfr := rfl
@[simp] theorem State.flashStore_xram (s : State) (f : FAddr) (v : Byte) : (s.flashStore f v).xram = s.xram := rfl
@[simp] theorem State.flashStore_wram (s : State) (f : FAddr) (v : Byte) : (s.flashStore f v).wram = s.wram := rfl
@[simp] theorem State.flashStore_rom (s : State) (f : FAddr) (v : Byte) : (s.flashStore f v).rom = s.rom := rfl
@[simp] theorem State.flashStore_xramBank (s : State) (f : FAddr) (v : Byte) : (s.flashStore f v).xramBank = s.xramBank := rfl
@[simp] theorem State.flashStore_progSrc (s : State) (f : FAddr) (v : Byte) : (s.flashStore f v).progSrc = s.progSrc := rfl
@[simp] theorem State.flashStore_pending (s : State) (f : FAddr) (v : Byte) : (s.flashStore f v).pending = s.pending := rfl
@[simp] theorem State.flashStore_slot (s : State) (f : FAddr) (v : Byte) : (s.flashStore f v).slot = s.slot := rfl
@[simp] theorem State.flashStore_prevLevel (s : State) (f : FAddr) (v : Byte) : (s.flashStore f v).prevLevel = s.prevLevel := rfl
@[simp] theorem State.flashStore_suppress (s : State) (f : FAddr) (v : Byte) : (s.flashStore f v).suppress = s.suppress := rfl
@[simp] theorem State.flashStore_rrLast (s : State) (f : FAddr) (v : Byte) : (s.flashStore f v).rrLast = s.rrLast := rfl
@[simp] theorem State.flashStore_fstate (s : State) (f : FAddr) (v : Byte) : (s.flashStore f v).fstate = s.fstate := rfl
@[simp] theorem State.flashStore_fcount (s : State) (f : FAddr) (v : Byte) : (s.flashStore f v).fcount = s.fcount := rfl
@[simp] theorem State.flashStore_lastCycles (s : State) (f : FAddr) (v : Byte) : (s.flashStore f v).lastCycles = s.lastCycles := rfl
@[simp] theorem State.flashStore_errorLog (s : State) (f : FAddr) (v : Byte) : (s.flashStore f v).errorLog = s.errorLog := rfl
@[simp] theorem State.flashStore_eventLog (s : State) (f : FAddr) (v : Byte) : (s.flashStore f v).eventLog = s.eventLog := rfl
@[simp] theorem State.flashStore_ipc (s : State) (f : FAddr) (v : Byte) : (s.flashStore f v).ipc = s.ipc := rfl
@[simp] theorem State.flashStore_draws (s : State) (f : FAddr) (v : Byte) : (s.flashStore f v).draws = s.draws := rfl
@[simp] theorem State.flashStore_arrivals (s : State) (f : FAddr) (v : Byte) : (s.flashStore f v).arrivals = s.arrivals := rfl
@[simp] theorem State.flashStore_faultReport (s : State) (f : FAddr) (v : Byte) : (s.flashStore f v).faultReport = s.faultReport := rfl
@[simp] theorem State.flashStore_flash (s : State) (f : FAddr) (v : Byte) :
    (s.flashStore f v).flash = s.flash.write f.toNat v := rfl

/-! `State.raiseIrq` leaves every field but pending alone. -/

@[simp] theorem State.raiseIrq_pc (s : State) (x : IrqSource) : (s.raiseIrq x).pc = s.pc := rfl
@[simp] theorem State.raiseIrq_ram (s : State) (x : IrqSource) : (s.raiseIrq x).ram = s.ram := rfl
@[simp] theorem State.raiseIrq_sfr (s : State) (x : IrqSource) : (s.raiseIrq x).sfr = s.sfr := rfl
@[simp] theorem State.raiseIrq_xram (s : State) (x : IrqSource) : (s.raiseIrq x).xram = s.xram := rfl
@[simp] theorem State.raiseIrq_wram (s : State) (x : IrqSource) : (s.raiseIrq x).wram = s.wram := rfl
@[simp] theorem State.raiseIrq_rom (s : State) (x : IrqSource) : (s.raiseIrq x).rom = s.rom := rfl
@[simp] theorem State.raiseIrq_flash (s : State) (x : IrqSource) : (s.raiseIrq x).flash = s.flash := rfl
@[simp] theorem State.raiseIrq_xramBank (s : State) (x : IrqSource) : (s.raiseIrq x).xramBank = s.xramBank := rfl
@[simp] theorem State.raiseIrq_progSrc (s : State) (x : IrqSource) : (s.raiseIrq x).progSrc = s.progSrc := rfl
@[simp] theorem State.raiseIrq_slot (s : State) (x : IrqSource) : (s.raiseIrq x).slot = s.slot := rfl
@[simp] theorem State.raiseIrq_prevLevel (s : State) (x : IrqSource) : (s.raiseIrq x).prevLevel = s.prevLevel := rfl
@[simp] theorem State.raiseIrq_suppress (s : State) (x : IrqSource) : (s.raiseIrq x).suppress = s.suppress := rfl
@[simp] theorem State.raiseIrq_rrLast (s : State) (x : IrqSource) : (s.raiseIrq x).rrLast = s.rrLast := rfl
@[simp] theorem State.raiseIrq_fstate (s : State) (x : IrqSource) : (s.raiseIrq x).fstate = s.fstate := rfl
@[simp] theorem State.raiseIrq_fcount (s : State) (x : IrqSource) : (s.raiseIrq x).fcount = s.fcount := rfl
@[simp] theorem State.raiseIrq_lastCycles (s : State) (x : IrqSource) : (s.raiseIrq x).lastCycles = s.lastCycles := rfl
@[simp] theorem State.raiseIrq_errorLog (s : State) (x : IrqSource) : (s.raiseIrq x).errorLog = s.errorLog := rfl
@[simp] theorem State.raiseIrq_eventLog (s : State) (x : IrqSource) : (s.raiseIrq x).eventLog = s.eventLog := rfl
@[simp] theorem State.raiseIrq_ipc (s : State) (x : IrqSource) : (s.raiseIrq x).ipc = s.ipc := rfl
@[simp] theorem State.raiseIrq_draws (s : State) (x : IrqSource) : (s.raiseIrq x).draws = s.draws := rfl
@[simp] theorem State.raiseIrq_arrivals (s : State) (x : IrqSource) : (s.raiseIrq x).arrivals = s.arrivals := rfl
@[simp] theorem State.raiseIrq_faultReport (s : State) (x : IrqSource) : (s.raiseIrq x).faultReport = s.faultReport := rfl
@[simp] theorem State.raiseIrq_pending (s : State) (x : IrqSource) : (s.raiseIrq x).pending = s.pending ||| x.bit := rfl

/-! `State.enter` leaves every field but ipc, pc alone. -/

@[simp] theorem State.enter_ram (s : State) (n : Nat) : (s.enter n).ram = s.ram := rfl
@[simp] theorem State.enter_sfr (s : State) (n : Nat) : (s.enter n).sfr = s.sfr := rfl
@[simp] theorem State.enter_xram (s : State) (n : Nat) : (s.enter n).xram = s.xram := rfl
@[simp] theorem State.enter_wram (s : State) (n : Nat) : (s.enter n).wram = s.wram := rfl
@[simp] theorem State.enter_rom (s : State) (n : Nat) : (s.enter n).rom = s.rom := rfl
@[simp] theorem State.enter_flash (s : State) (n : Nat) : (s.enter n).flash = s.flash := rfl
@[simp] theorem State.enter_xramBank (s : State) (n : Nat) : (s.enter n).xramBank = s.xramBank := rfl
@[simp] theorem State.enter_progSrc (s : State) (n : Nat) : (s.enter n).progSrc = s.progSrc := rfl
@[simp] theorem State.enter_pending (s : State) (n : Nat) : (s.enter n).pending = s.pending := rfl
@[simp] theorem State.enter_slot (s : State) (n : Nat) : (s.enter n).slot = s.slot := rfl
@[simp] theorem State.enter_prevLevel (s : State) (n : Nat) : (s.enter n).prevLevel = s.prevLevel := rfl
@[simp] theorem State.enter_suppress (s : State) (n : Nat) : (s.enter n).suppress = s.suppress := rfl
@[simp] theorem State.enter_rrLast (s : State) (n : Nat) : (s.enter n).rrLast = s.rrLast := rfl
@[simp] theorem State.enter_fstate (s : State) (n : Nat) : (s.enter n).fstate = s.fstate := rfl
@[simp] theorem State.enter_fcount (s : State) (n : Nat) : (s.enter n).fcount = s.fcount := rfl
@[simp] theorem State.enter_lastCycles (s : State) (n : Nat) : (s.enter n).lastCycles = s.lastCycles := rfl
@[simp] theorem State.enter_errorLog (s : State) (n : Nat) : (s.enter n).errorLog = s.errorLog := rfl
@[simp] theorem State.enter_eventLog (s : State) (n : Nat) : (s.enter n).eventLog = s.eventLog := rfl
@[simp] theorem State.enter_draws (s : State) (n : Nat) : (s.enter n).draws = s.draws := rfl
@[simp] theorem State.enter_arrivals (s : State) (n : Nat) : (s.enter n).arrivals = s.arrivals := rfl
@[simp] theorem State.enter_faultReport (s : State) (n : Nat) : (s.enter n).faultReport = s.faultReport := rfl
@[simp] theorem State.enter_pc (s : State) (n : Nat) : (s.enter n).pc = s.pc + BitVec.ofNat 16 n := rfl
@[simp] theorem State.enter_ipc (s : State) (n : Nat) : (s.enter n).ipc = s.pc := rfl

/-! `State.beginStep` leaves every field but faultReport alone. -/

@[simp] theorem State.beginStep_pc (s : State) : (s.beginStep).pc = s.pc := rfl
@[simp] theorem State.beginStep_ram (s : State) : (s.beginStep).ram = s.ram := rfl
@[simp] theorem State.beginStep_sfr (s : State) : (s.beginStep).sfr = s.sfr := rfl
@[simp] theorem State.beginStep_xram (s : State) : (s.beginStep).xram = s.xram := rfl
@[simp] theorem State.beginStep_wram (s : State) : (s.beginStep).wram = s.wram := rfl
@[simp] theorem State.beginStep_rom (s : State) : (s.beginStep).rom = s.rom := rfl
@[simp] theorem State.beginStep_flash (s : State) : (s.beginStep).flash = s.flash := rfl
@[simp] theorem State.beginStep_xramBank (s : State) : (s.beginStep).xramBank = s.xramBank := rfl
@[simp] theorem State.beginStep_progSrc (s : State) : (s.beginStep).progSrc = s.progSrc := rfl
@[simp] theorem State.beginStep_pending (s : State) : (s.beginStep).pending = s.pending := rfl
@[simp] theorem State.beginStep_slot (s : State) : (s.beginStep).slot = s.slot := rfl
@[simp] theorem State.beginStep_prevLevel (s : State) : (s.beginStep).prevLevel = s.prevLevel := rfl
@[simp] theorem State.beginStep_suppress (s : State) : (s.beginStep).suppress = s.suppress := rfl
@[simp] theorem State.beginStep_rrLast (s : State) : (s.beginStep).rrLast = s.rrLast := rfl
@[simp] theorem State.beginStep_fstate (s : State) : (s.beginStep).fstate = s.fstate := rfl
@[simp] theorem State.beginStep_fcount (s : State) : (s.beginStep).fcount = s.fcount := rfl
@[simp] theorem State.beginStep_lastCycles (s : State) : (s.beginStep).lastCycles = s.lastCycles := rfl
@[simp] theorem State.beginStep_errorLog (s : State) : (s.beginStep).errorLog = s.errorLog := rfl
@[simp] theorem State.beginStep_eventLog (s : State) : (s.beginStep).eventLog = s.eventLog := rfl
@[simp] theorem State.beginStep_ipc (s : State) : (s.beginStep).ipc = s.ipc := rfl
@[simp] theorem State.beginStep_draws (s : State) : (s.beginStep).draws = s.draws := rfl
@[simp] theorem State.beginStep_arrivals (s : State) : (s.beginStep).arrivals = s.arrivals := rfl
@[simp] theorem State.beginStep_faultReport (s : State) : s.beginStep.faultReport = none := rfl

/-! `State.idle` leaves every field but ipc, draws alone. -/

@[simp] theorem State.idle_pc (s : State) : (s.idle).pc = s.pc := rfl
@[simp] theorem State.idle_ram (s : State) : (s.idle).ram = s.ram := rfl
@[simp] theorem State.idle_sfr (s : State) : (s.idle).sfr = s.sfr := rfl
@[simp] theorem State.idle_xram (s : State) : (s.idle).xram = s.xram := rfl
@[simp] theorem State.idle_wram (s : State) : (s.idle).wram = s.wram := rfl
@[simp] theorem State.idle_rom (s : State) : (s.idle).rom = s.rom := rfl
@[simp] theorem State.idle_flash (s : State) : (s.idle).flash = s.flash := rfl
@[simp] theorem State.idle_xramBank (s : State) : (s.idle).xramBank = s.xramBank := rfl
@[simp] theorem State.idle_progSrc (s : State) : (s.idle).progSrc = s.progSrc := rfl
@[simp] theorem State.idle_pending (s : State) : (s.idle).pending = s.pending := rfl
@[simp] theorem State.idle_slot (s : State) : (s.idle).slot = s.slot := rfl
@[simp] theorem State.idle_prevLevel (s : State) : (s.idle).prevLevel = s.prevLevel := rfl
@[simp] theorem State.idle_suppress (s : State) : (s.idle).suppress = s.suppress := rfl
@[simp] theorem State.idle_rrLast (s : State) : (s.idle).rrLast = s.rrLast := rfl
@[simp] theorem State.idle_fstate (s : State) : (s.idle).fstate = s.fstate := rfl
@[simp] theorem State.idle_fcount (s : State) : (s.idle).fcount = s.fcount := rfl
@[simp] theorem State.idle_lastCycles (s : State) : (s.idle).lastCycles = s.lastCycles := rfl
@[simp] theorem State.idle_errorLog (s : State) : (s.idle).errorLog = s.errorLog := rfl
@[simp] theorem State.idle_eventLog (s : State) : (s.idle).eventLog = s.eventLog := rfl
@[simp] theorem State.idle_arrivals (s : State) : (s.idle).arrivals = s.arrivals := rfl
@[simp] theorem State.idle_faultReport (s : State) : (s.idle).faultReport = s.faultReport := rfl

/-! `State.storeByte` leaves every field but ram, sfr, xram alone. -/

@[simp] theorem State.storeByte_pc (s : State) (a : DAddr) (v : Byte) : (s.storeByte a v).pc = s.pc := by unfold State.storeByte; split <;> rfl
@[simp] theorem State.storeByte_wram (s : State) (a : DAddr) (v : Byte) : (s.storeByte a v).wram = s.wram := by unfold State.storeByte; split <;> rfl
@[simp] theorem State.storeByte_rom (s : State) (a : DAddr) (v : Byte) : (s.storeByte a v).rom = s.rom := by unfold State.storeByte; split <;> rfl
@[simp] theorem State.storeByte_flash (s : State) (a : DAddr) (v : Byte) : (s.storeByte a v).flash = s.flash := by unfold State.storeByte; split <;> rfl
@[simp] theorem State.storeByte_xramBank (s : State) (a : DAddr) (v : Byte) : (s.storeByte a v).xramBank = s.xramBank := by unfold State.storeByte; split <;> rfl
@[simp] theorem State.storeByte_progSrc (s : State) (a : DAddr) (v : Byte) : (s.storeByte a v).progSrc = s.progSrc := by unfold State.storeByte; split <;> rfl
@[simp] theorem State.storeByte_pending (s : State) (a : DAddr) (v : Byte) : (s.storeByte a v).pending = s.pending := by unfold State.storeByte; split <;> rfl
@[simp] theorem State.storeByte_slot (s : State) (a : DAddr) (v : Byte) : (s.storeByte a v).slot = s.slot := by unfold State.storeByte; split <;> rfl
@[simp] theorem State.storeByte_prevLevel (s : State) (a : DAddr) (v : Byte) : (s.storeByte a v).prevLevel = s.prevLevel := by unfold State.storeByte; split <;> rfl
@[simp] theorem State.storeByte_suppress (s : State) (a : DAddr) (v : Byte) : (s.storeByte a v).suppress = s.suppress := by unfold State.storeByte; split <;> rfl
@[simp] theorem State.storeByte_rrLast (s : State) (a : DAddr) (v : Byte) : (s.storeByte a v).rrLast = s.rrLast := by unfold State.storeByte; split <;> rfl
@[simp] theorem State.storeByte_fstate (s : State) (a : DAddr) (v : Byte) : (s.storeByte a v).fstate = s.fstate := by unfold State.storeByte; split <;> rfl
@[simp] theorem State.storeByte_fcount (s : State) (a : DAddr) (v : Byte) : (s.storeByte a v).fcount = s.fcount := by unfold State.storeByte; split <;> rfl
@[simp] theorem State.storeByte_lastCycles (s : State) (a : DAddr) (v : Byte) : (s.storeByte a v).lastCycles = s.lastCycles := by unfold State.storeByte; split <;> rfl
@[simp] theorem State.storeByte_errorLog (s : State) (a : DAddr) (v : Byte) : (s.storeByte a v).errorLog = s.errorLog := by unfold State.storeByte; split <;> rfl
@[simp] theorem State.storeByte_eventLog (s : State) (a : DAddr) (v : Byte) : (s.storeByte a v).eventLog = s.eventLog := by unfold State.storeByte; split <;> rfl
@[simp] theorem State.storeByte_ipc (s : State) (a : DAddr) (v : Byte) : (s.storeByte a v).ipc = s.ipc := by unfold State.storeByte; split <;> rfl
@[simp] theorem State.storeByte_draws (s : State) (a : DAddr) (v : Byte) : (s.storeByte a v).draws = s.draws := by unfold State.storeByte; split <;> rfl
@[simp] theorem State.storeByte_arrivals (s : State) (a : DAddr) (v : Byte) : (s.storeByte a v).arrivals = s.arrivals := by unfold State.storeByte; split <;> rfl
@[simp] theorem State.storeByte_faultReport (s : State) (a : DAddr) (v : Byte) : (s.storeByte a v).faultReport = s.faultReport := by unfold State.storeByte; split <;> rfl

/-! `State.incWorkAddr` leaves every field but sfr alone. -/

@[simp] theorem State.incWorkAddr_pc (s : State) : (s.incWorkAddr).pc = s.pc := by unfold State.incWorkAddr; dsimp only; split <;> rfl
@[simp] theorem State.incWorkAddr_ram (s : State) : (s.incWorkAddr).ram = s.ram := by unfold State.incWorkAddr; dsimp only; split <;> rfl
@[simp] theorem State.incWorkAddr_xram (s : State) : (s.incWorkAddr).xram = s.xram := by unfold State.incWorkAddr; dsimp only; split <;> rfl
@[simp] theorem State.incWorkAddr_wram (s : State) : (s.incWorkAddr).wram = s.wram := by unfold State.incWorkAddr; dsimp only; split <;> rfl
@[simp] theorem State.incWorkAddr_rom (s : State) : (s.incWorkAddr).rom = s.rom := by unfold State.incWorkAddr; dsimp only; split <;> rfl
@[simp] theorem State.incWorkAddr_flash (s : State) : (s.incWorkAddr).flash = s.flash := by unfold State.incWorkAddr; dsimp only; split <;> rfl
@[simp] theorem State.incWorkAddr_xramBank (s : State) : (s.incWorkAddr).xramBank = s.xramBank := by unfold State.incWorkAddr; dsimp only; split <;> rfl
@[simp] theorem State.incWorkAddr_progSrc (s : State) : (s.incWorkAddr).progSrc = s.progSrc := by unfold State.incWorkAddr; dsimp only; split <;> rfl
@[simp] theorem State.incWorkAddr_pending (s : State) : (s.incWorkAddr).pending = s.pending := by unfold State.incWorkAddr; dsimp only; split <;> rfl
@[simp] theorem State.incWorkAddr_slot (s : State) : (s.incWorkAddr).slot = s.slot := by unfold State.incWorkAddr; dsimp only; split <;> rfl
@[simp] theorem State.incWorkAddr_prevLevel (s : State) : (s.incWorkAddr).prevLevel = s.prevLevel := by unfold State.incWorkAddr; dsimp only; split <;> rfl
@[simp] theorem State.incWorkAddr_suppress (s : State) : (s.incWorkAddr).suppress = s.suppress := by unfold State.incWorkAddr; dsimp only; split <;> rfl
@[simp] theorem State.incWorkAddr_rrLast (s : State) : (s.incWorkAddr).rrLast = s.rrLast := by unfold State.incWorkAddr; dsimp only; split <;> rfl
@[simp] theorem State.incWorkAddr_fstate (s : State) : (s.incWorkAddr).fstate = s.fstate := by unfold State.incWorkAddr; dsimp only; split <;> rfl
@[simp] theorem State.incWorkAddr_fcount (s : State) : (s.incWorkAddr).fcount = s.fcount := by unfold State.incWorkAddr; dsimp only; split <;> rfl
@[simp] theorem State.incWorkAddr_lastCycles (s : State) : (s.incWorkAddr).lastCycles = s.lastCycles := by unfold State.incWorkAddr; dsimp only; split <;> rfl
@[simp] theorem State.incWorkAddr_errorLog (s : State) : (s.incWorkAddr).errorLog = s.errorLog := by unfold State.incWorkAddr; dsimp only; split <;> rfl
@[simp] theorem State.incWorkAddr_eventLog (s : State) : (s.incWorkAddr).eventLog = s.eventLog := by unfold State.incWorkAddr; dsimp only; split <;> rfl
@[simp] theorem State.incWorkAddr_ipc (s : State) : (s.incWorkAddr).ipc = s.ipc := by unfold State.incWorkAddr; dsimp only; split <;> rfl
@[simp] theorem State.incWorkAddr_draws (s : State) : (s.incWorkAddr).draws = s.draws := by unfold State.incWorkAddr; dsimp only; split <;> rfl
@[simp] theorem State.incWorkAddr_arrivals (s : State) : (s.incWorkAddr).arrivals = s.arrivals := by unfold State.incWorkAddr; dsimp only; split <;> rfl
@[simp] theorem State.incWorkAddr_faultReport (s : State) : (s.incWorkAddr).faultReport = s.faultReport := by unfold State.incWorkAddr; dsimp only; split <;> rfl

/-! `State.afterWorkAccess` leaves every field but sfr alone. -/

@[simp] theorem State.afterWorkAccess_pc (s : State) : (s.afterWorkAccess).pc = s.pc := by unfold State.afterWorkAccess; split <;> simp
@[simp] theorem State.afterWorkAccess_ram (s : State) : (s.afterWorkAccess).ram = s.ram := by unfold State.afterWorkAccess; split <;> simp
@[simp] theorem State.afterWorkAccess_xram (s : State) : (s.afterWorkAccess).xram = s.xram := by unfold State.afterWorkAccess; split <;> simp
@[simp] theorem State.afterWorkAccess_wram (s : State) : (s.afterWorkAccess).wram = s.wram := by unfold State.afterWorkAccess; split <;> simp
@[simp] theorem State.afterWorkAccess_rom (s : State) : (s.afterWorkAccess).rom = s.rom := by unfold State.afterWorkAccess; split <;> simp
@[simp] theorem State.afterWorkAccess_flash (s : State) : (s.afterWorkAccess).flash = s.flash := by unfold State.afterWorkAccess; split <;> simp
@[simp] theorem State.afterWorkAccess_xramBank (s : State) : (s.afterWorkAccess).xramBank = s.xramBank := by unfold State.afterWorkAccess; split <;> simp
@[simp] theorem State.afterWorkAccess_progSrc (s : State) : (s.afterWorkAccess).progSrc = s.progSrc := by unfold State.afterWorkAccess; split <;> simp
@[simp] theorem State.afterWorkAccess_pending (s : State) : (s.afterWorkAccess).pending = s.pending := by unfold State.afterWorkAccess; split <;> simp
@[simp] theorem State.afterWorkAccess_slot (s : State) : (s.afterWorkAccess).slot = s.slot := by unfold State.afterWorkAccess; split <;> simp
@[simp] theorem State.afterWorkAccess_prevLevel (s : State) : (s.afterWorkAccess).prevLevel = s.prevLevel := by unfold State.afterWorkAccess; split <;> simp
@[simp] theorem State.afterWorkAccess_suppress (s : State) : (s.afterWorkAccess).suppress = s.suppress := by unfold State.afterWorkAccess; split <;> simp
@[simp] theorem State.afterWorkAccess_rrLast (s : State) : (s.afterWorkAccess).rrLast = s.rrLast := by unfold State.afterWorkAccess; split <;> simp
@[simp] theorem State.afterWorkAccess_fstate (s : State) : (s.afterWorkAccess).fstate = s.fstate := by unfold State.afterWorkAccess; split <;> simp
@[simp] theorem State.afterWorkAccess_fcount (s : State) : (s.afterWorkAccess).fcount = s.fcount := by unfold State.afterWorkAccess; split <;> simp
@[simp] theorem State.afterWorkAccess_lastCycles (s : State) : (s.afterWorkAccess).lastCycles = s.lastCycles := by unfold State.afterWorkAccess; split <;> simp
@[simp] theorem State.afterWorkAccess_errorLog (s : State) : (s.afterWorkAccess).errorLog = s.errorLog := by unfold State.afterWorkAccess; split <;> simp
@[simp] theorem State.afterWorkAccess_eventLog (s : State) : (s.afterWorkAccess).eventLog = s.eventLog := by unfold State.afterWorkAccess; split <;> simp
@[simp] theorem State.afterWorkAccess_ipc (s : State) : (s.afterWorkAccess).ipc = s.ipc := by unfold State.afterWorkAccess; split <;> simp
@[simp] theorem State.afterWorkAccess_draws (s : State) : (s.afterWorkAccess).draws = s.draws := by unfold State.afterWorkAccess; split <;> simp
@[simp] theorem State.afterWorkAccess_arrivals (s : State) : (s.afterWorkAccess).arrivals = s.arrivals := by unfold State.afterWorkAccess; split <;> simp
@[simp] theorem State.afterWorkAccess_faultReport (s : State) : (s.afterWorkAccess).faultReport = s.faultReport := by unfold State.afterWorkAccess; split <;> simp

/-! `State.workRead` leaves every field but sfr alone. -/

@[simp] theorem State.workRead_pc (s : State) : (s.workRead.2).pc = s.pc := by simp [State.workRead]
@[simp] theorem State.workRead_ram (s : State) : (s.workRead.2).ram = s.ram := by simp [State.workRead]
@[simp] theorem State.workRead_xram (s : State) : (s.workRead.2).xram = s.xram := by simp [State.workRead]
@[simp] theorem State.workRead_wram (s : State) : (s.workRead.2).wram = s.wram := by simp [State.workRead]
@[simp] theorem State.workRead_rom (s : State) : (s.workRead.2).rom = s.rom := by simp [State.workRead]
@[simp] theorem State.workRead_flash (s : State) : (s.workRead.2).flash = s.flash := by simp [State.workRead]
@[simp] theorem State.workRead_xramBank (s : State) : (s.workRead.2).xramBank = s.xramBank := by simp [State.workRead]
@[simp] theorem State.workRead_progSrc (s : State) : (s.workRead.2).progSrc = s.progSrc := by simp [State.workRead]
@[simp] theorem State.workRead_pending (s : State) : (s.workRead.2).pending = s.pending := by simp [State.workRead]
@[simp] theorem State.workRead_slot (s : State) : (s.workRead.2).slot = s.slot := by simp [State.workRead]
@[simp] theorem State.workRead_prevLevel (s : State) : (s.workRead.2).prevLevel = s.prevLevel := by simp [State.workRead]
@[simp] theorem State.workRead_suppress (s : State) : (s.workRead.2).suppress = s.suppress := by simp [State.workRead]
@[simp] theorem State.workRead_rrLast (s : State) : (s.workRead.2).rrLast = s.rrLast := by simp [State.workRead]
@[simp] theorem State.workRead_fstate (s : State) : (s.workRead.2).fstate = s.fstate := by simp [State.workRead]
@[simp] theorem State.workRead_fcount (s : State) : (s.workRead.2).fcount = s.fcount := by simp [State.workRead]
@[simp] theorem State.workRead_lastCycles (s : State) : (s.workRead.2).lastCycles = s.lastCycles := by simp [State.workRead]
@[simp] theorem State.workRead_errorLog (s : State) : (s.workRead.2).errorLog = s.errorLog := by simp [State.workRead]
@[simp] theorem State.workRead_eventLog (s : State) : (s.workRead.2).eventLog = s.eventLog := by simp [State.workRead]
@[simp] theorem State.workRead_ipc (s : State) : (s.workRead.2).ipc = s.ipc := by simp [State.workRead]
@[simp] theorem State.workRead_draws (s : State) : (s.workRead.2).draws = s.draws := by simp [State.workRead]
@[simp] theorem State.workRead_arrivals (s : State) : (s.workRead.2).arrivals = s.arrivals := by simp [State.workRead]
@[simp] theorem State.workRead_faultReport (s : State) : (s.workRead.2).faultReport = s.faultReport := by simp [State.workRead]

/-! `State.workWrite` leaves every field but sfr, wram alone. -/

@[simp] theorem State.workWrite_pc (s : State) (v : Byte) : (s.workWrite v).pc = s.pc := by simp [State.workWrite]
@[simp] theorem State.workWrite_ram (s : State) (v : Byte) : (s.workWrite v).ram = s.ram := by simp [State.workWrite]
@[simp] theorem State.workWrite_xram (s : State) (v : Byte) : (s.workWrite v).xram = s.xram := by simp [State.workWrite]
@[simp] theorem State.workWrite_rom (s : State) (v : Byte) : (s.workWrite v).rom = s.rom := by simp [State.workWrite]
@[simp] theorem State.workWrite_flash (s : State) (v : Byte) : (s.workWrite v).flash = s.flash := by simp [State.workWrite]
@[simp] theorem State.workWrite_xramBank (s : State) (v : Byte) : (s.workWrite v).xramBank = s.xramBank := by simp [State.workWrite]
@[simp] theorem State.workWrite_progSrc (s : State) (v : Byte) : (s.workWrite v).progSrc = s.progSrc := by simp [State.workWrite]
@[simp] theorem State.workWrite_pending (s : State) (v : Byte) : (s.workWrite v).pending = s.pending := by simp [State.workWrite]
@[simp] theorem State.workWrite_slot (s : State) (v : Byte) : (s.workWrite v).slot = s.slot := by simp [State.workWrite]
@[simp] theorem State.workWrite_prevLevel (s : State) (v : Byte) : (s.workWrite v).prevLevel = s.prevLevel := by simp [State.workWrite]
@[simp] theorem State.workWrite_suppress (s : State) (v : Byte) : (s.workWrite v).suppress = s.suppress := by simp [State.workWrite]
@[simp] theorem State.workWrite_rrLast (s : State) (v : Byte) : (s.workWrite v).rrLast = s.rrLast := by simp [State.workWrite]
@[simp] theorem State.workWrite_fstate (s : State) (v : Byte) : (s.workWrite v).fstate = s.fstate := by simp [State.workWrite]
@[simp] theorem State.workWrite_fcount (s : State) (v : Byte) : (s.workWrite v).fcount = s.fcount := by simp [State.workWrite]
@[simp] theorem State.workWrite_lastCycles (s : State) (v : Byte) : (s.workWrite v).lastCycles = s.lastCycles := by simp [State.workWrite]
@[simp] theorem State.workWrite_errorLog (s : State) (v : Byte) : (s.workWrite v).errorLog = s.errorLog := by simp [State.workWrite]
@[simp] theorem State.workWrite_eventLog (s : State) (v : Byte) : (s.workWrite v).eventLog = s.eventLog := by simp [State.workWrite]
@[simp] theorem State.workWrite_ipc (s : State) (v : Byte) : (s.workWrite v).ipc = s.ipc := by simp [State.workWrite]
@[simp] theorem State.workWrite_draws (s : State) (v : Byte) : (s.workWrite v).draws = s.draws := by simp [State.workWrite]
@[simp] theorem State.workWrite_arrivals (s : State) (v : Byte) : (s.workWrite v).arrivals = s.arrivals := by simp [State.workWrite]
@[simp] theorem State.workWrite_faultReport (s : State) (v : Byte) : (s.workWrite v).faultReport = s.faultReport := by simp [State.workWrite]
@[simp] theorem State.workWrite_wram (s : State) (v : Byte) :
    (s.workWrite v).wram = s.wram.write s.workAddr.toNat v := by simp [State.workWrite]

/-! `State.liveRead` leaves every field but draws alone. -/

@[simp] theorem State.liveRead_pc (s : State) (a : DAddr) : ((s.liveRead a).2).pc = s.pc := rfl
@[simp] theorem State.liveRead_ram (s : State) (a : DAddr) : ((s.liveRead a).2).ram = s.ram := rfl
@[simp] theorem State.liveRead_sfr (s : State) (a : DAddr) : ((s.liveRead a).2).sfr = s.sfr := rfl
@[simp] theorem State.liveRead_xram (s : State) (a : DAddr) : ((s.liveRead a).2).xram = s.xram := rfl
@[simp] theorem State.liveRead_wram (s : State) (a : DAddr) : ((s.liveRead a).2).wram = s.wram := rfl
@[simp] theorem State.liveRead_rom (s : State) (a : DAddr) : ((s.liveRead a).2).rom = s.rom := rfl
@[simp] theorem State.liveRead_flash (s : State) (a : DAddr) : ((s.liveRead a).2).flash = s.flash := rfl
@[simp] theorem State.liveRead_xramBank (s : State) (a : DAddr) : ((s.liveRead a).2).xramBank = s.xramBank := rfl
@[simp] theorem State.liveRead_progSrc (s : State) (a : DAddr) : ((s.liveRead a).2).progSrc = s.progSrc := rfl
@[simp] theorem State.liveRead_pending (s : State) (a : DAddr) : ((s.liveRead a).2).pending = s.pending := rfl
@[simp] theorem State.liveRead_slot (s : State) (a : DAddr) : ((s.liveRead a).2).slot = s.slot := rfl
@[simp] theorem State.liveRead_prevLevel (s : State) (a : DAddr) : ((s.liveRead a).2).prevLevel = s.prevLevel := rfl
@[simp] theorem State.liveRead_suppress (s : State) (a : DAddr) : ((s.liveRead a).2).suppress = s.suppress := rfl
@[simp] theorem State.liveRead_rrLast (s : State) (a : DAddr) : ((s.liveRead a).2).rrLast = s.rrLast := rfl
@[simp] theorem State.liveRead_fstate (s : State) (a : DAddr) : ((s.liveRead a).2).fstate = s.fstate := rfl
@[simp] theorem State.liveRead_fcount (s : State) (a : DAddr) : ((s.liveRead a).2).fcount = s.fcount := rfl
@[simp] theorem State.liveRead_lastCycles (s : State) (a : DAddr) : ((s.liveRead a).2).lastCycles = s.lastCycles := rfl
@[simp] theorem State.liveRead_errorLog (s : State) (a : DAddr) : ((s.liveRead a).2).errorLog = s.errorLog := rfl
@[simp] theorem State.liveRead_eventLog (s : State) (a : DAddr) : ((s.liveRead a).2).eventLog = s.eventLog := rfl
@[simp] theorem State.liveRead_ipc (s : State) (a : DAddr) : ((s.liveRead a).2).ipc = s.ipc := rfl
@[simp] theorem State.liveRead_arrivals (s : State) (a : DAddr) : ((s.liveRead a).2).arrivals = s.arrivals := rfl
@[simp] theorem State.liveRead_faultReport (s : State) (a : DAddr) : ((s.liveRead a).2).faultReport = s.faultReport := rfl
@[simp] theorem State.liveRead_draws (s : State) (a : DAddr) : (s.liveRead a).2.draws = s.draws + 1 := rfl

/-! `State.dread` leaves every field but sfr, draws alone. -/

@[simp] theorem State.dread_pc (s : State) (a : DAddr) : ((s.dread a).2).pc = s.pc := by
  unfold State.dread; (repeat' split) <;> simp
@[simp] theorem State.dread_ram (s : State) (a : DAddr) : ((s.dread a).2).ram = s.ram := by
  unfold State.dread; (repeat' split) <;> simp
@[simp] theorem State.dread_xram (s : State) (a : DAddr) : ((s.dread a).2).xram = s.xram := by
  unfold State.dread; (repeat' split) <;> simp
@[simp] theorem State.dread_wram (s : State) (a : DAddr) : ((s.dread a).2).wram = s.wram := by
  unfold State.dread; (repeat' split) <;> simp
@[simp] theorem State.dread_rom (s : State) (a : DAddr) : ((s.dread a).2).rom = s.rom := by
  unfold State.dread; (repeat' split) <;> simp
@[simp] theorem State.dread_flash (s : State) (a : DAddr) : ((s.dread a).2).flash = s.flash := by
  unfold State.dread; (repeat' split) <;> simp
@[simp] theorem State.dread_xramBank (s : State) (a : DAddr) : ((s.dread a).2).xramBank = s.xramBank := by
  unfold State.dread; (repeat' split) <;> simp
@[simp] theorem State.dread_progSrc (s : State) (a : DAddr) : ((s.dread a).2).progSrc = s.progSrc := by
  unfold State.dread; (repeat' split) <;> simp
@[simp] theorem State.dread_pending (s : State) (a : DAddr) : ((s.dread a).2).pending = s.pending := by
  unfold State.dread; (repeat' split) <;> simp
@[simp] theorem State.dread_slot (s : State) (a : DAddr) : ((s.dread a).2).slot = s.slot := by
  unfold State.dread; (repeat' split) <;> simp
@[simp] theorem State.dread_prevLevel (s : State) (a : DAddr) : ((s.dread a).2).prevLevel = s.prevLevel := by
  unfold State.dread; (repeat' split) <;> simp
@[simp] theorem State.dread_suppress (s : State) (a : DAddr) : ((s.dread a).2).suppress = s.suppress := by
  unfold State.dread; (repeat' split) <;> simp
@[simp] theorem State.dread_rrLast (s : State) (a : DAddr) : ((s.dread a).2).rrLast = s.rrLast := by
  unfold State.dread; (repeat' split) <;> simp
@[simp] theorem State.dread_fstate (s : State) (a : DAddr) : ((s.dread a).2).fstate = s.fstate := by
  unfold State.dread; (repeat' split) <;> simp
@[simp] theorem State.dread_fcount (s : State) (a : DAddr) : ((s.dread a).2).fcount = s.fcount := by
  unfold State.dread; (repeat' split) <;> simp
@[simp] theorem State.dread_lastCycles (s : State) (a : DAddr) : ((s.dread a).2).lastCycles = s.lastCycles := by
  unfold State.dread; (repeat' split) <;> simp
@[simp] theorem State.dread_errorLog (s : State) (a : DAddr) : ((s.dread a).2).errorLog = s.errorLog := by
  unfold State.dread; (repeat' split) <;> simp
@[simp] theorem State.dread_eventLog (s : State) (a : DAddr) : ((s.dread a).2).eventLog = s.eventLog := by
  unfold State.dread; (repeat' split) <;> simp
@[simp] theorem State.dread_ipc (s : State) (a : DAddr) : ((s.dread a).2).ipc = s.ipc := by
  unfold State.dread; (repeat' split) <;> simp
@[simp] theorem State.dread_arrivals (s : State) (a : DAddr) : ((s.dread a).2).arrivals = s.arrivals := by
  unfold State.dread; (repeat' split) <;> simp
@[simp] theorem State.dread_faultReport (s : State) (a : DAddr) : ((s.dread a).2).faultReport = s.faultReport := by
  unfold State.dread; (repeat' split) <;> simp

/-! `State.dreadLatch` leaves every field but sfr, draws alone. -/

@[simp] theorem State.dreadLatch_pc (s : State) (a : DAddr) : ((s.dreadLatch a).2).pc = s.pc := by
  unfold State.dreadLatch; split <;> simp
@[simp] theorem State.dreadLatch_ram (s : State) (a : DAddr) : ((s.dreadLatch a).2).ram = s.ram := by
  unfold State.dreadLatch; split <;> simp
@[simp] theorem State.dreadLatch_xram (s : State) (a : DAddr) : ((s.dreadLatch a).2).xram = s.xram := by
  unfold State.dreadLatch; split <;> simp
@[simp] theorem State.dreadLatch_wram (s : State) (a : DAddr) : ((s.dreadLatch a).2).wram = s.wram := by
  unfold State.dreadLatch; split <;> simp
@[simp] theorem State.dreadLatch_rom (s : State) (a : DAddr) : ((s.dreadLatch a).2).rom = s.rom := by
  unfold State.dreadLatch; split <;> simp
@[simp] theorem State.dreadLatch_flash (s : State) (a : DAddr) : ((s.dreadLatch a).2).flash = s.flash := by
  unfold State.dreadLatch; split <;> simp
@[simp] theorem State.dreadLatch_xramBank (s : State) (a : DAddr) : ((s.dreadLatch a).2).xramBank = s.xramBank := by
  unfold State.dreadLatch; split <;> simp
@[simp] theorem State.dreadLatch_progSrc (s : State) (a : DAddr) : ((s.dreadLatch a).2).progSrc = s.progSrc := by
  unfold State.dreadLatch; split <;> simp
@[simp] theorem State.dreadLatch_pending (s : State) (a : DAddr) : ((s.dreadLatch a).2).pending = s.pending := by
  unfold State.dreadLatch; split <;> simp
@[simp] theorem State.dreadLatch_slot (s : State) (a : DAddr) : ((s.dreadLatch a).2).slot = s.slot := by
  unfold State.dreadLatch; split <;> simp
@[simp] theorem State.dreadLatch_prevLevel (s : State) (a : DAddr) : ((s.dreadLatch a).2).prevLevel = s.prevLevel := by
  unfold State.dreadLatch; split <;> simp
@[simp] theorem State.dreadLatch_suppress (s : State) (a : DAddr) : ((s.dreadLatch a).2).suppress = s.suppress := by
  unfold State.dreadLatch; split <;> simp
@[simp] theorem State.dreadLatch_rrLast (s : State) (a : DAddr) : ((s.dreadLatch a).2).rrLast = s.rrLast := by
  unfold State.dreadLatch; split <;> simp
@[simp] theorem State.dreadLatch_fstate (s : State) (a : DAddr) : ((s.dreadLatch a).2).fstate = s.fstate := by
  unfold State.dreadLatch; split <;> simp
@[simp] theorem State.dreadLatch_fcount (s : State) (a : DAddr) : ((s.dreadLatch a).2).fcount = s.fcount := by
  unfold State.dreadLatch; split <;> simp
@[simp] theorem State.dreadLatch_lastCycles (s : State) (a : DAddr) : ((s.dreadLatch a).2).lastCycles = s.lastCycles := by
  unfold State.dreadLatch; split <;> simp
@[simp] theorem State.dreadLatch_errorLog (s : State) (a : DAddr) : ((s.dreadLatch a).2).errorLog = s.errorLog := by
  unfold State.dreadLatch; split <;> simp
@[simp] theorem State.dreadLatch_eventLog (s : State) (a : DAddr) : ((s.dreadLatch a).2).eventLog = s.eventLog := by
  unfold State.dreadLatch; split <;> simp
@[simp] theorem State.dreadLatch_ipc (s : State) (a : DAddr) : ((s.dreadLatch a).2).ipc = s.ipc := by
  unfold State.dreadLatch; split <;> simp
@[simp] theorem State.dreadLatch_arrivals (s : State) (a : DAddr) : ((s.dreadLatch a).2).arrivals = s.arrivals := by
  unfold State.dreadLatch; split <;> simp
@[simp] theorem State.dreadLatch_faultReport (s : State) (a : DAddr) : ((s.dreadLatch a).2).faultReport = s.faultReport := by
  unfold State.dreadLatch; split <;> simp

/-! `State.extEffect` leaves every field but pc, progSrc, errorLog, faultReport alone. -/

@[simp] theorem State.extEffect_ram (s : State) (v : Byte) : (s.extEffect v).ram = s.ram := by
  unfold State.extEffect; dsimp only; (repeat' split) <;> rfl
@[simp] theorem State.extEffect_sfr (s : State) (v : Byte) : (s.extEffect v).sfr = s.sfr := by
  unfold State.extEffect; dsimp only; (repeat' split) <;> rfl
@[simp] theorem State.extEffect_xram (s : State) (v : Byte) : (s.extEffect v).xram = s.xram := by
  unfold State.extEffect; dsimp only; (repeat' split) <;> rfl
@[simp] theorem State.extEffect_wram (s : State) (v : Byte) : (s.extEffect v).wram = s.wram := by
  unfold State.extEffect; dsimp only; (repeat' split) <;> rfl
@[simp] theorem State.extEffect_rom (s : State) (v : Byte) : (s.extEffect v).rom = s.rom := by
  unfold State.extEffect; dsimp only; (repeat' split) <;> rfl
@[simp] theorem State.extEffect_flash (s : State) (v : Byte) : (s.extEffect v).flash = s.flash := by
  unfold State.extEffect; dsimp only; (repeat' split) <;> rfl
@[simp] theorem State.extEffect_xramBank (s : State) (v : Byte) : (s.extEffect v).xramBank = s.xramBank := by
  unfold State.extEffect; dsimp only; (repeat' split) <;> rfl
@[simp] theorem State.extEffect_pending (s : State) (v : Byte) : (s.extEffect v).pending = s.pending := by
  unfold State.extEffect; dsimp only; (repeat' split) <;> rfl
@[simp] theorem State.extEffect_slot (s : State) (v : Byte) : (s.extEffect v).slot = s.slot := by
  unfold State.extEffect; dsimp only; (repeat' split) <;> rfl
@[simp] theorem State.extEffect_prevLevel (s : State) (v : Byte) : (s.extEffect v).prevLevel = s.prevLevel := by
  unfold State.extEffect; dsimp only; (repeat' split) <;> rfl
@[simp] theorem State.extEffect_suppress (s : State) (v : Byte) : (s.extEffect v).suppress = s.suppress := by
  unfold State.extEffect; dsimp only; (repeat' split) <;> rfl
@[simp] theorem State.extEffect_rrLast (s : State) (v : Byte) : (s.extEffect v).rrLast = s.rrLast := by
  unfold State.extEffect; dsimp only; (repeat' split) <;> rfl
@[simp] theorem State.extEffect_fstate (s : State) (v : Byte) : (s.extEffect v).fstate = s.fstate := by
  unfold State.extEffect; dsimp only; (repeat' split) <;> rfl
@[simp] theorem State.extEffect_fcount (s : State) (v : Byte) : (s.extEffect v).fcount = s.fcount := by
  unfold State.extEffect; dsimp only; (repeat' split) <;> rfl
@[simp] theorem State.extEffect_lastCycles (s : State) (v : Byte) : (s.extEffect v).lastCycles = s.lastCycles := by
  unfold State.extEffect; dsimp only; (repeat' split) <;> rfl
@[simp] theorem State.extEffect_eventLog (s : State) (v : Byte) : (s.extEffect v).eventLog = s.eventLog := by
  unfold State.extEffect; dsimp only; (repeat' split) <;> rfl
@[simp] theorem State.extEffect_ipc (s : State) (v : Byte) : (s.extEffect v).ipc = s.ipc := by
  unfold State.extEffect; dsimp only; (repeat' split) <;> rfl
@[simp] theorem State.extEffect_draws (s : State) (v : Byte) : (s.extEffect v).draws = s.draws := by
  unfold State.extEffect; dsimp only; (repeat' split) <;> rfl
@[simp] theorem State.extEffect_arrivals (s : State) (v : Byte) : (s.extEffect v).arrivals = s.arrivals := by
  unfold State.extEffect; dsimp only; (repeat' split) <;> rfl

/-! `State.xbnkEffect` leaves every field but xramBank, errorLog, faultReport alone. -/

@[simp] theorem State.xbnkEffect_pc (s : State) (v : Byte) : (s.xbnkEffect v).pc = s.pc := by
  unfold State.xbnkEffect; split <;> rfl
@[simp] theorem State.xbnkEffect_ram (s : State) (v : Byte) : (s.xbnkEffect v).ram = s.ram := by
  unfold State.xbnkEffect; split <;> rfl
@[simp] theorem State.xbnkEffect_sfr (s : State) (v : Byte) : (s.xbnkEffect v).sfr = s.sfr := by
  unfold State.xbnkEffect; split <;> rfl
@[simp] theorem State.xbnkEffect_xram (s : State) (v : Byte) : (s.xbnkEffect v).xram = s.xram := by
  unfold State.xbnkEffect; split <;> rfl
@[simp] theorem State.xbnkEffect_wram (s : State) (v : Byte) : (s.xbnkEffect v).wram = s.wram := by
  unfold State.xbnkEffect; split <;> rfl
@[simp] theorem State.xbnkEffect_rom (s : State) (v : Byte) : (s.xbnkEffect v).rom = s.rom := by
  unfold State.xbnkEffect; split <;> rfl
@[simp] theorem State.xbnkEffect_flash (s : State) (v : Byte) : (s.xbnkEffect v).flash = s.flash := by
  unfold State.xbnkEffect; split <;> rfl
@[simp] theorem State.xbnkEffect_progSrc (s : State) (v : Byte) : (s.xbnkEffect v).progSrc = s.progSrc := by
  unfold State.xbnkEffect; split <;> rfl
@[simp] theorem State.xbnkEffect_pending (s : State) (v : Byte) : (s.xbnkEffect v).pending = s.pending := by
  unfold State.xbnkEffect; split <;> rfl
@[simp] theorem State.xbnkEffect_slot (s : State) (v : Byte) : (s.xbnkEffect v).slot = s.slot := by
  unfold State.xbnkEffect; split <;> rfl
@[simp] theorem State.xbnkEffect_prevLevel (s : State) (v : Byte) : (s.xbnkEffect v).prevLevel = s.prevLevel := by
  unfold State.xbnkEffect; split <;> rfl
@[simp] theorem State.xbnkEffect_suppress (s : State) (v : Byte) : (s.xbnkEffect v).suppress = s.suppress := by
  unfold State.xbnkEffect; split <;> rfl
@[simp] theorem State.xbnkEffect_rrLast (s : State) (v : Byte) : (s.xbnkEffect v).rrLast = s.rrLast := by
  unfold State.xbnkEffect; split <;> rfl
@[simp] theorem State.xbnkEffect_fstate (s : State) (v : Byte) : (s.xbnkEffect v).fstate = s.fstate := by
  unfold State.xbnkEffect; split <;> rfl
@[simp] theorem State.xbnkEffect_fcount (s : State) (v : Byte) : (s.xbnkEffect v).fcount = s.fcount := by
  unfold State.xbnkEffect; split <;> rfl
@[simp] theorem State.xbnkEffect_lastCycles (s : State) (v : Byte) : (s.xbnkEffect v).lastCycles = s.lastCycles := by
  unfold State.xbnkEffect; split <;> rfl
@[simp] theorem State.xbnkEffect_eventLog (s : State) (v : Byte) : (s.xbnkEffect v).eventLog = s.eventLog := by
  unfold State.xbnkEffect; split <;> rfl
@[simp] theorem State.xbnkEffect_ipc (s : State) (v : Byte) : (s.xbnkEffect v).ipc = s.ipc := by
  unfold State.xbnkEffect; split <;> rfl
@[simp] theorem State.xbnkEffect_draws (s : State) (v : Byte) : (s.xbnkEffect v).draws = s.draws := by
  unfold State.xbnkEffect; split <;> rfl
@[simp] theorem State.xbnkEffect_arrivals (s : State) (v : Byte) : (s.xbnkEffect v).arrivals = s.arrivals := by
  unfold State.xbnkEffect; split <;> rfl

/-! `State.vccrEffect` leaves every field but eventLog alone. -/

@[simp] theorem State.vccrEffect_pc (s : State) (v : Byte) : (s.vccrEffect v).pc = s.pc := by unfold State.vccrEffect; split <;> rfl
@[simp] theorem State.vccrEffect_ram (s : State) (v : Byte) : (s.vccrEffect v).ram = s.ram := by unfold State.vccrEffect; split <;> rfl
@[simp] theorem State.vccrEffect_sfr (s : State) (v : Byte) : (s.vccrEffect v).sfr = s.sfr := by unfold State.vccrEffect; split <;> rfl
@[simp] theorem State.vccrEffect_xram (s : State) (v : Byte) : (s.vccrEffect v).xram = s.xram := by unfold State.vccrEffect; split <;> rfl
@[simp] theorem State.vccrEffect_wram (s : State) (v : Byte) : (s.vccrEffect v).wram = s.wram := by unfold State.vccrEffect; split <;> rfl
@[simp] theorem State.vccrEffect_rom (s : State) (v : Byte) : (s.vccrEffect v).rom = s.rom := by unfold State.vccrEffect; split <;> rfl
@[simp] theorem State.vccrEffect_flash (s : State) (v : Byte) : (s.vccrEffect v).flash = s.flash := by unfold State.vccrEffect; split <;> rfl
@[simp] theorem State.vccrEffect_xramBank (s : State) (v : Byte) : (s.vccrEffect v).xramBank = s.xramBank := by unfold State.vccrEffect; split <;> rfl
@[simp] theorem State.vccrEffect_progSrc (s : State) (v : Byte) : (s.vccrEffect v).progSrc = s.progSrc := by unfold State.vccrEffect; split <;> rfl
@[simp] theorem State.vccrEffect_pending (s : State) (v : Byte) : (s.vccrEffect v).pending = s.pending := by unfold State.vccrEffect; split <;> rfl
@[simp] theorem State.vccrEffect_slot (s : State) (v : Byte) : (s.vccrEffect v).slot = s.slot := by unfold State.vccrEffect; split <;> rfl
@[simp] theorem State.vccrEffect_prevLevel (s : State) (v : Byte) : (s.vccrEffect v).prevLevel = s.prevLevel := by unfold State.vccrEffect; split <;> rfl
@[simp] theorem State.vccrEffect_suppress (s : State) (v : Byte) : (s.vccrEffect v).suppress = s.suppress := by unfold State.vccrEffect; split <;> rfl
@[simp] theorem State.vccrEffect_rrLast (s : State) (v : Byte) : (s.vccrEffect v).rrLast = s.rrLast := by unfold State.vccrEffect; split <;> rfl
@[simp] theorem State.vccrEffect_fstate (s : State) (v : Byte) : (s.vccrEffect v).fstate = s.fstate := by unfold State.vccrEffect; split <;> rfl
@[simp] theorem State.vccrEffect_fcount (s : State) (v : Byte) : (s.vccrEffect v).fcount = s.fcount := by unfold State.vccrEffect; split <;> rfl
@[simp] theorem State.vccrEffect_lastCycles (s : State) (v : Byte) : (s.vccrEffect v).lastCycles = s.lastCycles := by unfold State.vccrEffect; split <;> rfl
@[simp] theorem State.vccrEffect_errorLog (s : State) (v : Byte) : (s.vccrEffect v).errorLog = s.errorLog := by unfold State.vccrEffect; split <;> rfl
@[simp] theorem State.vccrEffect_ipc (s : State) (v : Byte) : (s.vccrEffect v).ipc = s.ipc := by unfold State.vccrEffect; split <;> rfl
@[simp] theorem State.vccrEffect_draws (s : State) (v : Byte) : (s.vccrEffect v).draws = s.draws := by unfold State.vccrEffect; split <;> rfl
@[simp] theorem State.vccrEffect_arrivals (s : State) (v : Byte) : (s.vccrEffect v).arrivals = s.arrivals := by unfold State.vccrEffect; split <;> rfl
@[simp] theorem State.vccrEffect_faultReport (s : State) (v : Byte) : (s.vccrEffect v).faultReport = s.faultReport := by unfold State.vccrEffect; split <;> rfl

/-! `State.writeEffect` leaves every field but pc, sfr, wram, xramBank, progSrc, errorLog, eventLog, faultReport alone. -/

@[simp] theorem State.writeEffect_ram (s : State) (a : DAddr) (v : Byte) : (s.writeEffect a v).ram = s.ram := by
  unfold State.writeEffect; (repeat' split) <;> simp
@[simp] theorem State.writeEffect_xram (s : State) (a : DAddr) (v : Byte) : (s.writeEffect a v).xram = s.xram := by
  unfold State.writeEffect; (repeat' split) <;> simp
@[simp] theorem State.writeEffect_rom (s : State) (a : DAddr) (v : Byte) : (s.writeEffect a v).rom = s.rom := by
  unfold State.writeEffect; (repeat' split) <;> simp
@[simp] theorem State.writeEffect_flash (s : State) (a : DAddr) (v : Byte) : (s.writeEffect a v).flash = s.flash := by
  unfold State.writeEffect; (repeat' split) <;> simp
@[simp] theorem State.writeEffect_pending (s : State) (a : DAddr) (v : Byte) : (s.writeEffect a v).pending = s.pending := by
  unfold State.writeEffect; (repeat' split) <;> simp
@[simp] theorem State.writeEffect_slot (s : State) (a : DAddr) (v : Byte) : (s.writeEffect a v).slot = s.slot := by
  unfold State.writeEffect; (repeat' split) <;> simp
@[simp] theorem State.writeEffect_prevLevel (s : State) (a : DAddr) (v : Byte) : (s.writeEffect a v).prevLevel = s.prevLevel := by
  unfold State.writeEffect; (repeat' split) <;> simp
@[simp] theorem State.writeEffect_suppress (s : State) (a : DAddr) (v : Byte) : (s.writeEffect a v).suppress = s.suppress := by
  unfold State.writeEffect; (repeat' split) <;> simp
@[simp] theorem State.writeEffect_rrLast (s : State) (a : DAddr) (v : Byte) : (s.writeEffect a v).rrLast = s.rrLast := by
  unfold State.writeEffect; (repeat' split) <;> simp
@[simp] theorem State.writeEffect_fstate (s : State) (a : DAddr) (v : Byte) : (s.writeEffect a v).fstate = s.fstate := by
  unfold State.writeEffect; (repeat' split) <;> simp
@[simp] theorem State.writeEffect_fcount (s : State) (a : DAddr) (v : Byte) : (s.writeEffect a v).fcount = s.fcount := by
  unfold State.writeEffect; (repeat' split) <;> simp
@[simp] theorem State.writeEffect_lastCycles (s : State) (a : DAddr) (v : Byte) : (s.writeEffect a v).lastCycles = s.lastCycles := by
  unfold State.writeEffect; (repeat' split) <;> simp
@[simp] theorem State.writeEffect_ipc (s : State) (a : DAddr) (v : Byte) : (s.writeEffect a v).ipc = s.ipc := by
  unfold State.writeEffect; (repeat' split) <;> simp
@[simp] theorem State.writeEffect_draws (s : State) (a : DAddr) (v : Byte) : (s.writeEffect a v).draws = s.draws := by
  unfold State.writeEffect; (repeat' split) <;> simp
@[simp] theorem State.writeEffect_arrivals (s : State) (a : DAddr) (v : Byte) : (s.writeEffect a v).arrivals = s.arrivals := by
  unfold State.writeEffect; (repeat' split) <;> simp

/-! `State.noteDirty` leaves every field but eventLog alone. -/

@[simp] theorem State.noteDirty_pc (s : State) (a : DAddr) (v : Byte) : (s.noteDirty a v).pc = s.pc := by
  unfold State.noteDirty; split <;> rfl
@[simp] theorem State.noteDirty_ram (s : State) (a : DAddr) (v : Byte) : (s.noteDirty a v).ram = s.ram := by
  unfold State.noteDirty; split <;> rfl
@[simp] theorem State.noteDirty_sfr (s : State) (a : DAddr) (v : Byte) : (s.noteDirty a v).sfr = s.sfr := by
  unfold State.noteDirty; split <;> rfl
@[simp] theorem State.noteDirty_xram (s : State) (a : DAddr) (v : Byte) : (s.noteDirty a v).xram = s.xram := by
  unfold State.noteDirty; split <;> rfl
@[simp] theorem State.noteDirty_wram (s : State) (a : DAddr) (v : Byte) : (s.noteDirty a v).wram = s.wram := by
  unfold State.noteDirty; split <;> rfl
@[simp] theorem State.noteDirty_rom (s : State) (a : DAddr) (v : Byte) : (s.noteDirty a v).rom = s.rom := by
  unfold State.noteDirty; split <;> rfl
@[simp] theorem State.noteDirty_flash (s : State) (a : DAddr) (v : Byte) : (s.noteDirty a v).flash = s.flash := by
  unfold State.noteDirty; split <;> rfl
@[simp] theorem State.noteDirty_xramBank (s : State) (a : DAddr) (v : Byte) : (s.noteDirty a v).xramBank = s.xramBank := by
  unfold State.noteDirty; split <;> rfl
@[simp] theorem State.noteDirty_progSrc (s : State) (a : DAddr) (v : Byte) : (s.noteDirty a v).progSrc = s.progSrc := by
  unfold State.noteDirty; split <;> rfl
@[simp] theorem State.noteDirty_pending (s : State) (a : DAddr) (v : Byte) : (s.noteDirty a v).pending = s.pending := by
  unfold State.noteDirty; split <;> rfl
@[simp] theorem State.noteDirty_slot (s : State) (a : DAddr) (v : Byte) : (s.noteDirty a v).slot = s.slot := by
  unfold State.noteDirty; split <;> rfl
@[simp] theorem State.noteDirty_prevLevel (s : State) (a : DAddr) (v : Byte) : (s.noteDirty a v).prevLevel = s.prevLevel := by
  unfold State.noteDirty; split <;> rfl
@[simp] theorem State.noteDirty_suppress (s : State) (a : DAddr) (v : Byte) : (s.noteDirty a v).suppress = s.suppress := by
  unfold State.noteDirty; split <;> rfl
@[simp] theorem State.noteDirty_rrLast (s : State) (a : DAddr) (v : Byte) : (s.noteDirty a v).rrLast = s.rrLast := by
  unfold State.noteDirty; split <;> rfl
@[simp] theorem State.noteDirty_fstate (s : State) (a : DAddr) (v : Byte) : (s.noteDirty a v).fstate = s.fstate := by
  unfold State.noteDirty; split <;> rfl
@[simp] theorem State.noteDirty_fcount (s : State) (a : DAddr) (v : Byte) : (s.noteDirty a v).fcount = s.fcount := by
  unfold State.noteDirty; split <;> rfl
@[simp] theorem State.noteDirty_lastCycles (s : State) (a : DAddr) (v : Byte) : (s.noteDirty a v).lastCycles = s.lastCycles := by
  unfold State.noteDirty; split <;> rfl
@[simp] theorem State.noteDirty_errorLog (s : State) (a : DAddr) (v : Byte) : (s.noteDirty a v).errorLog = s.errorLog := by
  unfold State.noteDirty; split <;> rfl
@[simp] theorem State.noteDirty_ipc (s : State) (a : DAddr) (v : Byte) : (s.noteDirty a v).ipc = s.ipc := by
  unfold State.noteDirty; split <;> rfl
@[simp] theorem State.noteDirty_draws (s : State) (a : DAddr) (v : Byte) : (s.noteDirty a v).draws = s.draws := by
  unfold State.noteDirty; split <;> rfl
@[simp] theorem State.noteDirty_arrivals (s : State) (a : DAddr) (v : Byte) : (s.noteDirty a v).arrivals = s.arrivals := by
  unfold State.noteDirty; split <;> rfl
@[simp] theorem State.noteDirty_faultReport (s : State) (a : DAddr) (v : Byte) : (s.noteDirty a v).faultReport = s.faultReport := by
  unfold State.noteDirty; split <;> rfl

/-! `State.noteWrite` leaves every field but eventLog alone. -/

@[simp] theorem State.noteWrite_pc (s : State) (a : DAddr) (v : Byte) : (s.noteWrite a v).pc = s.pc := rfl
@[simp] theorem State.noteWrite_ram (s : State) (a : DAddr) (v : Byte) : (s.noteWrite a v).ram = s.ram := rfl
@[simp] theorem State.noteWrite_sfr (s : State) (a : DAddr) (v : Byte) : (s.noteWrite a v).sfr = s.sfr := rfl
@[simp] theorem State.noteWrite_xram (s : State) (a : DAddr) (v : Byte) : (s.noteWrite a v).xram = s.xram := rfl
@[simp] theorem State.noteWrite_wram (s : State) (a : DAddr) (v : Byte) : (s.noteWrite a v).wram = s.wram := rfl
@[simp] theorem State.noteWrite_rom (s : State) (a : DAddr) (v : Byte) : (s.noteWrite a v).rom = s.rom := rfl
@[simp] theorem State.noteWrite_flash (s : State) (a : DAddr) (v : Byte) : (s.noteWrite a v).flash = s.flash := rfl
@[simp] theorem State.noteWrite_xramBank (s : State) (a : DAddr) (v : Byte) : (s.noteWrite a v).xramBank = s.xramBank := rfl
@[simp] theorem State.noteWrite_progSrc (s : State) (a : DAddr) (v : Byte) : (s.noteWrite a v).progSrc = s.progSrc := rfl
@[simp] theorem State.noteWrite_pending (s : State) (a : DAddr) (v : Byte) : (s.noteWrite a v).pending = s.pending := rfl
@[simp] theorem State.noteWrite_slot (s : State) (a : DAddr) (v : Byte) : (s.noteWrite a v).slot = s.slot := rfl
@[simp] theorem State.noteWrite_prevLevel (s : State) (a : DAddr) (v : Byte) : (s.noteWrite a v).prevLevel = s.prevLevel := rfl
@[simp] theorem State.noteWrite_suppress (s : State) (a : DAddr) (v : Byte) : (s.noteWrite a v).suppress = s.suppress := rfl
@[simp] theorem State.noteWrite_rrLast (s : State) (a : DAddr) (v : Byte) : (s.noteWrite a v).rrLast = s.rrLast := rfl
@[simp] theorem State.noteWrite_fstate (s : State) (a : DAddr) (v : Byte) : (s.noteWrite a v).fstate = s.fstate := rfl
@[simp] theorem State.noteWrite_fcount (s : State) (a : DAddr) (v : Byte) : (s.noteWrite a v).fcount = s.fcount := rfl
@[simp] theorem State.noteWrite_lastCycles (s : State) (a : DAddr) (v : Byte) : (s.noteWrite a v).lastCycles = s.lastCycles := rfl
@[simp] theorem State.noteWrite_errorLog (s : State) (a : DAddr) (v : Byte) : (s.noteWrite a v).errorLog = s.errorLog := rfl
@[simp] theorem State.noteWrite_ipc (s : State) (a : DAddr) (v : Byte) : (s.noteWrite a v).ipc = s.ipc := rfl
@[simp] theorem State.noteWrite_draws (s : State) (a : DAddr) (v : Byte) : (s.noteWrite a v).draws = s.draws := rfl
@[simp] theorem State.noteWrite_arrivals (s : State) (a : DAddr) (v : Byte) : (s.noteWrite a v).arrivals = s.arrivals := rfl
@[simp] theorem State.noteWrite_faultReport (s : State) (a : DAddr) (v : Byte) : (s.noteWrite a v).faultReport = s.faultReport := rfl
@[simp] theorem State.noteWrite_eventLog (s : State) (a : DAddr) (v : Byte) :
    (s.noteWrite a v).eventLog = s.eventLog ++ [.sinkWrite a v, .memoryChanged a v] := by
  simp [State.noteWrite]

/-! `State.dwrite` leaves every field but pc, ram, sfr, xram, wram, xramBank, progSrc, errorLog, eventLog, faultReport alone. -/

@[simp] theorem State.dwrite_rom (s : State) (a : DAddr) (v : Byte) : (s.dwrite a v).rom = s.rom := by simp [State.dwrite]
@[simp] theorem State.dwrite_flash (s : State) (a : DAddr) (v : Byte) : (s.dwrite a v).flash = s.flash := by simp [State.dwrite]
@[simp] theorem State.dwrite_pending (s : State) (a : DAddr) (v : Byte) : (s.dwrite a v).pending = s.pending := by simp [State.dwrite]
@[simp] theorem State.dwrite_slot (s : State) (a : DAddr) (v : Byte) : (s.dwrite a v).slot = s.slot := by simp [State.dwrite]
@[simp] theorem State.dwrite_prevLevel (s : State) (a : DAddr) (v : Byte) : (s.dwrite a v).prevLevel = s.prevLevel := by simp [State.dwrite]
@[simp] theorem State.dwrite_suppress (s : State) (a : DAddr) (v : Byte) : (s.dwrite a v).suppress = s.suppress := by simp [State.dwrite]
@[simp] theorem State.dwrite_rrLast (s : State) (a : DAddr) (v : Byte) : (s.dwrite a v).rrLast = s.rrLast := by simp [State.dwrite]
@[simp] theorem State.dwrite_fstate (s : State) (a : DAddr) (v : Byte) : (s.dwrite a v).fstate = s.fstate := by simp [State.dwrite]
@[simp] theorem State.dwrite_fcount (s : State) (a : DAddr) (v : Byte) : (s.dwrite a v).fcount = s.fcount := by simp [State.dwrite]
@[simp] theorem State.dwrite_lastCycles (s : State) (a : DAddr) (v : Byte) : (s.dwrite a v).lastCycles = s.lastCycles := by simp [State.dwrite]
@[simp] theorem State.dwrite_ipc (s : State) (a : DAddr) (v : Byte) : (s.dwrite a v).ipc = s.ipc := by simp [State.dwrite]
@[simp] theorem State.dwrite_draws (s : State) (a : DAddr) (v : Byte) : (s.dwrite a v).draws = s.draws := by simp [State.dwrite]
@[simp] theorem State.dwrite_arrivals (s : State) (a : DAddr) (v : Byte) : (s.dwrite a v).arrivals = s.arrivals := by simp [State.dwrite]

/-! `State.writeReg` leaves every field but pc, ram, sfr, xram, wram, xramBank, progSrc, errorLog, eventLog, faultReport alone. -/

@[simp] theorem State.writeReg_rom (s : State) (r : Sfr) (v : Byte) : (s.writeReg r v).rom = s.rom := by simp [State.writeReg]
@[simp] theorem State.writeReg_flash (s : State) (r : Sfr) (v : Byte) : (s.writeReg r v).flash = s.flash := by simp [State.writeReg]
@[simp] theorem State.writeReg_pending (s : State) (r : Sfr) (v : Byte) : (s.writeReg r v).pending = s.pending := by simp [State.writeReg]
@[simp] theorem State.writeReg_slot (s : State) (r : Sfr) (v : Byte) : (s.writeReg r v).slot = s.slot := by simp [State.writeReg]
@[simp] theorem State.writeReg_prevLevel (s : State) (r : Sfr) (v : Byte) : (s.writeReg r v).prevLevel = s.prevLevel := by simp [State.writeReg]
@[simp] theorem State.writeReg_suppress (s : State) (r : Sfr) (v : Byte) : (s.writeReg r v).suppress = s.suppress := by simp [State.writeReg]
@[simp] theorem State.writeReg_rrLast (s : State) (r : Sfr) (v : Byte) : (s.writeReg r v).rrLast = s.rrLast := by simp [State.writeReg]
@[simp] theorem State.writeReg_fstate (s : State) (r : Sfr) (v : Byte) : (s.writeReg r v).fstate = s.fstate := by simp [State.writeReg]
@[simp] theorem State.writeReg_fcount (s : State) (r : Sfr) (v : Byte) : (s.writeReg r v).fcount = s.fcount := by simp [State.writeReg]
@[simp] theorem State.writeReg_lastCycles (s : State) (r : Sfr) (v : Byte) : (s.writeReg r v).lastCycles = s.lastCycles := by simp [State.writeReg]
@[simp] theorem State.writeReg_ipc (s : State) (r : Sfr) (v : Byte) : (s.writeReg r v).ipc = s.ipc := by simp [State.writeReg]
@[simp] theorem State.writeReg_draws (s : State) (r : Sfr) (v : Byte) : (s.writeReg r v).draws = s.draws := by simp [State.writeReg]
@[simp] theorem State.writeReg_arrivals (s : State) (r : Sfr) (v : Byte) : (s.writeReg r v).arrivals = s.arrivals := by simp [State.writeReg]

/-! `State.push` leaves every field but ram, sfr, errorLog alone. -/

@[simp] theorem State.push_pc (s : State) (v : Byte) : (s.push v).pc = s.pc := by
  unfold State.push; dsimp only; split <;> rfl
@[simp] theorem State.push_xram (s : State) (v : Byte) : (s.push v).xram = s.xram := by
  unfold State.push; dsimp only; split <;> rfl
@[simp] theorem State.push_wram (s : State) (v : Byte) : (s.push v).wram = s.wram := by
  unfold State.push; dsimp only; split <;> rfl
@[simp] theorem State.push_rom (s : State) (v : Byte) : (s.push v).rom = s.rom := by
  unfold State.push; dsimp only; split <;> rfl
@[simp] theorem State.push_flash (s : State) (v : Byte) : (s.push v).flash = s.flash := by
  unfold State.push; dsimp only; split <;> rfl
@[simp] theorem State.push_xramBank (s : State) (v : Byte) : (s.push v).xramBank = s.xramBank := by
  unfold State.push; dsimp only; split <;> rfl
@[simp] theorem State.push_progSrc (s : State) (v : Byte) : (s.push v).progSrc = s.progSrc := by
  unfold State.push; dsimp only; split <;> rfl
@[simp] theorem State.push_pending (s : State) (v : Byte) : (s.push v).pending = s.pending := by
  unfold State.push; dsimp only; split <;> rfl
@[simp] theorem State.push_slot (s : State) (v : Byte) : (s.push v).slot = s.slot := by
  unfold State.push; dsimp only; split <;> rfl
@[simp] theorem State.push_prevLevel (s : State) (v : Byte) : (s.push v).prevLevel = s.prevLevel := by
  unfold State.push; dsimp only; split <;> rfl
@[simp] theorem State.push_suppress (s : State) (v : Byte) : (s.push v).suppress = s.suppress := by
  unfold State.push; dsimp only; split <;> rfl
@[simp] theorem State.push_rrLast (s : State) (v : Byte) : (s.push v).rrLast = s.rrLast := by
  unfold State.push; dsimp only; split <;> rfl
@[simp] theorem State.push_fstate (s : State) (v : Byte) : (s.push v).fstate = s.fstate := by
  unfold State.push; dsimp only; split <;> rfl
@[simp] theorem State.push_fcount (s : State) (v : Byte) : (s.push v).fcount = s.fcount := by
  unfold State.push; dsimp only; split <;> rfl
@[simp] theorem State.push_lastCycles (s : State) (v : Byte) : (s.push v).lastCycles = s.lastCycles := by
  unfold State.push; dsimp only; split <;> rfl
@[simp] theorem State.push_eventLog (s : State) (v : Byte) : (s.push v).eventLog = s.eventLog := by
  unfold State.push; dsimp only; split <;> rfl
@[simp] theorem State.push_ipc (s : State) (v : Byte) : (s.push v).ipc = s.ipc := by
  unfold State.push; dsimp only; split <;> rfl
@[simp] theorem State.push_draws (s : State) (v : Byte) : (s.push v).draws = s.draws := by
  unfold State.push; dsimp only; split <;> rfl
@[simp] theorem State.push_arrivals (s : State) (v : Byte) : (s.push v).arrivals = s.arrivals := by
  unfold State.push; dsimp only; split <;> rfl
@[simp] theorem State.push_faultReport (s : State) (v : Byte) : (s.push v).faultReport = s.faultReport := by
  unfold State.push; dsimp only; split <;> rfl

/-! `State.pop` leaves every field but sfr, errorLog alone. -/

@[simp] theorem State.pop_pc (s : State) : (s.pop.2).pc = s.pc := by unfold State.pop; dsimp only; split <;> rfl
@[simp] theorem State.pop_ram (s : State) : (s.pop.2).ram = s.ram := by unfold State.pop; dsimp only; split <;> rfl
@[simp] theorem State.pop_xram (s : State) : (s.pop.2).xram = s.xram := by unfold State.pop; dsimp only; split <;> rfl
@[simp] theorem State.pop_wram (s : State) : (s.pop.2).wram = s.wram := by unfold State.pop; dsimp only; split <;> rfl
@[simp] theorem State.pop_rom (s : State) : (s.pop.2).rom = s.rom := by unfold State.pop; dsimp only; split <;> rfl
@[simp] theorem State.pop_flash (s : State) : (s.pop.2).flash = s.flash := by unfold State.pop; dsimp only; split <;> rfl
@[simp] theorem State.pop_xramBank (s : State) : (s.pop.2).xramBank = s.xramBank := by unfold State.pop; dsimp only; split <;> rfl
@[simp] theorem State.pop_progSrc (s : State) : (s.pop.2).progSrc = s.progSrc := by unfold State.pop; dsimp only; split <;> rfl
@[simp] theorem State.pop_pending (s : State) : (s.pop.2).pending = s.pending := by unfold State.pop; dsimp only; split <;> rfl
@[simp] theorem State.pop_slot (s : State) : (s.pop.2).slot = s.slot := by unfold State.pop; dsimp only; split <;> rfl
@[simp] theorem State.pop_prevLevel (s : State) : (s.pop.2).prevLevel = s.prevLevel := by unfold State.pop; dsimp only; split <;> rfl
@[simp] theorem State.pop_suppress (s : State) : (s.pop.2).suppress = s.suppress := by unfold State.pop; dsimp only; split <;> rfl
@[simp] theorem State.pop_rrLast (s : State) : (s.pop.2).rrLast = s.rrLast := by unfold State.pop; dsimp only; split <;> rfl
@[simp] theorem State.pop_fstate (s : State) : (s.pop.2).fstate = s.fstate := by unfold State.pop; dsimp only; split <;> rfl
@[simp] theorem State.pop_fcount (s : State) : (s.pop.2).fcount = s.fcount := by unfold State.pop; dsimp only; split <;> rfl
@[simp] theorem State.pop_lastCycles (s : State) : (s.pop.2).lastCycles = s.lastCycles := by unfold State.pop; dsimp only; split <;> rfl
@[simp] theorem State.pop_eventLog (s : State) : (s.pop.2).eventLog = s.eventLog := by unfold State.pop; dsimp only; split <;> rfl
@[simp] theorem State.pop_ipc (s : State) : (s.pop.2).ipc = s.ipc := by unfold State.pop; dsimp only; split <;> rfl
@[simp] theorem State.pop_draws (s : State) : (s.pop.2).draws = s.draws := by unfold State.pop; dsimp only; split <;> rfl
@[simp] theorem State.pop_arrivals (s : State) : (s.pop.2).arrivals = s.arrivals := by unfold State.pop; dsimp only; split <;> rfl
@[simp] theorem State.pop_faultReport (s : State) : (s.pop.2).faultReport = s.faultReport := by unfold State.pop; dsimp only; split <;> rfl

/-! `State.pushPC` leaves every field but ram, sfr, errorLog alone. -/

@[simp] theorem State.pushPC_pc (s : State) (t : PAddr) : (s.pushPC t).pc = s.pc := by simp [State.pushPC]
@[simp] theorem State.pushPC_xram (s : State) (t : PAddr) : (s.pushPC t).xram = s.xram := by simp [State.pushPC]
@[simp] theorem State.pushPC_wram (s : State) (t : PAddr) : (s.pushPC t).wram = s.wram := by simp [State.pushPC]
@[simp] theorem State.pushPC_rom (s : State) (t : PAddr) : (s.pushPC t).rom = s.rom := by simp [State.pushPC]
@[simp] theorem State.pushPC_flash (s : State) (t : PAddr) : (s.pushPC t).flash = s.flash := by simp [State.pushPC]
@[simp] theorem State.pushPC_xramBank (s : State) (t : PAddr) : (s.pushPC t).xramBank = s.xramBank := by simp [State.pushPC]
@[simp] theorem State.pushPC_progSrc (s : State) (t : PAddr) : (s.pushPC t).progSrc = s.progSrc := by simp [State.pushPC]
@[simp] theorem State.pushPC_pending (s : State) (t : PAddr) : (s.pushPC t).pending = s.pending := by simp [State.pushPC]
@[simp] theorem State.pushPC_slot (s : State) (t : PAddr) : (s.pushPC t).slot = s.slot := by simp [State.pushPC]
@[simp] theorem State.pushPC_prevLevel (s : State) (t : PAddr) : (s.pushPC t).prevLevel = s.prevLevel := by simp [State.pushPC]
@[simp] theorem State.pushPC_suppress (s : State) (t : PAddr) : (s.pushPC t).suppress = s.suppress := by simp [State.pushPC]
@[simp] theorem State.pushPC_rrLast (s : State) (t : PAddr) : (s.pushPC t).rrLast = s.rrLast := by simp [State.pushPC]
@[simp] theorem State.pushPC_fstate (s : State) (t : PAddr) : (s.pushPC t).fstate = s.fstate := by simp [State.pushPC]
@[simp] theorem State.pushPC_fcount (s : State) (t : PAddr) : (s.pushPC t).fcount = s.fcount := by simp [State.pushPC]
@[simp] theorem State.pushPC_lastCycles (s : State) (t : PAddr) : (s.pushPC t).lastCycles = s.lastCycles := by simp [State.pushPC]
@[simp] theorem State.pushPC_eventLog (s : State) (t : PAddr) : (s.pushPC t).eventLog = s.eventLog := by simp [State.pushPC]
@[simp] theorem State.pushPC_ipc (s : State) (t : PAddr) : (s.pushPC t).ipc = s.ipc := by simp [State.pushPC]
@[simp] theorem State.pushPC_draws (s : State) (t : PAddr) : (s.pushPC t).draws = s.draws := by simp [State.pushPC]
@[simp] theorem State.pushPC_arrivals (s : State) (t : PAddr) : (s.pushPC t).arrivals = s.arrivals := by simp [State.pushPC]
@[simp] theorem State.pushPC_faultReport (s : State) (t : PAddr) : (s.pushPC t).faultReport = s.faultReport := by simp [State.pushPC]

/-! `State.popPC` leaves every field but sfr, errorLog alone. -/

@[simp] theorem State.popPC_pc (s : State) : (s.popPC.2).pc = s.pc := by simp [State.popPC]
@[simp] theorem State.popPC_ram (s : State) : (s.popPC.2).ram = s.ram := by simp [State.popPC]
@[simp] theorem State.popPC_xram (s : State) : (s.popPC.2).xram = s.xram := by simp [State.popPC]
@[simp] theorem State.popPC_wram (s : State) : (s.popPC.2).wram = s.wram := by simp [State.popPC]
@[simp] theorem State.popPC_rom (s : State) : (s.popPC.2).rom = s.rom := by simp [State.popPC]
@[simp] theorem State.popPC_flash (s : State) : (s.popPC.2).flash = s.flash := by simp [State.popPC]
@[simp] theorem State.popPC_xramBank (s : State) : (s.popPC.2).xramBank = s.xramBank := by simp [State.popPC]
@[simp] theorem State.popPC_progSrc (s : State) : (s.popPC.2).progSrc = s.progSrc := by simp [State.popPC]
@[simp] theorem State.popPC_pending (s : State) : (s.popPC.2).pending = s.pending := by simp [State.popPC]
@[simp] theorem State.popPC_slot (s : State) : (s.popPC.2).slot = s.slot := by simp [State.popPC]
@[simp] theorem State.popPC_prevLevel (s : State) : (s.popPC.2).prevLevel = s.prevLevel := by simp [State.popPC]
@[simp] theorem State.popPC_suppress (s : State) : (s.popPC.2).suppress = s.suppress := by simp [State.popPC]
@[simp] theorem State.popPC_rrLast (s : State) : (s.popPC.2).rrLast = s.rrLast := by simp [State.popPC]
@[simp] theorem State.popPC_fstate (s : State) : (s.popPC.2).fstate = s.fstate := by simp [State.popPC]
@[simp] theorem State.popPC_fcount (s : State) : (s.popPC.2).fcount = s.fcount := by simp [State.popPC]
@[simp] theorem State.popPC_lastCycles (s : State) : (s.popPC.2).lastCycles = s.lastCycles := by simp [State.popPC]
@[simp] theorem State.popPC_eventLog (s : State) : (s.popPC.2).eventLog = s.eventLog := by simp [State.popPC]
@[simp] theorem State.popPC_ipc (s : State) : (s.popPC.2).ipc = s.ipc := by simp [State.popPC]
@[simp] theorem State.popPC_draws (s : State) : (s.popPC.2).draws = s.draws := by simp [State.popPC]
@[simp] theorem State.popPC_arrivals (s : State) : (s.popPC.2).arrivals = s.arrivals := by simp [State.popPC]
@[simp] theorem State.popPC_faultReport (s : State) : (s.popPC.2).faultReport = s.faultReport := by simp [State.popPC]

/-! `State.dispatch` leaves every field but pc, ram, sfr, pending, slot, suppress, rrLast, errorLog alone. -/

@[simp] theorem State.dispatch_xram (s : State) (x : IrqSource) (l : Level) : (s.dispatch x l).xram = s.xram := by
  simp [State.dispatch]
@[simp] theorem State.dispatch_wram (s : State) (x : IrqSource) (l : Level) : (s.dispatch x l).wram = s.wram := by
  simp [State.dispatch]
@[simp] theorem State.dispatch_rom (s : State) (x : IrqSource) (l : Level) : (s.dispatch x l).rom = s.rom := by
  simp [State.dispatch]
@[simp] theorem State.dispatch_flash (s : State) (x : IrqSource) (l : Level) : (s.dispatch x l).flash = s.flash := by
  simp [State.dispatch]
@[simp] theorem State.dispatch_xramBank (s : State) (x : IrqSource) (l : Level) : (s.dispatch x l).xramBank = s.xramBank := by
  simp [State.dispatch]
@[simp] theorem State.dispatch_progSrc (s : State) (x : IrqSource) (l : Level) : (s.dispatch x l).progSrc = s.progSrc := by
  simp [State.dispatch]
@[simp] theorem State.dispatch_prevLevel (s : State) (x : IrqSource) (l : Level) : (s.dispatch x l).prevLevel = s.prevLevel := by
  simp [State.dispatch]
@[simp] theorem State.dispatch_fstate (s : State) (x : IrqSource) (l : Level) : (s.dispatch x l).fstate = s.fstate := by
  simp [State.dispatch]
@[simp] theorem State.dispatch_fcount (s : State) (x : IrqSource) (l : Level) : (s.dispatch x l).fcount = s.fcount := by
  simp [State.dispatch]
@[simp] theorem State.dispatch_lastCycles (s : State) (x : IrqSource) (l : Level) : (s.dispatch x l).lastCycles = s.lastCycles := by
  simp [State.dispatch]
@[simp] theorem State.dispatch_eventLog (s : State) (x : IrqSource) (l : Level) : (s.dispatch x l).eventLog = s.eventLog := by
  simp [State.dispatch]
@[simp] theorem State.dispatch_ipc (s : State) (x : IrqSource) (l : Level) : (s.dispatch x l).ipc = s.ipc := by
  simp [State.dispatch]
@[simp] theorem State.dispatch_draws (s : State) (x : IrqSource) (l : Level) : (s.dispatch x l).draws = s.draws := by
  simp [State.dispatch]
@[simp] theorem State.dispatch_arrivals (s : State) (x : IrqSource) (l : Level) : (s.dispatch x l).arrivals = s.arrivals := by
  simp [State.dispatch]
@[simp] theorem State.dispatch_faultReport (s : State) (x : IrqSource) (l : Level) : (s.dispatch x l).faultReport = s.faultReport := by
  simp [State.dispatch]

/-! `State.returnFromInterrupt` leaves every field but pc, sfr, slot, prevLevel, errorLog alone. -/

@[simp] theorem State.returnFromInterrupt_ram (s : State) : (s.returnFromInterrupt).ram = s.ram := by
  unfold State.returnFromInterrupt; dsimp only; split <;> simp
@[simp] theorem State.returnFromInterrupt_xram (s : State) : (s.returnFromInterrupt).xram = s.xram := by
  unfold State.returnFromInterrupt; dsimp only; split <;> simp
@[simp] theorem State.returnFromInterrupt_wram (s : State) : (s.returnFromInterrupt).wram = s.wram := by
  unfold State.returnFromInterrupt; dsimp only; split <;> simp
@[simp] theorem State.returnFromInterrupt_rom (s : State) : (s.returnFromInterrupt).rom = s.rom := by
  unfold State.returnFromInterrupt; dsimp only; split <;> simp
@[simp] theorem State.returnFromInterrupt_flash (s : State) : (s.returnFromInterrupt).flash = s.flash := by
  unfold State.returnFromInterrupt; dsimp only; split <;> simp
@[simp] theorem State.returnFromInterrupt_xramBank (s : State) : (s.returnFromInterrupt).xramBank = s.xramBank := by
  unfold State.returnFromInterrupt; dsimp only; split <;> simp
@[simp] theorem State.returnFromInterrupt_progSrc (s : State) : (s.returnFromInterrupt).progSrc = s.progSrc := by
  unfold State.returnFromInterrupt; dsimp only; split <;> simp
@[simp] theorem State.returnFromInterrupt_pending (s : State) : (s.returnFromInterrupt).pending = s.pending := by
  unfold State.returnFromInterrupt; dsimp only; split <;> simp
@[simp] theorem State.returnFromInterrupt_suppress (s : State) : (s.returnFromInterrupt).suppress = s.suppress := by
  unfold State.returnFromInterrupt; dsimp only; split <;> simp
@[simp] theorem State.returnFromInterrupt_rrLast (s : State) : (s.returnFromInterrupt).rrLast = s.rrLast := by
  unfold State.returnFromInterrupt; dsimp only; split <;> simp
@[simp] theorem State.returnFromInterrupt_fstate (s : State) : (s.returnFromInterrupt).fstate = s.fstate := by
  unfold State.returnFromInterrupt; dsimp only; split <;> simp
@[simp] theorem State.returnFromInterrupt_fcount (s : State) : (s.returnFromInterrupt).fcount = s.fcount := by
  unfold State.returnFromInterrupt; dsimp only; split <;> simp
@[simp] theorem State.returnFromInterrupt_lastCycles (s : State) : (s.returnFromInterrupt).lastCycles = s.lastCycles := by
  unfold State.returnFromInterrupt; dsimp only; split <;> simp
@[simp] theorem State.returnFromInterrupt_eventLog (s : State) : (s.returnFromInterrupt).eventLog = s.eventLog := by
  unfold State.returnFromInterrupt; dsimp only; split <;> simp
@[simp] theorem State.returnFromInterrupt_ipc (s : State) : (s.returnFromInterrupt).ipc = s.ipc := by
  unfold State.returnFromInterrupt; dsimp only; split <;> simp
@[simp] theorem State.returnFromInterrupt_draws (s : State) : (s.returnFromInterrupt).draws = s.draws := by
  unfold State.returnFromInterrupt; dsimp only; split <;> simp
@[simp] theorem State.returnFromInterrupt_arrivals (s : State) : (s.returnFromInterrupt).arrivals = s.arrivals := by
  unfold State.returnFromInterrupt; dsimp only; split <;> simp
@[simp] theorem State.returnFromInterrupt_faultReport (s : State) : (s.returnFromInterrupt).faultReport = s.faultReport := by
  unfold State.returnFromInterrupt; dsimp only; split <;> simp

end Sys2Proof.Machine
end

