-- ==== Sys2Proof/Laws/Ops.lean ====
section
/-! SUPPORT. For each shared operation one lemma that says once everything it can do, in the terms of Safety.lean:
reads, latch reads, writes, the writes of named registers, push, pop and the dispatch. Later proofs cite these and do
not unfold the operations. -/

namespace Sys2Proof.Machine

open Sys2Proof.Safety

/-! ### Register indices -/

@[simp] theorem Sfr.idx_acc : Sfr.idx .acc = 0 := rfl
@[simp] theorem Sfr.idx_psw : Sfr.idx .psw = 1 := rfl
@[simp] theorem Sfr.idx_b : Sfr.idx .b = 2 := rfl
@[simp] theorem Sfr.idx_c : Sfr.idx .c = 3 := rfl
@[simp] theorem Sfr.idx_trl : Sfr.idx .trl = 4 := rfl
@[simp] theorem Sfr.idx_trh : Sfr.idx .trh = 5 := rfl
@[simp] theorem Sfr.idx_sp : Sfr.idx .sp = 6 := rfl
@[simp] theorem Sfr.idx_pcon : Sfr.idx .pcon = 7 := rfl
@[simp] theorem Sfr.idx_ie : Sfr.idx .ie = 8 := rfl
@[simp] theorem Sfr.idx_ip : Sfr.idx .ip = 9 := rfl
@[simp] theorem Sfr.idx_ext : Sfr.idx .ext = 0x0D := rfl
@[simp] theorem Sfr.idx_xbnk : Sfr.idx .xbnk = 0x25 := rfl
@[simp] theorem Sfr.idx_vccr : Sfr.idx .vccr = 0x27 := rfl
@[simp] theorem Sfr.idx_fpr : Sfr.idx .fpr = 0x54 := rfl
@[simp] theorem Sfr.idx_vsel : Sfr.idx .vsel = 0x63 := rfl
@[simp] theorem Sfr.idx_vrmad1 : Sfr.idx .vrmad1 = 0x64 := rfl
@[simp] theorem Sfr.idx_vrmad2 : Sfr.idx .vrmad2 = 0x65 := rfl
@[simp] theorem Sfr.idx_vtrbf : Sfr.idx .vtrbf = 0x66 := rfl

theorem Sfr.idx_lt (r : Sfr) : r.idx < 128 := Nat.mod_lt _ (by decide)

/-! ### Bytes -/

@[simp] theorem bitAt_getLsbD (p : Nat) (x : Bool) (k : Nat) (hp : p < 8) :
    (bitAt p x).getLsbD k = (x && decide (k = p)) := by
  unfold bitAt
  cases x
  · simp
  · interval_cases p <;> by_cases h : k < 8
    all_goals first
      | (interval_cases k <;> rfl)
      | (rw [BitVec.getLsbD_of_ge _ _ (by omega)]; simp; omega)

theorem pswByte_bit (stored a : Byte) {k : Nat} (hk : k < 8) :
    (pswByte stored a).getLsbD k = if k = 0 then parity a else stored.getLsbD k := by
  have h : (bitAt 0 (parity a)).getLsbD k = (parity a && decide (k = 0)) := bitAt_getLsbD 0 _ k (by decide)
  unfold pswByte
  rw [BitVec.getLsbD_or, BitVec.getLsbD_and, h]
  interval_cases k <;> simp

theorem pswRead_bit_zero (s : State) : (pswRead s).getLsbD 0 = decide (popcount (s.sfr.read 0) % 2 = 1) := by
  unfold pswRead
  by_cases h : popcount (s.sfr.read 0) % 2 = 1 <;> simp [h]

theorem pswRead_eq_psw (s : State) : pswRead s = s.psw := by
  unfold pswRead State.psw pswByte State.acc State.reg bitAt parity
  by_cases h : popcount (s.sfr.read 0) % 2 = 1 <;> simp [h]

/-! ### Reads -/

theorem inSet_writeOnly : ∀ a : DAddr,
    inSet writeOnlySet a = decide (a ∈ ([0x120, 0x127, 0x145, 0x146, 0x14D] : List DAddr)) := by
  decide +kernel

theorem inSet_counter : ∀ a : DAddr,
    inSet liveCounterSet a = decide (a ∈ ([0x112, 0x114, 0x11B, 0x11D] : List DAddr)) := by
  decide +kernel

theorem inSet_port : ∀ a : DAddr, inSet livePortSet a = decide (a = 0x14C) := by
  decide +kernel

theorem inSet_latch : ∀ a : DAddr,
    inSet latchSet a = decide (a ∈ ([0x11B, 0x11D, 0x144, 0x14C, 0x15C] : List DAddr)) := by
  decide +kernel

/-- The backing byte of a data address, in literal addresses (20_memory.md R71). -/
theorem State.dataByte_eq (s : State) (a : DAddr) : s.dataByte a = backing s a := by
  have ha := a.isLt
  unfold State.dataByte backing State.cellIndex segmentOf State.ramBank State.reg
  generalize a.toNat = n at *
  split_ifs with h1 h2 h3 <;> first | omega | skip
  · simp only [Sfr.idx_psw, ramBankPos]; rw [Nat.mod_eq_of_lt h1]
  · simp only [Sfr.idx_psw, ramBankPos]; rw [show 128 + n % 128 = n by omega]
  · simp only; rw [show n % 128 = n - 256 by omega]
  · simp only; rw [show n % 128 = n - 384 by omega]

theorem vtrbf_addr : Sfr.vtrbf.addr = 0x166 := rfl
theorem psw_addr : Sfr.psw.addr = 0x101 := rfl

theorem workAddr_toNat (s : State) : s.workAddr.toNat = workIndex s := by
  unfold State.workAddr workIndex State.reg
  simp only [Sfr.idx_vrmad1, Sfr.idx_vrmad2]
  generalize s.sfr.read 100 = x
  generalize s.sfr.read 101 = y
  have := x.isLt
  have h := Nat.shiftLeft_add_eq_or_of_lt (i := 8) x.isLt (y.toNat % 2)
  rw [Nat.shiftLeft_eq] at h
  change (BitVec.extractLsb' 0 1 y ++ x).toNat = _
  rw [BitVec.toNat_append, BitVec.extractLsb'_toNat, Nat.shiftLeft_eq]
  simp only [Nat.shiftRight_zero, Nat.pow_one]
  rw [← h]; omega

theorem mod_two_xor_one (y : Byte) : (y ^^^ 1#8).toNat % 2 = (y.toNat + 1) % 2 := by
  revert y; decide +kernel

theorem xor_one_high (y : Byte) : (y ^^^ 1#8) &&& 0xFE = y &&& 0xFE := by
  revert y; decide +kernel

theorem incWorkAddr_outcome (s : State) :
    KeepsRegs [0x64, 0x65] s s.incWorkAddr ∧ workIndex s.incWorkAddr = (workIndex s + 1) % 512 ∧
      s.incWorkAddr.sfr.read 0x65 &&& 0xFE = s.sfr.read 0x65 &&& 0xFE ∧
      ∃ m, s.incWorkAddr = { s with sfr := m } := by
  by_cases h : s.sfr.read 0x64 + 1 = 0
  · have e : s.incWorkAddr =
        { s with sfr := (s.sfr.write 0x64 (s.sfr.read 0x64 + 1)).write 0x65 (s.sfr.read 0x65 ^^^ 1) } := by
      unfold State.incWorkAddr
      exact if_pos h
    rw [e]
    refine ⟨fun k hk => ?_, ?_, ?_, _, rfl⟩
    · simp at hk; simp [Memory.read_write, hk]
    · have hx : s.sfr.read 0x64 = 255 := by
        revert h; generalize s.sfr.read 0x64 = x; revert x; decide +kernel
      have := mod_two_xor_one (s.sfr.read 0x65)
      simp [workIndex, Memory.read_write] at *
      simp [hx]; omega
    · simpa [Memory.read_write] using xor_one_high _
  · have e : s.incWorkAddr = { s with sfr := s.sfr.write 0x64 (s.sfr.read 0x64 + 1) } := by
      unfold State.incWorkAddr
      exact if_neg h
    rw [e]
    refine ⟨fun k hk => ?_, ?_, ?_, _, rfl⟩
    · simp at hk; simp [Memory.read_write, hk]
    · have hx : s.sfr.read 0x64 ≠ 255 := by rintro h'; rw [h'] at h; exact h rfl
      have hy : (s.sfr.read 0x64).toNat ≠ 255 := fun h' => hx (BitVec.eq_of_toNat_eq h')
      have := (s.sfr.read 0x64).isLt
      simp [workIndex, Memory.read_write]
      omega
    · simp [Memory.read_write]

theorem afterWorkAccess_outcome (s : State) :
    KeepsRegs (if workInc s then [0x64, 0x65] else []) s s.afterWorkAccess ∧
      workIndex s.afterWorkAccess = (if workInc s then (workIndex s + 1) % 512 else workIndex s) ∧
      s.afterWorkAccess.sfr.read 0x65 &&& 0xFE = s.sfr.read 0x65 &&& 0xFE ∧
      ∃ m, s.afterWorkAccess = { s with sfr := m } := by
  have h : s.workAutoInc = workInc s := rfl
  unfold State.afterWorkAccess
  rw [h]
  cases hi : workInc s
  · exact ⟨fun k _ => rfl, rfl, rfl, s.sfr, rfl⟩
  · simpa using incWorkAddr_outcome s

/-- A read changes nothing but what `ReadEffect` names: the shape of the state after it. -/
theorem readEffect_refl (s : State) (a : DAddr) (h : a ≠ 0x166) : ReadEffect s a 0 s :=
  ⟨fun _ _ => rfl, (if_neg fun c => h c.1).symm, rfl,
    ⟨fun _ _ => rfl, fun _ => rfl, fun _ => rfl, fun _ => rfl, fun _ => rfl⟩,
    ⟨rfl, rfl, rfl, rfl, rfl⟩, ⟨rfl, rfl, rfl, rfl, rfl⟩, ⟨rfl, rfl⟩, ⟨rfl, rfl⟩, rfl, rfl, rfl⟩

theorem readEffect_draw (s : State) (a : DAddr) (h : a ≠ 0x166) :
    ReadEffect s a 1 { s with draws := s.draws + 1 } :=
  ⟨fun _ _ => rfl, (if_neg fun c => h c.1).symm, rfl,
    ⟨fun _ _ => rfl, fun _ => rfl, fun _ => rfl, fun _ => rfl, fun _ => rfl⟩,
    ⟨rfl, rfl, rfl, rfl, rfl⟩, ⟨rfl, rfl, rfl, rfl, rfl⟩, ⟨rfl, rfl⟩, ⟨rfl, rfl⟩, rfl, rfl, rfl⟩

theorem readEffect_work (s : State) : ReadEffect s 0x166 0 s.afterWorkAccess := by
  obtain ⟨h1, h2, h3, m, h4⟩ := afterWorkAccess_outcome s
  refine ⟨by simpa using h1, by simpa using h2, h3, ?_, ?_, ?_, ?_, ?_, ?_, ?_, ?_⟩ <;> rw [h4]
  · exact ⟨fun _ _ => rfl, fun _ => rfl, fun _ => rfl, fun _ => rfl, fun _ => rfl⟩
  · exact ⟨rfl, rfl, rfl, rfl, rfl⟩
  · exact ⟨rfl, rfl, rfl, rfl, rfl⟩
  · exact ⟨rfl, rfl⟩
  · exact ⟨rfl, rfl⟩
  · rfl

theorem live_not_special : ∀ a : DAddr, a ∈ ([0x112, 0x114, 0x11B, 0x11D, 0x14C] : List DAddr) →
    a ∉ ([0x120, 0x127, 0x145, 0x146, 0x14D] : List DAddr) ∧ a ≠ 0x166 ∧ a ≠ 0x101 := by
  decide +kernel

theorem live_iff : ∀ a : DAddr, a ∈ ([0x112, 0x114, 0x11B, 0x11D, 0x14C] : List DAddr) ↔
    (a ∈ ([0x112, 0x114, 0x11B, 0x11D] : List DAddr) ∨ a = 0x14C) := by
  decide +kernel

/-- What a data-space read does (20_memory.md R80 to R84). -/
theorem dread_outcome (s : State) (a : DAddr) : ReadOutcome s a (s.dread a).1 (s.dread a).2 := by
  have hl := live_not_special a
  have hi := live_iff a
  have hw := inSet_writeOnly a
  have hc := inSet_counter a
  have hp := inSet_port a
  by_cases hlive : a ∈ ([0x112, 0x114, 0x11B, 0x11D, 0x14C] : List DAddr)
  · obtain ⟨h1, h2, h3⟩ := hl hlive
    have hor : (inSet liveCounterSet a || inSet livePortSet a) = true := by
      rw [hc, hp]; simpa only [Bool.or_eq_true, decide_eq_true_eq] using hi.mp hlive
    have e : s.dread a = s.liveRead a := by
      unfold State.dread
      rw [hw, if_neg (by simpa only [decide_eq_true_eq] using h1), vtrbf_addr, if_neg h2, if_pos hor]
    rw [e]
    refine ⟨?_, by rw [if_pos hlive]; exact readEffect_draw s a h2⟩
    unfold State.liveRead readValue
    rw [hp, if_neg h1, if_neg h2, State.dataByte_eq]
    by_cases h14 : a = 0x14C
    · subst h14; rfl
    · rw [if_pos ((hi.mp hlive).resolve_right h14)]
      simp only [h14, decide_false]; rfl
  · rw [hi] at hlive
    have hno : a ∉ ([0x112, 0x114, 0x11B, 0x11D, 0x14C] : List DAddr) := by rwa [hi]
    have hor : ¬(inSet liveCounterSet a || inSet livePortSet a) = true := by
      rw [hc, hp]; simpa only [Bool.or_eq_true, decide_eq_true_eq] using hlive
    by_cases h1 : a ∈ ([0x120, 0x127, 0x145, 0x146, 0x14D] : List DAddr)
    · have e : s.dread a = (0xFF, s) := by
        unfold State.dread
        rw [hw, if_pos (by simpa only [decide_eq_true_eq] using h1)]; rfl
      have hne : a ≠ 0x166 := by rintro rfl; revert h1; decide
      rw [e]
      exact ⟨by unfold readValue; rw [if_pos h1], by rw [if_neg hno]; exact readEffect_refl s a hne⟩
    · have hf : ¬inSet writeOnlySet a = true := by rw [hw]; simpa only [decide_eq_true_eq] using h1
      by_cases h2 : a = 0x166
      · subst h2
        have e : s.dread 0x166 = s.workRead := rfl
        have e2 : readValue s 0x166 = s.wram.read (workIndex s) := rfl
        rw [e]
        exact ⟨by rw [e2, ← workAddr_toNat]; rfl, readEffect_work s⟩
      · by_cases h3 : a = 0x101
        · subst h3
          have e : s.dread 0x101 = (s.psw, s) := rfl
          rw [e, ← pswRead_eq_psw]
          exact ⟨rfl, readEffect_refl s _ h2⟩
        · have e : s.dread a = (s.dataByte a, s) := by
            unfold State.dread
            rw [if_neg hf, vtrbf_addr, if_neg h2, if_neg hor, psw_addr, if_neg h3]
          rw [e]
          refine ⟨?_, by rw [if_neg hno]; exact readEffect_refl s a h2⟩
          unfold readValue
          rw [if_neg h1, if_neg h2, if_neg (fun h => hlive (.inl h)), if_neg (fun h => hlive (.inr h)), if_neg h3,
            State.dataByte_eq]

theorem latch_facts : ∀ a : DAddr, a ∈ ([0x11B, 0x11D, 0x144, 0x14C, 0x15C] : List DAddr) →
    a ≠ 0x166 ∧ a ∉ ([0x112, 0x114] : List DAddr) ∧ 0x100 ≤ a.toNat ∧ a.toNat < 0x180 := by
  decide +kernel

theorem not_latch_live : ∀ a : DAddr, a ∉ ([0x11B, 0x11D, 0x144, 0x14C, 0x15C] : List DAddr) →
    (a ∈ ([0x112, 0x114, 0x11B, 0x11D, 0x14C] : List DAddr) ↔ a ∈ ([0x112, 0x114] : List DAddr)) := by
  decide +kernel

/-- What a latch read does (20_memory.md R86). -/
theorem dreadLatch_outcome (s : State) (a : DAddr) :
    LatchOutcome s a (s.dreadLatch a).1 (s.dreadLatch a).2 := by
  have hL := inSet_latch a
  unfold State.dreadLatch
  by_cases h : a ∈ ([0x11B, 0x11D, 0x144, 0x14C, 0x15C] : List DAddr)
  · obtain ⟨h1, h2, h3, h4⟩ := latch_facts a h
    rw [hL, if_pos (by simpa only [decide_eq_true_eq] using h)]
    refine ⟨?_, by rw [if_neg h2]; exact readEffect_refl s a h1⟩
    unfold latchValue
    rw [if_pos h, State.dataByte_eq]
    unfold backing
    rw [if_neg (by omega), if_pos h4]
  · rw [hL, if_neg (by simpa only [decide_eq_true_eq] using h)]
    obtain ⟨h1, h2⟩ := dread_outcome s a
    refine ⟨by unfold latchValue; rw [if_neg h]; exact h1, ?_⟩
    simpa only [not_latch_live a h] using h2

/-! ### Writes -/

theorem storeByte_ram (s : State) {a : DAddr} (v : Byte) (h : a.toNat < 0x100) :
    s.storeByte a v = { s with ram := s.ram.write (ramIndex s a) v } := by
  unfold State.storeByte State.cellIndex segmentOf State.ramBank State.reg ramIndex
  simp only [Sfr.idx_psw, ramBankPos]
  by_cases h1 : a.toNat < 0x80
  · simp only [if_pos h1]; rw [Nat.mod_eq_of_lt h1]
  · simp only [if_neg h1, if_pos h]; rw [show 128 + a.toNat % 128 = a.toNat by omega]

theorem storeByte_sfr (s : State) {a : DAddr} (v : Byte) (h : 0x100 ≤ a.toNat) (h' : a.toNat < 0x180) :
    s.storeByte a v = { s with sfr := s.sfr.write (a.toNat - 0x100) v } := by
  unfold State.storeByte State.cellIndex segmentOf
  simp only [if_neg (show ¬a.toNat < 0x80 by omega), if_neg (show ¬a.toNat < 0x100 by omega), if_pos h']
  rw [show a.toNat % 128 = a.toNat - 256 by omega]

theorem storeByte_xram (s : State) {a : DAddr} (v : Byte) (h : 0x180 ≤ a.toNat) :
    s.storeByte a v = { s with xram := s.xram.write (xramIndex s a) v } := by
  have := a.isLt
  unfold State.storeByte State.cellIndex segmentOf xramIndex
  simp only [if_neg (show ¬a.toNat < 0x80 by omega), if_neg (show ¬a.toNat < 0x100 by omega),
    if_neg (show ¬a.toNat < 0x180 by omega)]
  rw [show a.toNat % 128 = a.toNat - 384 by omega]

theorem noteDirty_eq (s : State) (a : DAddr) (v : Byte) :
    s.noteDirty a v = { s with eventLog := s.eventLog ++
      if 0x180 ≤ a.toNat ∧ s.xram.read (xramIndex s a) ≠ v then [.displayDirty a v] else [] } := by
  have := a.isLt
  unfold State.noteDirty
  by_cases h : 0x180 ≤ a.toNat
  · have hs : segmentOf a = .xram := by
      unfold segmentOf
      rw [if_neg (by omega), if_neg (by omega), if_neg (by omega)]
    have hb : s.dataByte a = s.xram.read (xramIndex s a) := by
      rw [State.dataByte_eq]; unfold backing xramIndex
      rw [if_neg (by omega), if_neg (by omega)]
    by_cases hv : s.xram.read (xramIndex s a) = v
    · simp [hs, hb, hv]
    · simp [hs, hb, hv, h, State.emit]
  · have hs : segmentOf a ≠ .xram := by
      unfold segmentOf; split_ifs <;> first | omega | simp
    simp [hs, h]

/-- The SFR addresses whose write has a side effect of its own. -/
theorem writeEffect_other (s : State) {a : DAddr} (v : Byte) (h1 : a ≠ 0x10D) (h2 : a ≠ 0x125) (h3 : a ≠ 0x127)
    (h4 : a ≠ 0x166) : s.writeEffect a v = s := by
  unfold State.writeEffect
  exact (if_neg h1).trans ((if_neg h2).trans ((if_neg h3).trans (if_neg h4)))

theorem programByte_eq (s : State) (a : PAddr) : s.programByte a = codeByte s a := by
  unfold State.programByte codeByte
  cases s.progSrc <;> rfl


/-- The frame every write shares, for a state `e` that differs from `s` only where a write's side effect may. -/
theorem dwrite_sfr_eq (s : State) {a : DAddr} (v : Byte) (h : 0x100 ≤ a.toNat) (h' : a.toNat < 0x180) :
    s.dwrite a v = { s.writeEffect a v with
      sfr := (s.writeEffect a v).sfr.write (a.toNat - 0x100) v
      eventLog := (s.writeEffect a v).eventLog ++ [.sinkWrite a v, .memoryChanged a v] } := by
  unfold State.dwrite
  rw [noteDirty_eq, storeByte_sfr _ v h h']
  simp [State.noteWrite, State.emit, show ¬384 ≤ a.toNat by omega]

theorem dwrite_low_eq (s : State) {a : DAddr} (v : Byte) (h : a.toNat < 0x100) :
    s.dwrite a v = { s with
      ram := s.ram.write (ramIndex s a) v
      eventLog := s.eventLog ++ [.sinkWrite a v, .memoryChanged a v] } := by
  unfold State.dwrite
  rw [writeEffect_other s v, noteDirty_eq, storeByte_ram _ v h]
  · simp [State.noteWrite, State.emit, ramIndex, show ¬384 ≤ a.toNat by omega]
  all_goals (rintro rfl; revert h; decide +kernel)

theorem dwrite_high_eq (s : State) {a : DAddr} (v : Byte) (h : 0x180 ≤ a.toNat) :
    s.dwrite a v = { s with
      xram := s.xram.write (xramIndex s a) v
      eventLog := s.eventLog ++
        (if s.xram.read (xramIndex s a) ≠ v then [.displayDirty a v] else []) ++
        [.sinkWrite a v, .memoryChanged a v] } := by
  unfold State.dwrite
  rw [writeEffect_other s v, noteDirty_eq, storeByte_xram _ v h]
  · simp only [State.noteWrite, State.emit, h, true_and, List.append_assoc]
    rfl
  all_goals (rintro rfl; revert h; decide +kernel)

theorem dwrite_plain_sfr_eq (s : State) {a : DAddr} (v : Byte) (h : 0x100 ≤ a.toNat) (h' : a.toNat < 0x180)
    (h1 : a ≠ 0x10D) (h2 : a ≠ 0x125) (h3 : a ≠ 0x127) (h4 : a ≠ 0x166) :
    s.dwrite a v = { s with
      sfr := s.sfr.write (a.toNat - 0x100) v
      eventLog := s.eventLog ++ [.sinkWrite a v, .memoryChanged a v] } := by
  rw [dwrite_sfr_eq s v h h', writeEffect_other s v h1 h2 h3 h4]

theorem keepsPic_refl (s : State) : KeepsPic s s := ⟨rfl, rfl, rfl, rfl, rfl⟩
theorem keepsMisc_refl (s : State) : KeepsMisc s s := ⟨rfl, rfl, rfl, rfl, rfl⟩

theorem dwrite_outcome_low (s : State) {a : DAddr} (v : Byte) (h : a.toNat < 0x100) :
    WriteOutcome s a v (s.dwrite a v) := by
  have h1 : a ≠ 0x10D := by rintro rfl; revert h; decide +kernel
  have h2 : a ≠ 0x125 := by rintro rfl; revert h; decide +kernel
  have h3 : a ≠ 0x127 := by rintro rfl; revert h; decide +kernel
  have h4 : a ≠ 0x166 := by rintro rfl; revert h; decide +kernel
  have h5 : ¬0x180 ≤ a.toNat := by omega
  have h6 : ¬0x100 ≤ a.toNat := by omega
  rw [dwrite_low_eq s v h]
  constructor
  case pic => exact ⟨rfl, rfl, rfl, rfl, rfl⟩
  case misc => exact ⟨rfl, rfl, rfl, rfl, rfl⟩
  case ram => intro k; simp only [Memory.read_write, h, true_and]
  all_goals simp only [h1, h2, h3, h4, h5, h6, false_and, if_false, KeepsRegs, KeepsRom, KeepsFlash, switches,
    List.append_nil, implies_true, IsEmpty.forall_iff, not_true_eq_false]

theorem dwrite_outcome_high (s : State) {a : DAddr} (v : Byte) (h : 0x180 ≤ a.toNat) :
    WriteOutcome s a v (s.dwrite a v) := by
  have h1 : a ≠ 0x10D := by rintro rfl; revert h; decide +kernel
  have h2 : a ≠ 0x125 := by rintro rfl; revert h; decide +kernel
  have h3 : a ≠ 0x127 := by rintro rfl; revert h; decide +kernel
  have h4 : a ≠ 0x166 := by rintro rfl; revert h; decide +kernel
  have h5 : ¬a.toNat < 0x100 := by omega
  have h6 : ¬a.toNat < 0x180 := by omega
  rw [dwrite_high_eq s v h]
  constructor
  case pic => exact ⟨rfl, rfl, rfl, rfl, rfl⟩
  case misc => exact ⟨rfl, rfl, rfl, rfl, rfl⟩
  case xram => intro k; simp only [Memory.read_write, h, true_and]
  all_goals simp only [h, h1, h2, h3, h4, h5, h6, false_and, and_false, true_and, if_false, KeepsRegs, KeepsRom, KeepsFlash, switches,
    List.append_nil, implies_true, IsEmpty.forall_iff, not_true_eq_false]

theorem dwrite_outcome_plain_sfr (s : State) {a : DAddr} (v : Byte) (h : 0x100 ≤ a.toNat) (h' : a.toNat < 0x180)
    (h1 : a ≠ 0x10D) (h2 : a ≠ 0x125) (h3 : a ≠ 0x127) (h4 : a ≠ 0x166) :
    WriteOutcome s a v (s.dwrite a v) := by
  have h5 : ¬a.toNat < 0x100 := by omega
  have h6 : ¬0x180 ≤ a.toNat := by omega
  rw [dwrite_plain_sfr_eq s v h h' h1 h2 h3 h4]
  constructor
  case pic => exact ⟨rfl, rfl, rfl, rfl, rfl⟩
  case misc => exact ⟨rfl, rfl, rfl, rfl, rfl⟩
  case regs =>
    intro k hk
    simp [h, h', h4] at hk
    exact Memory.read_write_other _ _ (by omega)
  case stored => intros; exact Memory.read_write_self ..
  all_goals simp only [h, h1, h2, h3, h4, h5, h6, false_and, and_false, true_and, if_false, KeepsRegs, KeepsRom, KeepsFlash, switches,
    List.append_nil, implies_true, IsEmpty.forall_iff, not_true_eq_false]

theorem dwrite_outcome_vtrbf (s : State) (v : Byte) : WriteOutcome s 0x166 v (s.dwrite 0x166 v) := by
  have e : s.writeEffect 0x166 v = s.workWrite v := rfl
  rw [dwrite_sfr_eq s v (by decide) (by decide), e]
  unfold State.workWrite
  obtain ⟨r1, r2, r3, m, r4⟩ := afterWorkAccess_outcome { s with wram := s.wram.write s.workAddr.toNat v }
  have w : workInc { s with wram := s.wram.write s.workAddr.toNat v } = workInc s := rfl
  rw [w] at r1 r2
  rw [r4] at r1 r2 r3 ⊢
  constructor
  case pic => exact ⟨rfl, rfl, rfl, rfl, rfl⟩
  case misc => exact ⟨rfl, rfl, rfl, rfl, rfl⟩
  case wram => intro k; simp [Memory.read_write, workAddr_toNat]
  case stored => intros; exact Memory.read_write_self ..
  case regs =>
    intro k hk
    simp at hk
    have hk2 : k ≠ 102 := hk.1
    rw [Memory.read_write_other _ _ (by simpa using hk2)]
    exact r1 k (by simpa using hk.2)
  case workIndex =>
    intro _
    refine Eq.trans ?_ r2
    simp [workIndex, Memory.read_write]
  case workHigh =>
    intro _
    refine Eq.trans ?_ r3
    simp [Memory.read_write]
  all_goals simp [switches, KeepsRom, KeepsFlash]

theorem dwrite_outcome_vccr (s : State) (v : Byte) : WriteOutcome s 0x127 v (s.dwrite 0x127 v) := by
  have e : s.writeEffect 0x127 v = s.vccrEffect v := rfl
  have e2 : s.vccrEffect v = { s with
      eventLog := s.eventLog ++ if v.getLsbD 7 ≠ (s.sfr.read 0x27).getLsbD 7 then [.redraw] else [] } := by
    unfold State.vccrEffect State.reg
    rw [Sfr.idx_vccr]
    by_cases h : v.getLsbD 7 = (s.sfr.read 0x27).getLsbD 7
    · rw [if_pos h, if_neg (not_not_intro h), List.append_nil]
    · rw [if_neg h, if_pos h]; rfl
  rw [dwrite_sfr_eq s v (by decide) (by decide), e, e2]
  constructor
  case pic => exact ⟨rfl, rfl, rfl, rfl, rfl⟩
  case misc => exact ⟨rfl, rfl, rfl, rfl, rfl⟩
  case stored => intros; exact Memory.read_write_self ..
  case regs =>
    intro k hk
    simp at hk
    exact Memory.read_write_other _ _ (by simpa using hk)
  all_goals simp [switches, KeepsRom, KeepsFlash]

theorem dwrite_outcome_xbnk (s : State) (v : Byte) : WriteOutcome s 0x125 v (s.dwrite 0x125 v) := by
  have e : s.writeEffect 0x125 v = s.xbnkEffect v := rfl
  rw [dwrite_sfr_eq s v (by decide) (by decide), e]
  unfold State.xbnkEffect
  split
  · next h =>
    constructor
    case pic => exact ⟨rfl, rfl, rfl, rfl, rfl⟩
    case misc => exact ⟨rfl, rfl, rfl, rfl, rfl⟩
    case stored => intros; exact Memory.read_write_self ..
    case regs =>
      intro k hk
      simp at hk
      exact Memory.read_write_other _ _ (by simpa using hk)
    case xramBank => cases hb : Config.displayBlanked s.sfr <;> simp [h]
    all_goals simp [switches, KeepsRom, KeepsFlash, show ¬3 ≤ v.toNat by omega]
  · next h =>
    constructor
    case pic => exact ⟨rfl, rfl, rfl, rfl, rfl⟩
    case misc => exact ⟨rfl, rfl, rfl, rfl, rfl⟩
    case stored => intros; exact Memory.read_write_self ..
    case regs =>
      intro k hk
      simp at hk
      exact Memory.read_write_other _ _ (by simpa using hk)
    case xramBank => simp [h]
    case faultReport => simp [switches, State.raise, show 3 ≤ v.toNat by omega, ErrorCode.isFault]
    all_goals simp [switches, KeepsRom, KeepsFlash, show 3 ≤ v.toNat by omega, Sfr.addr]

theorem dwrite_outcome_ext (s : State) (v : Byte) : WriteOutcome s 0x10D v (s.dwrite 0x10D v) := by
  have e : s.writeEffect 0x10D v = s.extEffect v := rfl
  rw [dwrite_sfr_eq s v (by decide) (by decide), e]
  unfold State.extEffect State.reg
  rw [Sfr.idx_ext, programByte_eq, programByte_eq, programByte_eq]
  by_cases h : v.getLsbD 0 = (s.sfr.read 0x0D).getLsbD 0
  · rw [if_pos h]
    have hs : ¬switches s 0x10D v := fun c => c.2 h
    constructor
    case pic => exact ⟨rfl, rfl, rfl, rfl, rfl⟩
    case misc => exact ⟨rfl, rfl, rfl, rfl, rfl⟩
    case stored => intros; exact Memory.read_write_self ..
    case regs =>
      intro k hk
      simp at hk
      exact Memory.read_write_other _ _ (by simpa using hk)
    case progSrc => rw [if_neg hs]
    case errorLog => rw [if_neg (fun c => hs c.1), if_neg (by simp)]; simp
    all_goals simp [h, KeepsRom, KeepsFlash]
  · rw [if_neg h]
    have hs : switches s 0x10D v := ⟨rfl, h⟩
    have hx : (if v.getLsbD 0 = extFlashValue then ProgSrc.flash else .rom) = if v.getLsbD 0 then .flash else .rom := by
      cases v.getLsbD 0 <;> rfl
    by_cases hj : codeByte s s.pc = 0x21
    · have hj2 : codeByte s s.pc = jmpfOpcode := hj
      have hn : ¬(switches s 0x10D v ∧ ¬atJmpf s) := fun c => c.2 hj
      rw [if_pos hj2]
      constructor
      case pic => exact ⟨rfl, rfl, rfl, rfl, rfl⟩
      case misc => exact ⟨rfl, rfl, rfl, rfl, rfl⟩
      case stored => intros; exact Memory.read_write_self ..
      case regs =>
        intro k hk
        simp at hk
        exact Memory.read_write_other _ _ (by simpa using hk)
      case progSrc => rw [if_pos hs, ← hx]
      case pc => rw [if_pos (show switches s 0x10D v ∧ atJmpf s from ⟨hs, hj⟩)]
      case errorLog => rw [if_neg hn, if_neg (show ¬((0x10D : DAddr) = 0x125 ∧ 3 ≤ v.toNat) by simp)]; simp
      case faultReport => rw [if_neg hn, if_neg (show ¬((0x10D : DAddr) = 0x125 ∧ 3 ≤ v.toNat) by simp)]
      all_goals simp [KeepsRom, KeepsFlash]
    · have hj2 : ¬codeByte s s.pc = jmpfOpcode := hj
      rw [if_neg hj2]
      constructor
      case pic => exact ⟨rfl, rfl, rfl, rfl, rfl⟩
      case misc => exact ⟨rfl, rfl, rfl, rfl, rfl⟩
      case stored => intros; exact Memory.read_write_self ..
      case regs =>
        intro k hk
        simp at hk
        exact Memory.read_write_other _ _ (by simpa using hk)
      case progSrc => rw [if_pos hs, ← hx]
      case pc => rw [if_neg (show ¬(switches s 0x10D v ∧ atJmpf s) from fun c => hj c.2)]; rfl
      case errorLog => rw [if_pos (show switches s 0x10D v ∧ ¬atJmpf s from ⟨hs, hj⟩)]; rfl
      case faultReport => rw [if_pos (show switches s 0x10D v ∧ ¬atJmpf s from ⟨hs, hj⟩)]; rfl
      all_goals simp [KeepsRom, KeepsFlash]

/-- What a data-space write does (20_memory.md R88 to R97). -/
theorem dwrite_outcome (s : State) (a : DAddr) (v : Byte) : WriteOutcome s a v (s.dwrite a v) := by
  by_cases h : a.toNat < 0x100
  · exact dwrite_outcome_low s v h
  by_cases h' : 0x180 ≤ a.toNat
  · exact dwrite_outcome_high s v h'
  by_cases h1 : a = 0x10D
  · subst h1; exact dwrite_outcome_ext s v
  by_cases h2 : a = 0x125
  · subst h2; exact dwrite_outcome_xbnk s v
  by_cases h3 : a = 0x127
  · subst h3; exact dwrite_outcome_vccr s v
  by_cases h4 : a = 0x166
  · subst h4; exact dwrite_outcome_vtrbf s v
  exact dwrite_outcome_plain_sfr s v (by omega) (by omega) h1 h2 h3 h4


/-! ### Results in ACC and PSW -/

theorem writeReg_acc_eq (s : State) (v : Byte) : s.writeReg .acc v = { s with
    sfr := s.sfr.write 0 v
    eventLog := s.eventLog ++ [.sinkWrite 0x100 v, .memoryChanged 0x100 v] } :=
  dwrite_plain_sfr_eq s v (a := 0x100) (by decide) (by decide) (by decide) (by decide) (by decide) (by decide)

theorem writeReg_psw_eq (s : State) (v : Byte) : s.writeReg .psw v = { s with
    sfr := s.sfr.write 1 v
    eventLog := s.eventLog ++ [.sinkWrite 0x101 v, .memoryChanged 0x101 v] } :=
  dwrite_plain_sfr_eq s v (a := 0x101) (by decide) (by decide) (by decide) (by decide) (by decide) (by decide)

theorem writeReg_b_eq (s : State) (v : Byte) : s.writeReg .b v = { s with
    sfr := s.sfr.write 2 v
    eventLog := s.eventLog ++ [.sinkWrite 0x102 v, .memoryChanged 0x102 v] } :=
  dwrite_plain_sfr_eq s v (a := 0x102) (by decide) (by decide) (by decide) (by decide) (by decide) (by decide)

theorem writeReg_c_eq (s : State) (v : Byte) : s.writeReg .c v = { s with
    sfr := s.sfr.write 3 v
    eventLog := s.eventLog ++ [.sinkWrite 0x103 v, .memoryChanged 0x103 v] } :=
  dwrite_plain_sfr_eq s v (a := 0x103) (by decide) (by decide) (by decide) (by decide) (by decide) (by decide)

/-- A state that differs from another in the SFR array and the event log only. -/
theorem regsOnly_of_sfr (s : State) (regs : List Nat) (m : Memory) (log : List Event) (p : PAddr)
    (h : ∀ k, k ∉ regs → m.read k = s.sfr.read k) :
    RegsOnly regs s { s with sfr := m, eventLog := log, pc := p } :=
  ⟨h, ⟨fun _ _ => rfl, fun _ => rfl, fun _ => rfl, fun _ => rfl, fun _ => rfl⟩, ⟨rfl, rfl, rfl, rfl, rfl⟩,
    ⟨rfl, rfl, rfl, rfl, rfl⟩, ⟨rfl, rfl⟩, ⟨rfl, rfl⟩, rfl⟩

/-- `ACC <- v` (41_logic.md R230). -/
theorem writeAcc_outcome (s : State) (v : Byte) : AccOutcome s v (s.writeReg .acc v) := by
  rw [writeReg_acc_eq]
  refine ⟨Memory.read_write_self .., ?_, ?_, rfl, rfl⟩
  · rw [pswRead_bit_zero]; simp
  · exact regsOnly_of_sfr s [0] _ _ s.pc fun k hk => Memory.read_write_other _ _ (by simpa using hk)

/-- A write of PSW fields (00_scope.md R12). -/
theorem writePswBits_outcome (s : State) (mask bits : Byte) (hb : bits &&& mask = bits) :
    FlagOutcome s mask bits (s.writePswBits mask bits) := by
  unfold State.writePswBits
  rw [writeReg_psw_eq]
  have hp : s.psw &&& 0xFE = s.reg .psw &&& 0xFE := by
    unfold State.psw pswByte bitAt
    cases parity s.acc
    · simp [BitVec.and_assoc]
    · apply BitVec.eq_of_getLsbD_eq; intro i hi; interval_cases i <;> simp
  refine ⟨?_, ?_, ?_, rfl, by simp⟩
  · simp only [Memory.read_write_self]
    apply BitVec.eq_of_getLsbD_eq; intro i hi
    have := congrArg (·.getLsbD i) hb
    simp only [BitVec.getLsbD_and, BitVec.getLsbD_or, BitVec.getLsbD_not, hi, decide_true, Bool.true_and] at this ⊢
    revert this
    cases mask.getLsbD i <;> cases bits.getLsbD i <;> simp
  · simp only [Memory.read_write_self]
    apply BitVec.eq_of_getLsbD_eq; intro i hi
    have h1 := congrArg (·.getLsbD i) hb
    have h2 := congrArg (·.getLsbD i) hp
    simp only [State.reg, Sfr.idx_psw, BitVec.getLsbD_and, BitVec.getLsbD_or, BitVec.getLsbD_not, hi, decide_true, Bool.true_and] at h1 h2 ⊢
    revert h1 h2
    generalize BitVec.getLsbD 254 i = z
    cases mask.getLsbD i <;> cases bits.getLsbD i <;> cases z <;> simp
  · exact regsOnly_of_sfr s [1] _ _ s.pc fun k hk => Memory.read_write_other _ _ (by simpa using hk)

/-- `PSW.CY <- cy` -/
theorem setCy_outcome (s : State) (cy : Bool) : FlagOutcome s 0x80 (if cy then 0x80 else 0) (s.setCy cy) := by
  have := writePswBits_outcome s 0x80 (if cy then 0x80 else 0) (by cases cy <;> decide)
  cases cy <;> exact this

/-- `PSW.CY <- cy; PSW.OV <- ov` -/
theorem setCyOv_outcome (s : State) (cy ov : Bool) :
    FlagOutcome s 0x84 ((if cy then 0x80 else 0) ||| (if ov then 0x04 else 0)) (s.setCyOv cy ov) := by
  have := writePswBits_outcome s 0x84 ((if cy then 0x80 else 0) ||| (if ov then 0x04 else 0))
    (by cases cy <;> cases ov <;> decide)
  cases cy <;> cases ov <;> exact this

/-- `PSW.CY <- cy; PSW.AC <- ac; PSW.OV <- ov` -/
theorem setCyAcOv_outcome (s : State) (cy ac ov : Bool) :
    FlagOutcome s 0xC4 ((if cy then 0x80 else 0) ||| (if ac then 0x40 else 0) ||| (if ov then 0x04 else 0))
      (s.setCyAcOv cy ac ov) := by
  have := writePswBits_outcome s 0xC4
    ((if cy then 0x80 else 0) ||| (if ac then 0x40 else 0) ||| (if ov then 0x04 else 0))
    (by cases cy <;> cases ac <;> cases ov <;> decide)
  cases cy <;> cases ac <;> cases ov <;> exact this

/-- What one register-only update may change on top of another. -/
theorem regsOnly_trans {r1 r2 r3 : List Nat} {s t u : State} (h1 : RegsOnly r1 s t) (h2 : RegsOnly r2 t u)
    (hr : ∀ k, k ∉ r3 → k ∉ r1 ∧ k ∉ r2) : RegsOnly r3 s u where
  regs k hk := (h2.regs k (hr k hk).2).trans (h1.regs k (hr k hk).1)
  memory := ⟨fun k hk => (h2.memory.ram k hk).trans (h1.memory.ram k hk),
    fun k => (h2.memory.xram k).trans (h1.memory.xram k), fun k => (h2.memory.wram k).trans (h1.memory.wram k),
    fun k => (h2.memory.rom k).trans (h1.memory.rom k), fun k => (h2.memory.flash k).trans (h1.memory.flash k)⟩
  pic := ⟨h2.pic.pending.trans h1.pic.pending, h2.pic.slot.trans h1.pic.slot,
    h2.pic.prevLevel.trans h1.pic.prevLevel, h2.pic.suppress.trans h1.pic.suppress,
    h2.pic.rrLast.trans h1.pic.rrLast⟩
  misc := ⟨h2.misc.fstate.trans h1.misc.fstate, h2.misc.fcount.trans h1.misc.fcount,
    h2.misc.lastCycles.trans h1.misc.lastCycles, h2.misc.ipc.trans h1.misc.ipc,
    h2.misc.arrivals.trans h1.misc.arrivals⟩
  banks := ⟨h2.banks.xramBank.trans h1.banks.xramBank, h2.banks.progSrc.trans h1.banks.progSrc⟩
  errors := ⟨h2.errors.errorLog.trans h1.errors.errorLog, h2.errors.faultReport.trans h1.errors.faultReport⟩
  draws := h2.draws.trans h1.draws

/-- The bit `i` of a PSW whose field `mask` was written with `bits`. -/
theorem flagOutcome_bit {s t : State} {mask bits : Byte} (h : FlagOutcome s mask bits t) {i : Nat}
    (hm : mask.getLsbD i = true) : (t.sfr.read 1).getLsbD i = bits.getLsbD i := by
  have := congrArg (·.getLsbD i) h.written
  simpa [BitVec.getLsbD_and, hm] using this

/-- ACC and the flags of an addition or a subtraction (40_arith.md R202). -/
theorem putAlu_outcome (s : State) (r : AluResult) : AluOutcome s r.value r.cy r.ac r.ov (s.putAlu r) := by
  have h1 := writeAcc_outcome s r.value
  have h2 := setCyAcOv_outcome (s.writeReg .acc r.value) r.cy r.ac r.ov
  have hacc : (s.putAlu r).sfr.read 0 = r.value := (h2.frame.regs 0 (by decide)).trans h1.acc
  refine ⟨hacc, ?_, ?_, ?_, ?_, ?_, ?_, h2.pc.trans h1.pc, ?_⟩
  · refine (flagOutcome_bit h2 (i := 7) (by decide)).trans ?_
    cases r.cy <;> cases r.ac <;> cases r.ov <;> rfl
  · refine (flagOutcome_bit h2 (i := 6) (by decide)).trans ?_
    cases r.cy <;> cases r.ac <;> cases r.ov <;> rfl
  · refine (flagOutcome_bit h2 (i := 2) (by decide)).trans ?_
    cases r.cy <;> cases r.ac <;> cases r.ov <;> rfl
  · rw [pswRead_bit_zero, hacc]
  · refine h2.others.trans ?_
    rw [h1.frame.regs 1 (by decide)]; rfl
  · exact regsOnly_trans h1.frame h2.frame fun k hk => by simpa using hk
  · have := h2.eventLog
    rw [h1.eventLog] at this
    rw [show s.putAlu r = (s.writeReg .acc r.value).setCyAcOv r.cy r.ac r.ov from rfl, this]
    simp

theorem getLsbD_seven (x : Byte) : x.getLsbD 7 = x.msb := by
  rw [BitVec.msb_eq_getLsbD_last]

/-- The overflow of the adder in terms of sign bits (40_arith.md R200). -/
theorem addAlu_ov (a b : Byte) (cin : Bool) : (addAlu a b cin).ov =
    (a.msb == (BitVec.ofNat 8 (b.toNat + cin.toNat)).msb &&
      (BitVec.ofNat 8 (a.toNat + b.toNat + cin.toNat)).msb != a.msb) := by
  unfold addAlu
  simp only [getLsbD_seven, BitVec.msb_and, BitVec.msb_not, BitVec.msb_xor]
  generalize (BitVec.ofNat 8 (b.toNat + cin.toNat)).msb = x
  generalize (BitVec.ofNat 8 (a.toNat + b.toNat + cin.toNat)).msb = y
  cases a.msb <;> cases x <;> cases y <;> rfl

/-- The overflow of the subtracter in terms of sign bits (40_arith.md R201). -/
theorem subAlu_ov (a b : Byte) (cin : Bool) : (subAlu a b cin).ov =
    (a.msb != (BitVec.ofNat 8 (b.toNat + cin.toNat)).msb &&
      (BitVec.ofInt 8 ((a.toNat : Int) - b.toNat - cin.toNat)).msb != a.msb) := by
  unfold subAlu
  simp only [getLsbD_seven, BitVec.msb_and, BitVec.msb_xor]
  generalize (BitVec.ofNat 8 (b.toNat + cin.toNat)).msb = x
  generalize (BitVec.ofInt 8 ((a.toNat : Int) - b.toNat - cin.toNat)).msb = y
  cases a.msb <;> cases x <;> cases y <;> rfl

/-! ### Stack -/

/-- What `Push` does (20_memory.md R106, R108). -/
theorem push_outcome (s : State) (v : Byte) : PushOutcome s v (s.push v) := by
  unfold State.push
  by_cases h : s.sp = stackHi
  · have h' : s.sfr.read 6 = 0xFF := h
    simp only [if_pos h]
    constructor
    case pic => exact ⟨rfl, rfl, rfl, rfl, rfl⟩
    case misc => exact ⟨rfl, rfl, rfl, rfl, rfl⟩
    case banks => exact ⟨rfl, rfl⟩
    case sp => exact Memory.read_write_self ..
    case top => exact Memory.read_write_self ..
    case ram => intro k hk; exact Memory.read_write_other _ _ fun e => hk (List.mem_singleton.mpr e)
    case regs => intro k hk; exact Memory.read_write_other _ _ (by simpa using hk)
    case errorLog => rw [if_pos h']; simp [State.raise, State.setReg, State.sp, State.reg, h']
    case faultReport => rfl
    all_goals first | rfl | (intro k; rfl)
  · have h' : ¬s.sfr.read 6 = 0xFF := h
    simp only [if_neg h]
    constructor
    case pic => exact ⟨rfl, rfl, rfl, rfl, rfl⟩
    case misc => exact ⟨rfl, rfl, rfl, rfl, rfl⟩
    case banks => exact ⟨rfl, rfl⟩
    case sp => exact Memory.read_write_self ..
    case top => exact Memory.read_write_self ..
    case ram => intro k hk; exact Memory.read_write_other _ _ fun e => hk (List.mem_singleton.mpr e)
    case regs => intro k hk; exact Memory.read_write_other _ _ (by simpa using hk)
    case errorLog => rw [if_neg h', List.append_nil]; rfl
    all_goals first | rfl | (intro k; rfl)

/-- What `Pop` does (20_memory.md R107, R108). -/
theorem pop_outcome (s : State) : PopOutcome s s.pop.1 s.pop.2 := by
  unfold State.pop
  by_cases h : s.sp = stackLo - 1
  · have h' : s.sfr.read 6 = 0x7F := h
    simp only [if_pos h]
    constructor
    case memory => exact ⟨fun _ _ => rfl, fun _ => rfl, fun _ => rfl, fun _ => rfl, fun _ => rfl⟩
    case pic => exact ⟨rfl, rfl, rfl, rfl, rfl⟩
    case misc => exact ⟨rfl, rfl, rfl, rfl, rfl⟩
    case banks => exact ⟨rfl, rfl⟩
    case sp => exact Memory.read_write_self ..
    case regs => intro k hk; exact Memory.read_write_other _ _ (by simpa using hk)
    case errorLog => rw [if_pos h']; simp [State.raise, State.setReg, State.sp, State.reg, h']
    all_goals rfl
  · have h' : ¬s.sfr.read 6 = 0x7F := h
    simp only [if_neg h]
    constructor
    case memory => exact ⟨fun _ _ => rfl, fun _ => rfl, fun _ => rfl, fun _ => rfl, fun _ => rfl⟩
    case pic => exact ⟨rfl, rfl, rfl, rfl, rfl⟩
    case misc => exact ⟨rfl, rfl, rfl, rfl, rfl⟩
    case banks => exact ⟨rfl, rfl⟩
    case sp => exact Memory.read_write_self ..
    case regs => intro k hk; exact Memory.read_write_other _ _ (by simpa using hk)
    case errorLog => rw [if_neg h', List.append_nil]; rfl
    all_goals rfl

theorem pushPC_outcome (s : State) (ra : PAddr) : PushPCOutcome s ra (s.pushPC ra) := by
  refine ⟨s.push (ra.setWidth 8), ?_, ?_⟩
  · have e : BitVec.ofNat 8 ra.toNat = ra.setWidth 8 := BitVec.eq_of_toNat_eq (by simp)
    rw [e]; exact push_outcome s _
  · have e : BitVec.ofNat 8 (ra.toNat / 256) = ra.extractLsb' 8 8 :=
      BitVec.eq_of_toNat_eq (by simp [BitVec.extractLsb'_toNat, Nat.shiftRight_eq_div_pow])
    rw [e]; exact push_outcome _ _

theorem popPC_outcome (s : State) : PopPCOutcome s s.popPC.1 s.popPC.2 :=
  ⟨s.pop.1, s.pop.2.pop.1, s.pop.2, pop_outcome s, pop_outcome _, rfl⟩

theorem inProgram_true (s : State) (a : PAddr) : s.inProgram a = true := by
  unfold State.inProgram
  have := a.isLt
  cases s.progSrc
  · exact decide_eq_true this
  · rfl


/-! ### Interrupt entry and return -/

@[simp] theorem PerLevel.get_set (p : PerLevel) (l k : Level) (x : Option IrqSource) :
    (p.set l x).get k = if k = l then x else p.get k := by
  cases l <;> cases k <;> rfl

theorem IrqSource.bit_getLsbD (src : IrqSource) (k : Nat) :
    src.bit.getLsbD k = decide (k = src.index) := by
  by_cases h : k < 10
  · revert k; cases src <;> decide
  · have h2 : src.index < 10 := by cases src <;> decide
    rw [BitVec.getLsbD_of_ge _ _ (by omega)]
    simp; omega

/-- What entering a handler does (60_exceptions.md R432). -/
theorem dispatch_outcome (s : State) (x : IrqSource) (l : Level) : DispatchOutcome s x l (s.dispatch x l) := by
  let s1 : State := { s with pending := s.pending &&& ~~~x.bit, slot := s.slot.set l (some x) }
  obtain ⟨m, h1, h2⟩ := pushPC_outcome s1 s1.pc
  have e : s.dispatch x l = { (s1.pushPC s1.pc).setReg .pcon ((s1.pushPC s1.pc).reg .pcon &&& 0xFE) with
      pc := x.vector, suppress := true, rrLast := (s1.pushPC s1.pc).rrLast.set l (some x) } := rfl
  generalize s1.pushPC s1.pc = p at h2 e
  rw [e]
  have sp1 : m.sfr.read 6 = s.sfr.read 6 + 1 := h1.sp
  have sp2 : p.sfr.read 6 = s.sfr.read 6 + 2 := by
    rw [h2.sp, sp1, BitVec.add_assoc]; rfl
  have a2 : m.sfr.read 6 + 1 = s.sfr.read 6 + 2 := by rw [sp1, BitVec.add_assoc]; rfl
  have top2 := h2.top
  have ram2 := h2.ram
  rw [a2] at top2 ram2
  have regs : ∀ k, k ≠ 6 → p.sfr.read k = s.sfr.read k := fun k hk =>
    (h2.regs k (by simpa using hk)).trans (h1.regs k (by simpa using hk))
  have hne : (s.sfr.read 6 + 1).toNat ≠ (s.sfr.read 6 + 2).toNat := by
    generalize s.sfr.read 6 = z; revert z; decide +kernel
  constructor
  case pc => rfl
  case pending =>
    intro k
    change p.pending.getLsbD k = _
    rw [h2.pic.pending, h1.pic.pending]
    change (s.pending &&& ~~~x.bit).getLsbD k = _
    by_cases hk : k < 10
    · simp only [BitVec.getLsbD_and, BitVec.getLsbD_not, IrqSource.bit_getLsbD, hk, decide_true, Bool.true_and, ne_eq,
        decide_not]
    · simp [BitVec.getLsbD_of_ge _ _ (show 10 ≤ k by omega)]
  case slot =>
    intro k
    change p.slot.get k = _
    rw [h2.pic.slot, h1.pic.slot]
    exact PerLevel.get_set ..
  case rrLast =>
    intro k
    change (p.rrLast.set l (some x)).get k = _
    rw [h2.pic.rrLast, h1.pic.rrLast]
    exact PerLevel.get_set ..
  case suppress => rfl
  case prevLevel => exact h2.pic.prevLevel.trans h1.pic.prevLevel
  case sp => exact (Memory.read_write_other _ _ (by decide)).trans sp2
  case low => exact (ram2 _ (by simpa only [List.mem_singleton] using hne)).trans h1.top
  case high => exact top2
  case ram =>
    intro k hk
    simp only [List.mem_cons, List.not_mem_nil, or_false, not_or] at hk
    exact (ram2 k (by simpa only [List.mem_singleton] using hk.2)).trans
      (h1.ram k (by simpa only [List.mem_singleton] using hk.1))
  case halt => exact (Memory.read_write_self ..).trans (congrArg (· &&& 0xFE) (regs 7 (by decide)))
  case regs =>
    intro k hk
    simp only [List.mem_cons, List.not_mem_nil, or_false, not_or] at hk
    exact (Memory.read_write_other _ _ hk.2).trans (regs k hk.1)
  case xram => exact fun k => (h2.xram k).trans (h1.xram k)
  case wram => exact fun k => (h2.wram k).trans (h1.wram k)
  case rom => exact fun k => (h2.rom k).trans (h1.rom k)
  case flash => exact fun k => (h2.flash k).trans (h1.flash k)
  case errorLog =>
    refine h2.errorLog.trans ?_
    rw [h1.errorLog, sp1, h1.misc.ipc]
    have hw : ∀ z : Byte, (z = 0xFF → z + 1 ≠ 0xFF) ∧ (z + 1 = 0xFF ↔ z = 0xFE) := by decide +kernel
    obtain ⟨w1, w2⟩ := hw (s.sfr.read 6)
    by_cases hff : s.sfr.read 6 = 0xFF
    · rw [if_neg (w1 hff)]
      simp only [s1, hff, if_true, List.append_nil]
    · simp only [s1, hff, if_false, List.append_nil, w2]
  case faultReport => exact h2.faultReport.trans h1.faultReport
  case banks => exact ⟨h2.banks.xramBank.trans h1.banks.xramBank, h2.banks.progSrc.trans h1.banks.progSrc⟩
  case misc => exact ⟨h2.misc.fstate.trans h1.misc.fstate, h2.misc.fcount.trans h1.misc.fcount,
    h2.misc.lastCycles.trans h1.misc.lastCycles, h2.misc.ipc.trans h1.misc.ipc,
    h2.misc.arrivals.trans h1.misc.arrivals⟩
  case eventLog => exact h2.eventLog.trans h1.eventLog
  case draws => exact h2.draws.trans h1.draws


end Sys2Proof.Machine
end

