-- ==== Sys2Proof/Laws/PerInstr.lean ====
section
/-! SUPPORT. What is stated for every instruction as syntax: the opcode byte of its encoding selects a row of the opcode
map, and that row's format has the length of the encoding (spec/30_encoding.md R130, R131, R140). -/

namespace Sys2Proof.Laws

/-- The row that the first encoded byte selects has a format as long as the encoding. -/
def EncodedLength.Statement (i : Instr) : Prop :=
  ((encode i).head?.bind rowOf).map (fun r => layoutLength r.layout) = some (encode i).length

theorem EncodedLength.nop : Statement .nop := rfl
theorem EncodedLength.br (r8 : Byte) : Statement (.br r8) := rfl
theorem EncodedLength.ldDir (d9 : DAddr) : Statement (.ldDir d9) := by
  change (rowOf (encD9Low 0x02 d9)).map (fun r => layoutLength r.layout) = some 2
  unfold encD9Low; generalize d9.extractLsb' 8 1 = x; revert x; decide
theorem EncodedLength.ldInd (j : PtrNum) : Statement (.ldInd j) := by
  change (rowOf (0x04 ||| j.setWidth 8)).map (fun r => layoutLength r.layout) = some 1
  revert j; decide
theorem EncodedLength.call (a12 : BitVec 12) : Statement (.call a12) := by
  change (rowOf (0x08 ||| ((a12.extractLsb' 11 1).setWidth 8 <<< 4) ||| (a12.extractLsb' 8 3).setWidth 8)).map
      (fun r => layoutLength r.layout) = some 2
  generalize a12.extractLsb' 11 1 = x; generalize a12.extractLsb' 8 3 = y; revert x y; decide
theorem EncodedLength.callr (r16 : BitVec 16) : Statement (.callr r16) := rfl
theorem EncodedLength.brf (r16 : BitVec 16) : Statement (.brf r16) := rfl
theorem EncodedLength.stDir (d9 : DAddr) : Statement (.stDir d9) := by
  change (rowOf (encD9Low 0x12 d9)).map (fun r => layoutLength r.layout) = some 2
  unfold encD9Low; generalize d9.extractLsb' 8 1 = x; revert x; decide
theorem EncodedLength.stInd (j : PtrNum) : Statement (.stInd j) := by
  change (rowOf (0x14 ||| j.setWidth 8)).map (fun r => layoutLength r.layout) = some 1
  revert j; decide
theorem EncodedLength.callf (a16 : PAddr) : Statement (.callf a16) := rfl
theorem EncodedLength.jmpf (a16 : PAddr) : Statement (.jmpf a16) := rfl
theorem EncodedLength.movDir (i8 : Byte) (d9 : DAddr) : Statement (.movDir i8 d9) := by
  change (rowOf (encD9Low 0x22 d9)).map (fun r => layoutLength r.layout) = some 3
  unfold encD9Low; generalize d9.extractLsb' 8 1 = x; revert x; decide
theorem EncodedLength.movInd (i8 : Byte) (j : PtrNum) : Statement (.movInd i8 j) := by
  change (rowOf (0x24 ||| j.setWidth 8)).map (fun r => layoutLength r.layout) = some 2
  revert j; decide
theorem EncodedLength.jmp (a12 : BitVec 12) : Statement (.jmp a12) := by
  change (rowOf (0x28 ||| ((a12.extractLsb' 11 1).setWidth 8 <<< 4) ||| (a12.extractLsb' 8 3).setWidth 8)).map
      (fun r => layoutLength r.layout) = some 2
  generalize a12.extractLsb' 11 1 = x; generalize a12.extractLsb' 8 3 = y; revert x y; decide
theorem EncodedLength.mul : Statement .mul := rfl
theorem EncodedLength.beImm (i8 : Byte) (r8 : Byte) : Statement (.beImm i8 r8) := rfl
theorem EncodedLength.beDir (d9 : DAddr) (r8 : Byte) : Statement (.beDir d9 r8) := by
  change (rowOf (encD9Low 0x32 d9)).map (fun r => layoutLength r.layout) = some 3
  unfold encD9Low; generalize d9.extractLsb' 8 1 = x; revert x; decide
theorem EncodedLength.beInd (j : PtrNum) (i8 : Byte) (r8 : Byte) : Statement (.beInd j i8 r8) := by
  change (rowOf (0x34 ||| j.setWidth 8)).map (fun r => layoutLength r.layout) = some 3
  revert j; decide
theorem EncodedLength.div : Statement .div := rfl
theorem EncodedLength.bneImm (i8 : Byte) (r8 : Byte) : Statement (.bneImm i8 r8) := rfl
theorem EncodedLength.bneDir (d9 : DAddr) (r8 : Byte) : Statement (.bneDir d9 r8) := by
  change (rowOf (encD9Low 0x42 d9)).map (fun r => layoutLength r.layout) = some 3
  unfold encD9Low; generalize d9.extractLsb' 8 1 = x; revert x; decide
theorem EncodedLength.bneInd (j : PtrNum) (i8 : Byte) (r8 : Byte) : Statement (.bneInd j i8 r8) := by
  change (rowOf (0x44 ||| j.setWidth 8)).map (fun r => layoutLength r.layout) = some 3
  revert j; decide
theorem EncodedLength.bpc (d9 : DAddr) (b3 : BitNum) (r8 : Byte) : Statement (.bpc d9 b3 r8) := by
  change (rowOf (encD9Bit 0x48 d9 b3)).map (fun r => layoutLength r.layout) = some 3
  unfold encD9Bit; generalize d9.extractLsb' 8 1 = x; revert x b3; decide
theorem EncodedLength.ldf : Statement .ldf := rfl
theorem EncodedLength.stf : Statement .stf := rfl
theorem EncodedLength.dbnzDir (d9 : DAddr) (r8 : Byte) : Statement (.dbnzDir d9 r8) := by
  change (rowOf (encD9Low 0x52 d9)).map (fun r => layoutLength r.layout) = some 3
  unfold encD9Low; generalize d9.extractLsb' 8 1 = x; revert x; decide
theorem EncodedLength.dbnzInd (j : PtrNum) (r8 : Byte) : Statement (.dbnzInd j r8) := by
  change (rowOf (0x54 ||| j.setWidth 8)).map (fun r => layoutLength r.layout) = some 2
  revert j; decide
theorem EncodedLength.push (d9 : DAddr) : Statement (.push d9) := by
  change (rowOf (encD9Low 0x60 d9)).map (fun r => layoutLength r.layout) = some 2
  unfold encD9Low; generalize d9.extractLsb' 8 1 = x; revert x; decide
theorem EncodedLength.incDir (d9 : DAddr) : Statement (.incDir d9) := by
  change (rowOf (encD9Low 0x62 d9)).map (fun r => layoutLength r.layout) = some 2
  unfold encD9Low; generalize d9.extractLsb' 8 1 = x; revert x; decide
theorem EncodedLength.incInd (j : PtrNum) : Statement (.incInd j) := by
  change (rowOf (0x64 ||| j.setWidth 8)).map (fun r => layoutLength r.layout) = some 1
  revert j; decide
theorem EncodedLength.bp (d9 : DAddr) (b3 : BitNum) (r8 : Byte) : Statement (.bp d9 b3 r8) := by
  change (rowOf (encD9Bit 0x68 d9 b3)).map (fun r => layoutLength r.layout) = some 3
  unfold encD9Bit; generalize d9.extractLsb' 8 1 = x; revert x b3; decide
theorem EncodedLength.pop (d9 : DAddr) : Statement (.pop d9) := by
  change (rowOf (encD9Low 0x70 d9)).map (fun r => layoutLength r.layout) = some 2
  unfold encD9Low; generalize d9.extractLsb' 8 1 = x; revert x; decide
theorem EncodedLength.decDir (d9 : DAddr) : Statement (.decDir d9) := by
  change (rowOf (encD9Low 0x72 d9)).map (fun r => layoutLength r.layout) = some 2
  unfold encD9Low; generalize d9.extractLsb' 8 1 = x; revert x; decide
theorem EncodedLength.decInd (j : PtrNum) : Statement (.decInd j) := by
  change (rowOf (0x74 ||| j.setWidth 8)).map (fun r => layoutLength r.layout) = some 1
  revert j; decide
theorem EncodedLength.bz (r8 : Byte) : Statement (.bz r8) := rfl
theorem EncodedLength.addImm (i8 : Byte) : Statement (.addImm i8) := rfl
theorem EncodedLength.addDir (d9 : DAddr) : Statement (.addDir d9) := by
  change (rowOf (encD9Low 0x82 d9)).map (fun r => layoutLength r.layout) = some 2
  unfold encD9Low; generalize d9.extractLsb' 8 1 = x; revert x; decide
theorem EncodedLength.addInd (j : PtrNum) : Statement (.addInd j) := by
  change (rowOf (0x84 ||| j.setWidth 8)).map (fun r => layoutLength r.layout) = some 1
  revert j; decide
theorem EncodedLength.bn (d9 : DAddr) (b3 : BitNum) (r8 : Byte) : Statement (.bn d9 b3 r8) := by
  change (rowOf (encD9Bit 0x88 d9 b3)).map (fun r => layoutLength r.layout) = some 3
  unfold encD9Bit; generalize d9.extractLsb' 8 1 = x; revert x b3; decide
theorem EncodedLength.bnz (r8 : Byte) : Statement (.bnz r8) := rfl
theorem EncodedLength.addcImm (i8 : Byte) : Statement (.addcImm i8) := rfl
theorem EncodedLength.addcDir (d9 : DAddr) : Statement (.addcDir d9) := by
  change (rowOf (encD9Low 0x92 d9)).map (fun r => layoutLength r.layout) = some 2
  unfold encD9Low; generalize d9.extractLsb' 8 1 = x; revert x; decide
theorem EncodedLength.addcInd (j : PtrNum) : Statement (.addcInd j) := by
  change (rowOf (0x94 ||| j.setWidth 8)).map (fun r => layoutLength r.layout) = some 1
  revert j; decide
theorem EncodedLength.ret : Statement .ret := rfl
theorem EncodedLength.subImm (i8 : Byte) : Statement (.subImm i8) := rfl
theorem EncodedLength.subDir (d9 : DAddr) : Statement (.subDir d9) := by
  change (rowOf (encD9Low 0xA2 d9)).map (fun r => layoutLength r.layout) = some 2
  unfold encD9Low; generalize d9.extractLsb' 8 1 = x; revert x; decide
theorem EncodedLength.subInd (j : PtrNum) : Statement (.subInd j) := by
  change (rowOf (0xA4 ||| j.setWidth 8)).map (fun r => layoutLength r.layout) = some 1
  revert j; decide
theorem EncodedLength.not1 (d9 : DAddr) (b3 : BitNum) : Statement (.not1 d9 b3) := by
  change (rowOf (encD9Bit 0xA8 d9 b3)).map (fun r => layoutLength r.layout) = some 2
  unfold encD9Bit; generalize d9.extractLsb' 8 1 = x; revert x b3; decide
theorem EncodedLength.reti : Statement .reti := rfl
theorem EncodedLength.subcImm (i8 : Byte) : Statement (.subcImm i8) := rfl
theorem EncodedLength.subcDir (d9 : DAddr) : Statement (.subcDir d9) := by
  change (rowOf (encD9Low 0xB2 d9)).map (fun r => layoutLength r.layout) = some 2
  unfold encD9Low; generalize d9.extractLsb' 8 1 = x; revert x; decide
theorem EncodedLength.subcInd (j : PtrNum) : Statement (.subcInd j) := by
  change (rowOf (0xB4 ||| j.setWidth 8)).map (fun r => layoutLength r.layout) = some 1
  revert j; decide
theorem EncodedLength.ror : Statement .ror := rfl
theorem EncodedLength.ldc : Statement .ldc := rfl
theorem EncodedLength.xchDir (d9 : DAddr) : Statement (.xchDir d9) := by
  change (rowOf (encD9Low 0xC2 d9)).map (fun r => layoutLength r.layout) = some 2
  unfold encD9Low; generalize d9.extractLsb' 8 1 = x; revert x; decide
theorem EncodedLength.xchInd (j : PtrNum) : Statement (.xchInd j) := by
  change (rowOf (0xC4 ||| j.setWidth 8)).map (fun r => layoutLength r.layout) = some 1
  revert j; decide
theorem EncodedLength.clr1 (d9 : DAddr) (b3 : BitNum) : Statement (.clr1 d9 b3) := by
  change (rowOf (encD9Bit 0xC8 d9 b3)).map (fun r => layoutLength r.layout) = some 2
  unfold encD9Bit; generalize d9.extractLsb' 8 1 = x; revert x b3; decide
theorem EncodedLength.rorc : Statement .rorc := rfl
theorem EncodedLength.orImm (i8 : Byte) : Statement (.orImm i8) := rfl
theorem EncodedLength.orDir (d9 : DAddr) : Statement (.orDir d9) := by
  change (rowOf (encD9Low 0xD2 d9)).map (fun r => layoutLength r.layout) = some 2
  unfold encD9Low; generalize d9.extractLsb' 8 1 = x; revert x; decide
theorem EncodedLength.orInd (j : PtrNum) : Statement (.orInd j) := by
  change (rowOf (0xD4 ||| j.setWidth 8)).map (fun r => layoutLength r.layout) = some 1
  revert j; decide
theorem EncodedLength.rol : Statement .rol := rfl
theorem EncodedLength.andImm (i8 : Byte) : Statement (.andImm i8) := rfl
theorem EncodedLength.andDir (d9 : DAddr) : Statement (.andDir d9) := by
  change (rowOf (encD9Low 0xE2 d9)).map (fun r => layoutLength r.layout) = some 2
  unfold encD9Low; generalize d9.extractLsb' 8 1 = x; revert x; decide
theorem EncodedLength.andInd (j : PtrNum) : Statement (.andInd j) := by
  change (rowOf (0xE4 ||| j.setWidth 8)).map (fun r => layoutLength r.layout) = some 1
  revert j; decide
theorem EncodedLength.set1 (d9 : DAddr) (b3 : BitNum) : Statement (.set1 d9 b3) := by
  change (rowOf (encD9Bit 0xE8 d9 b3)).map (fun r => layoutLength r.layout) = some 2
  unfold encD9Bit; generalize d9.extractLsb' 8 1 = x; revert x b3; decide
theorem EncodedLength.rolc : Statement .rolc := rfl
theorem EncodedLength.xorImm (i8 : Byte) : Statement (.xorImm i8) := rfl
theorem EncodedLength.xorDir (d9 : DAddr) : Statement (.xorDir d9) := by
  change (rowOf (encD9Low 0xF2 d9)).map (fun r => layoutLength r.layout) = some 2
  unfold encD9Low; generalize d9.extractLsb' 8 1 = x; revert x; decide
theorem EncodedLength.xorInd (j : PtrNum) : Statement (.xorInd j) := by
  change (rowOf (0xF4 ||| j.setWidth 8)).map (fun r => layoutLength r.layout) = some 1
  revert j; decide

end Sys2Proof.Laws
end

