-- ==== Sys2Proof/Tests/Slice0.lean ====
section
/-! SUPPORT. The model's own tests: words written out bit by bit from spec/30_encoding.md, one step for each instruction
(expected values are the worked examples of the instruction's rule, or hand calculation from it), and for each
statement with hypotheses a concrete state and operands that meet them.

WellFormed: the spec reserves no operand value (30_encoding.md R145) and every operand's width is in its type, so there
is no check to refuse an ill-formed term; `test_wellFormed_extremes` shows the extreme operands accepted. -/

namespace Sys2Proof.Tests

open Sys2Proof.Machine Sys2Proof.Safety

set_option Elab.async false

theorem test_wellFormed_extremes :
    (Instr.bpc 0x1FF 7 0xFF).wellFormed = true ∧ (Instr.jmpf 0xFFFF).wellFormed = true ∧
      (Instr.movInd 0xFF 3).wellFormed = true := ⟨rfl, rfl, rfl⟩

/-! ### Words (30_encoding.md R131 to R143) -/

/-- Whether each word decodes to its instruction with nothing left over, and encodes back to the word. -/
def wordsOk (l : List (List Byte × Instr)) : Bool :=
  l.all fun p => (decode p.1).toOption == some (p.2, []) && encode p.2 == p.1

theorem test_words_arithmetic : wordsOk
    [([0x81, 0x13], .addImm 0x13),
     ([0x82, 0x10], .addDir 0x010),
     ([0x85], .addInd 1),
     ([0x91, 0x7F], .addcImm 0x7F),
     ([0x92, 0x30], .addcDir 0x030),
     ([0x96], .addcInd 2),
     ([0xA1, 0x01], .subImm 0x01),
     ([0xA3, 0x02], .subDir 0x102),
     ([0xA4], .subInd 0),
     ([0xB1, 0x10], .subcImm 0x10),
     ([0xB2, 0x41], .subcDir 0x041),
     ([0xB7], .subcInd 3),
     ([0x62, 0x20], .incDir 0x020),
     ([0x64], .incInd 0),
     ([0x72, 0x20], .decDir 0x020),
     ([0x76], .decInd 2),
     ([0x30], .mul),
     ([0x40], .div)] = true := by decide +kernel

theorem test_words_logic : wordsOk
    [([0xE1, 0x0F], .andImm 0x0F),
     ([0xE2, 0x50], .andDir 0x050),
     ([0xE4], .andInd 0),
     ([0xD1, 0x0F], .orImm 0x0F),
     ([0xD3, 0x4C], .orDir 0x14C),
     ([0xD5], .orInd 1),
     ([0xF1, 0xFF], .xorImm 0xFF),
     ([0xF2, 0x52], .xorDir 0x052),
     ([0xF7], .xorInd 3),
     ([0xE0], .rol),
     ([0xF0], .rolc),
     ([0xC0], .ror),
     ([0xD0], .rorc)] = true := by decide +kernel

theorem test_words_transfer : wordsOk
    [([0x02, 0x20], .ldDir 0x020),
     ([0x05], .ldInd 1),
     ([0x13, 0x01], .stDir 0x101),
     ([0x17], .stInd 3),
     ([0x22, 0x10, 0x05], .movDir 0x05 0x010),
     ([0x23, 0x06, 0x7F], .movDir 0x7F 0x106),
     ([0x26, 0x02], .movInd 0x02 2),
     ([0xC2, 0x20], .xchDir 0x020),
     ([0xC4], .xchInd 0),
     ([0x61, 0x00], .push 0x100),
     ([0x71, 0x02], .pop 0x102),
     ([0xC1], .ldc)] = true := by decide +kernel

theorem test_words_bit : wordsOk
    [([0xEB, 0x20], .set1 0x020 3),
     ([0xFC, 0x4C], .set1 0x14C 4),
     ([0xCF, 0x20], .clr1 0x020 7),
     ([0xD8, 0x07], .clr1 0x107 0),
     ([0xA8, 0x20], .not1 0x020 0),
     ([0xBF, 0x01], .not1 0x101 7)] = true := by decide +kernel

theorem test_words_branch : wordsOk
    [([0x01, 0x7F], .br 0x7F),
     ([0x11, 0x00, 0x10], .brf 0x1000),
     ([0x80, 0x10], .bz 0x10),
     ([0x90, 0x10], .bnz 0x10),
     ([0x6B, 0x20, 0x05], .bp 0x020 3 0x05),
     ([0x4B, 0x20, 0x05], .bpc 0x020 3 0x05),
     ([0x5F, 0x01, 0x05], .bpc 0x101 7 0x05),
     ([0x8B, 0x20, 0x05], .bn 0x020 3 0x05),
     ([0x52, 0x10, 0xFB], .dbnzDir 0x010 0xFB),
     ([0x55, 0x10], .dbnzInd 1 0x10),
     ([0x31, 0x10, 0x20], .beImm 0x10 0x20),
     ([0x33, 0x40, 0x10], .beDir 0x140 0x10),
     ([0x34, 0x06, 0x10], .beInd 0 0x06 0x10),
     ([0x41, 0x10, 0x20], .bneImm 0x10 0x20),
     ([0x42, 0x40, 0x10], .bneDir 0x040 0x10),
     ([0x44, 0x07, 0x10], .bneInd 0 0x07 0x10),
     ([0x3D, 0x67], .jmp 0xD67),
     ([0x21, 0xAB, 0xCD], .jmpf 0xABCD)] = true := by decide +kernel

theorem test_words_subroutine : wordsOk
    [([0x1D, 0x67], .call 0xD67),
     ([0x0A, 0x34], .call 0x234),
     ([0x20, 0xAB, 0xCD], .callf 0xABCD),
     ([0x10, 0x00, 0x01], .callr 0x0100),
     ([0xA0], .ret),
     ([0xB0], .reti)] = true := by decide +kernel

theorem test_words_system : wordsOk
    [([0x00], .nop),
     ([0x50], .ldf),
     ([0x51], .stf)] = true := by decide +kernel

/-- No opcode byte at all, and an instruction cut short, are rejected by name. -/
theorem test_decode_rejects : (decode []).toOption = none ∧ (decode [0x81]).toOption = none ∧
    (decode [0x22, 0x10]).toOption = none := by decide

/-! ### One step each -/

/-- A machine at `pc` with a program there and the listed register (index = address less 0x100) and RAM bytes. -/
def machine (pc : PAddr) (prog : List Byte) (regs ram : List (Nat × Byte)) : State :=
  let s : State := { State.reset with
    pc := pc
    sfr := regs.foldl (fun m c => m.write c.1 c.2) []
    ram := ram.foldl (fun m c => m.write c.1 c.2) [] }
  s.storeProgram pc prog

/-- What a check says of the state after one step. -/
def after (s : State) (check : State → Bool) : Bool :=
  match step s with
  | .next t => check t
  | .fault _ => false
  | .refused _ => false

/-- R202 -/
theorem test_addImm : after (machine 0x200 [0x81, 0x13] [(0, 0x55)] [])
    (fun t => t.acc == 0x68 && t.psw == 0x01 && t.pc == 0x202) = true := by decide +kernel

/-- R203 -/
theorem test_addDir : after (machine 0x200 [0x82, 0x10] [(0, 0x7F)] [(0x10, 0x01)])
    (fun t => t.acc == 0x80 && t.psw == 0x45) = true := by decide +kernel

/-- R204 -/
theorem test_addInd : after (machine 0x200 [0x85] [(0, 0x01)] [(1, 0x20), (0x20, 0xFF)])
    (fun t => t.acc == 0x00 && t.psw == 0xC0) = true := by decide +kernel

/-- R205 -/
theorem test_addcImm : after (machine 0x200 [0x91, 0x7F] [(1, 0x80)] [])
    (fun t => t.acc == 0x80 && t.psw == 0x41) = true := by decide +kernel

/-- R206 -/
theorem test_addcDir : after (machine 0x200 [0x92, 0x30] [(0, 0xFF), (1, 0x80)] [(0x30, 0xFF)])
    (fun t => t.acc == 0xFF && t.psw == 0xC0) = true := by decide +kernel

/-- R207 -/
theorem test_addcInd : after (machine 0x200 [0x96] [(0, 0x0F), (1, 0x80), (2, 0x10)] [(2, 0x02)])
    (fun t => t.acc == 0x20 && t.psw == 0x41) = true := by decide +kernel

/-- R208 -/
theorem test_subImm : after (machine 0x200 [0xA1, 0x01] [(0, 0x80)] [])
    (fun t => t.acc == 0x7F && t.psw == 0x45) = true := by decide +kernel

/-- R209 -/
theorem test_subDir : after (machine 0x200 [0xA2, 0x40] [] [(0x40, 0x01)])
    (fun t => t.acc == 0xFF && t.psw == 0xC0) = true := by decide +kernel

/-- R210 -/
theorem test_subInd : after (machine 0x200 [0xA4] [(0, 0x10), (1, 0x08)] [(4, 0x50), (0x50, 0x01)])
    (fun t => t.acc == 0x0F && t.psw == 0x48) = true := by decide +kernel

/-- R211 -/
theorem test_subcImm : after (machine 0x200 [0xB1, 0x10] [(0, 0x10), (1, 0x80)] [])
    (fun t => t.acc == 0xFF && t.psw == 0xC0) = true := by decide +kernel

/-- R212 -/
theorem test_subcDir : after (machine 0x200 [0xB2, 0x41] [(1, 0x80)] [(0x41, 0x7F)])
    (fun t => t.acc == 0x80 && t.psw == 0xC5) = true := by decide +kernel

/-- R213 -/
theorem test_subcInd : after (machine 0x200 [0xB7] [(0, 0x05), (1, 0x80)] [])
    (fun t => t.acc == 0xFF && t.psw == 0xC0) = true := by decide +kernel

/-- R214 -/
theorem test_incDir : after (machine 0x200 [0x62, 0x20] [(1, 0x84)] [(0x20, 0xFF)])
    (fun t => t.dataByte 0x020 == 0x00 && t.psw == 0x84) = true := by decide +kernel

/-- R214 -/
theorem test_incDir_psw : after (machine 0x200 [0x63, 0x01] [(0, 0x01)] [])
    (fun t => t.reg .psw == 0x02 && t.ramBank == 1) = true := by decide +kernel

/-- R215 -/
theorem test_incInd : after (machine 0x200 [0x64] [] [])
    (fun t => t.ram.read 0 == 0x01) = true := by decide +kernel

/-- R216 -/
theorem test_decDir : after (machine 0x200 [0x72, 0x20] [] [])
    (fun t => t.ram.read 0x20 == 0xFF && t.psw == 0x00) = true := by decide +kernel

/-- R217 -/
theorem test_decInd : after (machine 0x200 [0x76] [(0, 0x01)] [])
    (fun t => t.acc == 0x00 && t.psw == 0x00) = true := by decide +kernel

/-- R218 -/
theorem test_mul : after (machine 0x200 [0x30] [(0, 0x12), (1, 0xC0), (2, 0x56), (3, 0x34)] [])
    (fun t => t.reg .c == 0x78 && t.acc == 0x1D && t.reg .b == 0x06 && t.psw == 0x44 && t.lastCycles == 7) = true := by decide +kernel

/-- R219 -/
theorem test_div : after (machine 0x200 [0x40] [(0, 0x12), (1, 0xC4), (2, 0x56), (3, 0x34)] [])
    (fun t => t.acc == 0x00 && t.reg .c == 0x36 && t.reg .b == 0x10 && t.psw == 0x40) = true := by decide +kernel

/-- R219 -/
theorem test_div_by_zero : after (machine 0x200 [0x40] [(0, 0x12), (3, 0x34)] [])
    (fun t => t.acc == 0xFF && t.reg .c == 0x34 && t.reg .b == 0x00 && t.psw == 0x04) = true := by decide +kernel

/-- R231 -/
theorem test_andImm : after (machine 0x200 [0xE1, 0x0F] [(0, 0x5A), (1, 0xC4)] [])
    (fun t => t.acc == 0x0A && t.psw == 0xC4) = true := by decide +kernel

/-- R232 -/
theorem test_andDir : after (machine 0x200 [0xE2, 0x50] [(0, 0xF0)] [(0x50, 0x3C)])
    (fun t => t.acc == 0x30 && t.psw == 0x00) = true := by decide +kernel

/-- R233 -/
theorem test_andInd : after (machine 0x200 [0xE4] [(0, 0xF0)] [(0, 0x50), (0x50, 0x3C)])
    (fun t => t.acc == 0x30) = true := by decide +kernel

/-- R234 -/
theorem test_orImm : after (machine 0x200 [0xD1, 0x0F] [(0, 0x5A)] [])
    (fun t => t.acc == 0x5F && t.psw == 0x00) = true := by decide +kernel

/-- R235 -/
theorem test_orDir : after (machine 0x200 [0xD2, 0x51] [(0, 0x01)] [(0x51, 0x80)])
    (fun t => t.acc == 0x81) = true := by decide +kernel

/-- R236 -/
theorem test_orInd : after (machine 0x200 [0xD5] [(0, 0x01)] [(1, 0x51), (0x51, 0x80)])
    (fun t => t.acc == 0x81) = true := by decide +kernel

/-- R237 -/
theorem test_xorImm : after (machine 0x200 [0xF1, 0xFF] [(0, 0x5A)] [])
    (fun t => t.acc == 0xA5 && t.psw == 0x00) = true := by decide +kernel

/-- R238 -/
theorem test_xorDir : after (machine 0x200 [0xF2, 0x52] [(0, 0x0F)] [(0x52, 0xFF)])
    (fun t => t.acc == 0xF0) = true := by decide +kernel

/-- R239 -/
theorem test_xorInd : after (machine 0x200 [0xF7] [(0, 0x31)] [])
    (fun t => t.acc == 0x00 && t.psw == 0x00) = true := by decide +kernel

/-- R240 -/
theorem test_rol : after (machine 0x200 [0xE0] [(0, 0x81), (1, 0x80)] [])
    (fun t => t.acc == 0x03 && t.psw == 0x80) = true := by decide +kernel

/-- R241 -/
theorem test_rolc : after (machine 0x200 [0xF0] [(0, 0x81)] [])
    (fun t => t.acc == 0x02 && t.psw == 0x81) = true := by decide +kernel

/-- R242 -/
theorem test_ror : after (machine 0x200 [0xC0] [(0, 0x01)] [])
    (fun t => t.acc == 0x80 && t.psw == 0x01) = true := by decide +kernel

/-- R243 -/
theorem test_rorc : after (machine 0x200 [0xD0] [(1, 0x80)] [])
    (fun t => t.acc == 0x80 && t.psw == 0x01) = true := by decide +kernel

/-- R250 -/
theorem test_ldDir : after (machine 0x200 [0x02, 0x20] [] [(0x20, 0x3C)])
    (fun t => t.acc == 0x3C && t.psw == 0x00) = true := by decide +kernel

/-- R250 -/
theorem test_ldDir_writeOnly : after (machine 0x200 [0x03, 0x27] [(0x27, 0x12)] [])
    (fun t => t.acc == 0xFF) = true := by decide +kernel

/-- R251 -/
theorem test_ldInd : after (machine 0x200 [0x05] [] [(1, 0x40), (0x40, 0x07)])
    (fun t => t.acc == 0x07 && t.psw == 0x01) = true := by decide +kernel

/-- R252 -/
theorem test_stDir : after (machine 0x200 [0x13, 0x01] [(0, 0x02)] [])
    (fun t => t.ramBank == 1) = true := by decide +kernel

/-- R253 -/
theorem test_stInd : after (machine 0x200 [0x17] [(0, 0x5A)] [(3, 0x80)])
    (fun t => t.xram.read 0 == 0x5A && t.eventLog == [.displayDirty 0x180 0x5A, .sinkWrite 0x180 0x5A, .memoryChanged 0x180 0x5A]) = true := by decide +kernel

/-- R254 -/
theorem test_movDir : after (machine 0x200 [0x22, 0x10, 0x05] [] [])
    (fun t => t.ram.read 0x10 == 0x05) = true := by decide +kernel

/-- R255, R93 (a bad bank number) -/
theorem test_movInd : after (machine 0x200 [0x26, 0x03] [] [(2, 0x25)])
    (fun t => t.reg .xbnk == 0x03 && t.xramBank == 0 && t.faultReport == some .invalidBankSelect && t.errorLog == [⟨.invalidBankSelect, 0x125, 0x03, 0x200⟩]) = true := by decide +kernel

/-- R256 -/
theorem test_xchDir : after (machine 0x200 [0xC2, 0x20] [(0, 0x11)] [(0x20, 0x22)])
    (fun t => t.acc == 0x22 && t.ram.read 0x20 == 0x11) = true := by decide +kernel

/-- R257 -/
theorem test_xchInd : after (machine 0x200 [0xC4] [(0, 0x11)] [(0, 0x20), (0x20, 0x22)])
    (fun t => t.acc == 0x22 && t.ram.read 0x20 == 0x11) = true := by decide +kernel

/-- R260 -/
theorem test_push : after (machine 0x200 [0x61, 0x00] [(0, 0x42), (6, 0x7F)] [])
    (fun t => t.sp == 0x80 && t.ram.read 0x80 == 0x42 && t.eventLog == []) = true := by decide +kernel

/-- R260, R108 -/
theorem test_push_overflow : after (machine 0x200 [0x61, 0x00] [(0, 0x42), (6, 0xFF)] [])
    (fun t => t.sp == 0x00 && t.ram.read 0 == 0x42 && t.errorLog == [⟨.stackOverflow, 0x00, 0x42, 0x200⟩] && t.faultReport == none) = true := by decide +kernel

/-- R261 -/
theorem test_pop : after (machine 0x200 [0x71, 0x02] [(6, 0x80)] [(0x80, 0x99)])
    (fun t => t.reg .b == 0x99 && t.sp == 0x7F) = true := by decide +kernel

/-- R261 -/
theorem test_pop_sp : after (machine 0x200 [0x71, 0x06] [(6, 0x80)] [(0x80, 0x99)])
    (fun t => t.sp == 0x99) = true := by decide +kernel

/-- R270 -/
theorem test_ldc : after (machine 0x200 [0xC1] [(0, 0x01), (5, 0x02)] [])
    (fun t => t.acc == 0x00 && t.psw == 0x00) = true := by decide +kernel

/-- R280 -/
theorem test_set1 : after (machine 0x200 [0xEB, 0x20] [] [])
    (fun t => t.ram.read 0x20 == 0x08) = true := by decide +kernel

/-- R280, R97 -/
theorem test_set1_writeOnly : after (machine 0x200 [0xF8, 0x45] [] [])
    (fun t => t.sfr.read 0x45 == 0xFF) = true := by decide +kernel

/-- R281 -/
theorem test_clr1 : after (machine 0x200 [0xCF, 0x20] [] [(0x20, 0xFF)])
    (fun t => t.ram.read 0x20 == 0x7F) = true := by decide +kernel

/-- R282 -/
theorem test_not1 : after (machine 0x200 [0xA8, 0x20] [] [(0x20, 0x0F)])
    (fun t => t.ram.read 0x20 == 0x0E) = true := by decide +kernel

/-- R291 -/
theorem test_br : after (machine 0x200 [0x01, 0x7F] [] [])
    (fun t => t.pc == 0x0281) = true := by decide +kernel

/-- R292 -/
theorem test_brf : after (machine 0x200 [0x11, 0x00, 0x10] [] [])
    (fun t => t.pc == 0x1203) = true := by decide +kernel

/-- R294 -/
theorem test_bz : after (machine 0x200 [0x80, 0x10] [] [])
    (fun t => t.pc == 0x0212) = true := by decide +kernel

/-- R295 -/
theorem test_bnz : after (machine 0x200 [0x90, 0x10] [(0, 0x01)] [])
    (fun t => t.pc == 0x0212) = true := by decide +kernel

/-- R296 -/
theorem test_bp : after (machine 0x200 [0x6B, 0x20, 0x05] [] [(0x20, 0x08)])
    (fun t => t.pc == 0x0208 && t.ram.read 0x20 == 0x08) = true := by decide +kernel

/-- R297 -/
theorem test_bpc : after (machine 0x200 [0x4B, 0x20, 0x05] [] [(0x20, 0x08)])
    (fun t => t.pc == 0x0208 && t.ram.read 0x20 == 0x00) = true := by decide +kernel

/-- R297 -/
theorem test_bpc_clear : after (machine 0x200 [0x4B, 0x20, 0x05] [] [(0x20, 0x10)])
    (fun t => t.pc == 0x0203 && t.eventLog == []) = true := by decide +kernel

/-- R298 -/
theorem test_bn : after (machine 0x200 [0x8B, 0x20, 0x05] [] [(0x20, 0x08)])
    (fun t => t.pc == 0x0203) = true := by decide +kernel

/-- R300 -/
theorem test_dbnzDir : after (machine 0x200 [0x52, 0x10, 0xFB] [] [(0x10, 0x02)])
    (fun t => t.pc == 0x01FE && t.ram.read 0x10 == 0x01) = true := by decide +kernel

/-- R301 -/
theorem test_dbnzInd : after (machine 0x200 [0x55, 0x10] [] [(1, 0x30), (0x30, 0x03)])
    (fun t => t.pc == 0x0212 && t.ram.read 0x30 == 0x02) = true := by decide +kernel

/-- R302 -/
theorem test_beImm : after (machine 0x200 [0x31, 0x10, 0x10] [(0, 0x05)] [])
    (fun t => t.pc == 0x0203 && t.psw == 0x80) = true := by decide +kernel

/-- R303 -/
theorem test_beDir : after (machine 0x200 [0x32, 0x40, 0x10] [(0, 0x05)] [(0x40, 0x06)])
    (fun t => t.pc == 0x0203 && t.psw == 0x80) = true := by decide +kernel

/-- R304 -/
theorem test_beInd : after (machine 0x200 [0x34, 0x06, 0x10] [(0, 0xFF), (1, 0x80)] [(0, 0x40), (0x40, 0x06)])
    (fun t => t.pc == 0x0213 && t.psw == 0x00) = true := by decide +kernel

/-- R305 -/
theorem test_bneImm : after (machine 0x200 [0x41, 0x10, 0x10] [(0, 0x20), (1, 0x80)] [])
    (fun t => t.pc == 0x0213 && t.psw == 0x01) = true := by decide +kernel

/-- R306 -/
theorem test_bneDir : after (machine 0x200 [0x42, 0x40, 0x10] [(0, 0x05)] [(0x40, 0x06)])
    (fun t => t.pc == 0x0213 && t.psw == 0x80) = true := by decide +kernel

/-- R307 -/
theorem test_bneInd : after (machine 0x200 [0x44, 0x07, 0x10] [] [(0, 0x40), (0x40, 0x06)])
    (fun t => t.pc == 0x0213 && t.psw == 0x80) = true := by decide +kernel

/-- R310 -/
theorem test_jmp : after (machine 0x1234 [0x3D, 0x67] [] [])
    (fun t => t.pc == 0x1D67) = true := by decide +kernel

/-- R311 -/
theorem test_jmpf : after (machine 0x1234 [0x21, 0xAB, 0xCD] [] [])
    (fun t => t.pc == 0xABCD) = true := by decide +kernel

/-- R320 -/
theorem test_call : after (machine 0x1234 [0x1D, 0x67] [(6, 0x7F)] [])
    (fun t => t.pc == 0x1D67 && t.sp == 0x81 && t.ram.read 0x80 == 0x36 && t.ram.read 0x81 == 0x12) = true := by decide +kernel

/-- R321 -/
theorem test_callf : after (machine 0x1234 [0x20, 0xAB, 0xCD] [(6, 0x7F)] [])
    (fun t => t.pc == 0xABCD && t.sp == 0x81 && t.ram.read 0x80 == 0x37 && t.ram.read 0x81 == 0x12) = true := by decide +kernel

/-- R322 -/
theorem test_callr : after (machine 0x1234 [0x10, 0x00, 0x01] [(6, 0x7F)] [])
    (fun t => t.pc == 0x1337 && t.ram.read 0x80 == 0x37) = true := by decide +kernel

/-- R323 -/
theorem test_ret : after (machine 0x2000 [0xA0] [(6, 0x81)] [(0x80, 0x37), (0x81, 0x12)])
    (fun t => t.pc == 0x1237 && t.sp == 0x7F) = true := by decide +kernel

/-- R340 -/
theorem test_nop : after (machine 0x0100 [0x00] [] [])
    (fun t => t.pc == 0x0101 && t.lastCycles == 1 && t.eventLog == []) = true := by decide +kernel

/-- R345, R346 -/
theorem test_stf_locked : after (machine 0x200 [0x51] [(0, 0x12), (4, 0x34), (5, 0x55), (0x54, 0x01)] [])
    (fun t => t.flash == [] && t.fstate == .s0 && t.errorLog == [⟨.flashProgramSequenceError, 0x15534, 0x12, 0x200⟩] && t.faultReport == none) = true := by decide +kernel

/-- R92 -/
theorem test_extSwitch_atJmpf : after (machine 0x200 [0x23, 0x0D, 0x01, 0x21, 0x12, 0x34] [] [])
    (fun t => t.pc == 0x1234 && t.progSrc == .flash && t.errorLog == []) = true := by decide +kernel

/-- R92, R401 -/
theorem test_extSwitch_hazard : after (machine 0x200 [0x23, 0x0D, 0x01] [] [])
    (fun t => t.pc == 0x0203 && t.progSrc == .flash && t.faultReport == some .undefinedProgramSourceSwitch) = true := by decide +kernel

/-- R342: FPR.ADDR = 1 selects flash bank 1. -/
theorem test_ldf : after { machine 0 [0x50] [(4, 0x34), (5, 0x12), (0x54, 0x01)] [] with flash := [(0x11234, 0x5E)] }
    (fun t => t.acc == 0x5E) = true := by decide +kernel

/-- R345: the first pair of the handshake, with UNLOCK set. -/
theorem test_stf_handshake : after (machine 0 [0x51] [(0, 0xAA), (4, 0x55), (5, 0x55), (0x54, 0x02)] [])
    (fun t => t.fstate == .s1 && t.flash == [] && t.errorLog == []) = true := by decide +kernel

/-- R324: the example, with the slot of HIGH occupied by T1. -/
theorem test_reti : after { machine 0x2000 [0xB0] [(6, 0x81)] [(0x80, 0x37), (0x81, 0x12)] with
      slot := ⟨none, some .t1, none⟩, rrLast := ⟨none, some .t1, none⟩ }
    (fun t => t.pc == 0x1237 && t.sp == 0x7F && t.slot == PerLevel.empty && t.prevLevel == .high) = true := by
  decide +kernel

/-- R432: a pending T1 at LOW is dispatched at the end of the step; the return address is the NOP's next one. -/
theorem test_dispatch : after { machine 0x2000 [0x00] [(6, 0x7F), (7, 0x00), (8, 0x80)] [] with pending := 0x020 }
    (fun t => t.pc == 0x002B && t.ram.read 0x80 == 0x01 && t.ram.read 0x81 == 0x20 && t.suppress &&
      t.slot.low == some .t1 && t.pending == 0) = true := by decide +kernel

/-- R440: a halted CPU wakes by dispatch only, and then HALT is clear. -/
theorem test_halt_wakes : after { machine 0x2000 [0x00] [(6, 0x7F), (7, 0x01), (8, 0x80)] [] with
      arrivals := [[.t1]] }
    (fun t => t.pc == 0x002B && t.ram.read 0x80 == 0x00 && !t.halted && t.lastCycles == 1) = true := by
  decide +kernel

/-! ### The hypotheses of the statements can be met -/

/-- EncodeOfDecodeIsTheBytes -/
theorem test_witness_encodeOfDecode : decode [0x81, 0x13, 0xFF] = .ok (.addImm 0x13, [0xFF]) := rfl

/-- DivUndoesMulWithoutOverflow: ACC:C = 0x00FF, B = 1 (no overflow), and the largest product without one. -/
theorem test_witness_divUndoesMul :
    (machine 0 [] [(2, 1), (3, 0xFF)] []).sfr.read 2 ≠ 0 ∧
    (∃ t, exec .mul (machine 0 [] [(2, 1), (3, 0xFF)] []) = .next t ∧ (t.sfr.read 1).getLsbD 2 = false) ∧
    (∃ t, exec .mul (machine 0 [] [(0, 0x01), (2, 0xFF), (3, 0x01)] []) = .next t ∧
      (t.sfr.read 1).getLsbD 2 = false) :=
  ⟨by decide, ⟨_, rfl, by decide +kernel⟩, ⟨_, rfl, by decide +kernel⟩⟩

/-- WriteOnlyRegistersReadAsOnes: the first and the last of the five. -/
theorem test_witness_writeOnly : (0x120 : DAddr) ∈ ([0x120, 0x127, 0x145, 0x146, 0x14D] : List DAddr) ∧
    (0x14D : DAddr) ∈ ([0x120, 0x127, 0x145, 0x146, 0x14D] : List DAddr) := by decide

/-- WorkRamPortStepsThroughAllBytes: INCE set, the address at its last value. -/
theorem test_witness_workRam : workInc (machine 0 [] [(0x63, 0x10), (0x64, 0xFF), (0x65, 0x01)] []) = true ∧
    workIndex (machine 0 [] [(0x63, 0x10), (0x64, 0xFF), (0x65, 0x01)] []) = 511 := by decide +kernel

/-- BankSwitchesTakeEffectAtOnce: the last bank, and the addresses next to the borders. -/
theorem test_witness_banks : (2 : Byte).toNat < 3 ∧ (0x0FF : DAddr).toNat < 0x100 ∧ 0x180 ≤ (0x180 : DAddr).toNat := by
  decide +kernel

/-- StfRunsTheFlashStateMachine: locked, a matching pair in each state, a mismatch, a mismatch that restarts. -/
theorem test_witness_stfHandshake :
    (machine 0 [] [] []).fstate ≠ .prog ∧ ((machine 0 [] [] []).sfr.read 0x54).getLsbD 1 = false ∧
    (∀ p ∈ ([(.s0, 0xAA, 0x55, 0x55), (.s1, 0x55, 0xAA, 0x2A), (.s2, 0xA0, 0x55, 0x55), (.s0, 0x00, 0x55, 0x55),
        (.s2, 0xAA, 0x55, 0x55)] : List (FlashState × Byte × Byte × Byte)),
      p.1 ≠ .prog ∧ ((machine 0 [] [(0, p.2.1), (4, p.2.2.1), (5, p.2.2.2), (0x54, 0x02)] []).sfr.read 0x54).getLsbD 1
        = true) := by
  decide +kernel

/-- A machine that programs flash: the next STF stores 0x5A at flash address 0. -/
def programming (count : Nat) (trl : Byte) : State :=
  { machine 0 [0x51] [(0, 0x5A), (4, trl)] [] with fstate := .prog, fcount := count }

/-- StfRunsTheFlashStateMachine, programming: an aligned start, an unaligned start, the last byte of the budget. -/
theorem test_witness_stfPrograms :
    (programming 0 0).fstate = .prog ∧ ((programming 0 0).sfr.read 4).toNat % 128 = 0 ∧
    (programming 0 0x7F).fcount = 0 ∧ ((programming 0 0x7F).sfr.read 4).toNat % 128 ≠ 0 ∧
    (programming 127 0x7F).fcount = 127 := by decide +kernel

/-- OnlyProgrammingStfChangesFlash: a step and an `exec` that change a flash byte. -/
theorem test_witness_flashChanges :
    (∃ t, step (programming 0 0) = .next t ∧ ¬KeepsFlash (programming 0 0) t) ∧
    (∃ t, exec .stf (programming 0 0) = .next t ∧ ¬KeepsFlash (programming 0 0) t) :=
  ⟨⟨_, rfl, fun h => absurd (h 0) (by decide +kernel)⟩, ⟨_, rfl, fun h => absurd (h 0) (by decide +kernel)⟩⟩

/-- StepRunsTheDecodedInstruction: HALT clear, the bytes at pc decode (an instruction that wraps past 0xFFFF). -/
theorem test_witness_stepRuns :
    ((machine 0xFFFF [0x22, 0x10, 0x05] [] []).sfr.read 7).getLsbD 0 = false ∧
    (Instr.movDir 0x05 0x010).wellFormed = true ∧
    (decode [codeByte (machine 0xFFFF [0x22, 0x10, 0x05] [] []) 0xFFFF,
      codeByte (machine 0xFFFF [0x22, 0x10, 0x05] [] []) (0xFFFF + 1),
      codeByte (machine 0xFFFF [0x22, 0x10, 0x05] [] []) (0xFFFF + 2)]).toOption =
        some (.movDir 0x05 0x010, []) := by decide +kernel

/-- A halted machine with a request that no priority admits: IE7 is 0. -/
def halted : State := { machine 0x2000 [] [(7, 0x01)] [] with pending := 0x020, arrivals := [[]] }

/-- HaltedStepExecutesNothing, HaltedWithoutRequestStaysHalted -/
theorem test_witness_halted : (halted.sfr.read 7).getLsbD 0 = true ∧
    (halted.arrivals = [] ∨ halted.arrivals.head? = some []) ∧ ∀ l x, permitted halted l → ¬candidate halted l x := by
  refine ⟨by decide +kernel, .inr rfl, fun l x _ h => ?_⟩
  revert h
  unfold candidate
  cases l <;> cases x <;> decide +kernel

/-- Two requests at LOW, T0H dispatched there last. -/
def waiting : State :=
  { machine 0x2000 [] [(6, 0x7F), (8, 0x80)] [] with pending := 0x030, rrLast := ⟨some .t0h, none, none⟩ }

/-- RetiUndoesDispatch, and the admitting clause of BoundaryDispatchesTheChosenRequest: T1 has to be admitted. -/
theorem test_witness_admits : waiting.suppress = false ∧ Admits waiting .low .t1 := by
  refine ⟨rfl, ⟨fun k => ?_, ⟨by decide +kernel, by decide +kernel⟩, fun k y _ => ?_, fun y => ?_⟩⟩
  · cases k <;> decide +kernel
  · unfold candidate; cases k <;> cases y <;> decide +kernel
  · unfold candidate; cases y <;> decide +kernel

/-- The other clauses of BoundaryDispatchesTheChosenRequest: suppressed; and nothing to admit (`halted`). -/
theorem test_witness_boundary : ({ waiting with suppress := true } : State).suppress = true ∧
    halted.suppress = false ∧ permitted waiting .low ∧ candidate waiting .low .t1 := by
  refine ⟨rfl, rfl, fun k => ?_, by decide +kernel, by decide +kernel⟩
  cases k <;> decide +kernel

/-- SameLevelSourcesAlternate -/
theorem test_witness_alternate : waiting.suppress = false ∧ waiting.rrLast.get .low = some .t0h ∧
    IrqSource.t1 ≠ .t0h ∧ candidate waiting .low .t1 ∧ waiting.slot.get .low = none ∧
    waiting.boundary.slot.get .low ≠ none :=
  ⟨rfl, rfl, by decide, ⟨by decide +kernel, by decide +kernel⟩, rfl, by decide +kernel⟩

/-- RaisedRequestsBecomePending -/
theorem test_witness_arrivals : ({ waiting with arrivals := [[.int0, .t1], []] } : State).arrivals =
    [.int0, .t1] :: [[]] := rfl

/-- HiddenStateChangesOnlyByItsInstruction, ErrorLogOnlyGrows: an instruction, and a step, answer a next state. -/
theorem test_witness_next : (∃ t, exec .reti waiting = .next t) ∧ (∃ t, exec .nop waiting = .next t) ∧
    ∃ t, step waiting = .next t := ⟨⟨_, rfl⟩, ⟨_, rfl⟩, ⟨_, rfl⟩⟩

/-- WarmResetSetsTheWholeState -/
theorem test_witness_reset : (⟨[(6, 0x7F)], [(0x10, 0x99)], [], []⟩ : ResetDraw).allowed ∧
    (waiting.rom.wf 65536 ∧ waiting.flash.wf 131072) ∧
    Memory.wf 128 [(6, 0x7F)] ∧ Memory.wf 512 [(0x10, 0x99)] := by decide +kernel

/-- StepKeepsInvariant: a machine that runs from flash, half-way through the handshake, in a handler at HIGH. -/
theorem test_witness_invariant :
    let s : State := { machine 0x2000 [] [(6, 0x7F), (0x0D, 0x01)] [] with
      progSrc := .flash, fstate := .s1, slot := ⟨none, some .t1, none⟩, rrLast := ⟨some .p3, some .t1, none⟩ }
    Inv s ∧ ∃ t, step s = .next t := by
  refine ⟨⟨by decide +kernel, by decide +kernel, by decide +kernel, by decide +kernel, by decide +kernel,
    by decide +kernel, by decide +kernel, by decide +kernel, fun _ => rfl, fun l => ?_⟩, _, rfl⟩
  cases l <;> decide +kernel

/-- HostAccessIsBoundsChecked: the first address outside the space, and the last inside it. -/
theorem test_witness_hostAccess : 0x1FF < 0x200 ∧
    (State.reset.hostRead 0x200).2.errorLog = [⟨.outOfRange, 0x200, 0, 0⟩] ∧
    (State.reset.hostReadLatch 0x200).2.faultReport = some .outOfRange ∧
    ((0x1FF : DAddr).toNat = 0x1FF ∧ (State.reset.hostRead 0x1FF).2.errorLog = [] ∧
      (State.reset.hostWrite 0x1FF 0x5A).xram = [(0x7F, 0x5A)]) := by decide +kernel

/-- R461 and log entry 19: a restore puts pc back and repeats neither live values nor arriving requests. -/
theorem test_restore :
    let t := ({ waiting with draws := 3, arrivals := [[.p3]] } : State).restore { waiting with pc := 0x1234, draws := 1 }
    t.pc = 0x1234 ∧ t.draws = 3 ∧ t.arrivals = [[.p3]] := by decide +kernel

end Sys2Proof.Tests
end

section
/-! The data-transfer instructions (spec/42_transfer.md): loads. -/

namespace Sys2Proof.Proofs

open Sys2Proof.Machine Sys2Proof.Safety

/-! ### Loads (R250, R251) -/

/-- `ACC <- DRead(d9)` (R250). -/
theorem exec_ldDir (a : DAddr) (s : State) :
    exec (.ldDir a) s = .next ((s.dread a).2.writeReg .acc (s.dread a).1) := rfl

/-- `ACC <- DRead(EA(j))`, the pointer read before the access (R251). -/
theorem exec_ldInd (j : PtrNum) (s : State) :
    exec (.ldInd j) s = .next ((s.dread (s.indEA j)).2.writeReg .acc (s.dread (s.indEA j)).1) := rfl

/-- What both forms of LD share: the side effects of the read come first, and the write of ACC acts on the state they
leave. -/
theorem load_outcome {o : Host.Outcome State Fault Refusal} (s : State) (a : DAddr)
    (ho : o = .next ((s.dread a).2.writeReg .acc (s.dread a).1)) :
    ∃ v u, ReadOutcome s a v u ∧ Next o (AccOutcome u v) := by
  have hread : ReadOutcome s a (s.dread a).1 (s.dread a).2 := dread_outcome s a
  have hacc := writeAcc_outcome (s.dread a).2 (s.dread a).1
  exact ⟨_, _, hread, _, ho, hacc⟩

/-- Settles O18: each form of LD is a data read followed by a write of ACC. -/
theorem loadWritesAccWithReadValue : Obligations.LoadWritesAccWithReadValue := by
  constructor
  · intro a s
    exact load_outcome s a (exec_ldDir a s)
  · intro j s
    exact load_outcome s (s.indEA j) (exec_ldInd j s)

end Sys2Proof.Proofs
end

section
/-! Branches and jumps (spec/44_branch.md) and NOP (spec/46_system.md R340): those that change nothing but pc, and the
bit tests BP and BN, which first read. -/

namespace Sys2Proof.Proofs

open Sys2Proof.Machine Sys2Proof.Safety

/-! ### Targets (R290) -/

/-- Adding the sign-extended displacement is adding it as an integer, modulo 65536. -/
theorem rel8_eq_relTarget (s : State) (r8 : Byte) : rel8 s.pc r8 = relTarget s r8 := by
  have hpc : BitVec.ofInt 16 s.pc.toNat = s.pc := by rw [BitVec.ofInt_natCast, BitVec.ofNat_toNat, BitVec.setWidth_eq]
  unfold rel8 relTarget
  rw [BitVec.ofInt_add, hpc]
  rfl

/-- The page bits of pc over the 12 bits of the operand, as a sum. -/
theorem page12_eq_pageTarget (s : State) (a12 : BitVec 12) : page12 s.pc a12 = pageTarget s a12 := by
  have hpc := s.pc.isLt
  have ha := a12.isLt
  have hor : (s.pc.toNat / 4096) <<< 12 ||| a12.toNat = (s.pc.toNat / 4096) <<< 12 + a12.toNat :=
    (Nat.shiftLeft_add_eq_or_of_lt ha _).symm
  apply BitVec.eq_of_toNat_eq
  simp only [page12, pageTarget, BitVec.toNat_append, BitVec.extractLsb'_toNat, BitVec.toNat_ofNat,
    Nat.shiftRight_eq_div_pow]
  rw [Nat.mod_eq_of_lt (a := s.pc.toNat / 2 ^ 12) (by omega), hor, Nat.shiftLeft_eq]
  omega

/-! ### A branch on a condition (R290) -/

/-- `jumpIf` as a choice between two states, with pc as the only field that differs. -/
theorem jumpIf_eq_ite (s : State) (c : Bool) (t : PAddr) :
    s.jumpIf c t = if c = true then { s with pc := t } else s := rfl

/-- `jumpIf` branches exactly when its condition is true, and otherwise leaves the state alone. -/
theorem jumpIf_outcome (s : State) (c : Bool) (t : PAddr) : BranchOutcome (c = true) t s (s.jumpIf c t) := by
  rw [jumpIf_eq_ite]
  constructor
  · intro hc
    exact if_pos hc
  · intro hc
    exact if_neg hc

/-! ### Plain transfers (R291, R294, R295, R310, R311, R340) -/

/-- `pc <- Rel8(r8)` (R291). -/
theorem exec_br (r8 : Byte) (s : State) : exec (.br r8) s = .next (s.jump (rel8 s.pc r8)) := rfl

/-- `pc <- Page12(a12)` (R310). -/
theorem exec_jmp (a12 : BitVec 12) (s : State) : exec (.jmp a12) s = .next (s.jump (page12 s.pc a12)) := rfl

/-- `if ACC == 0: pc <- Rel8(r8)` (R294). -/
theorem exec_bz (r8 : Byte) (s : State) :
    exec (.bz r8) s = .next (s.jumpIf (s.sfr.read 0 == 0) (rel8 s.pc r8)) := rfl

/-- `if ACC != 0: pc <- Rel8(r8)` (R295). -/
theorem exec_bnz (r8 : Byte) (s : State) :
    exec (.bnz r8) s = .next (s.jumpIf (s.sfr.read 0 != 0) (rel8 s.pc r8)) := rfl

/-- Settles O30: every target is the arithmetic one, and a test that fails leaves pc at the next instruction. -/
theorem plainTransfersSetPcOnly : Obligations.PlainTransfersSetPcOnly := by
  intro s
  refine ⟨?nop, ?br, ?jmp, ?jmpf, ?bz, ?bnz⟩
  case nop => rfl
  case br =>
    intro r8
    rw [exec_br, rel8_eq_relTarget]
    rfl
  case jmp =>
    intro a12
    rw [exec_jmp, page12_eq_pageTarget]
    rfl
  case jmpf => exact fun _ => rfl
  case bz =>
    intro r8
    rw [exec_bz, rel8_eq_relTarget, jumpIf_eq_ite]
    simp only [beq_iff_eq]
  case bnz =>
    intro r8
    rw [exec_bnz, rel8_eq_relTarget, jumpIf_eq_ite]
    simp only [bne_iff_ne, ne_eq, ite_not]

/-! ### Bit tests (R296, R298) -/

/-- `v <- DRead(d9)`, then a branch when bit b3 of v is 1; the target comes from the pc before the read (R296). -/
theorem exec_bp (a : DAddr) (b : BitNum) (r8 : Byte) (s : State) :
    exec (.bp a b r8) s = .next ((s.dread a).2.jumpIf ((s.dread a).1.getLsbD b.toNat) (rel8 s.pc r8)) := rfl

/-- `v <- DRead(d9)`, then a branch when bit b3 of v is 0 (R298). -/
theorem exec_bn (a : DAddr) (b : BitNum) (r8 : Byte) (s : State) :
    exec (.bn a b r8) s = .next ((s.dread a).2.jumpIf (!(s.dread a).1.getLsbD b.toNat) (rel8 s.pc r8)) := rfl

/-- Settles O31: one data read serves both, BP branching on the bit it gives and BN on its complement. -/
theorem bitBranchesTestReadValue : Obligations.BitBranchesTestReadValue := by
  intro a b r8 s
  have hread : ReadOutcome s a (s.dread a).1 (s.dread a).2 := dread_outcome s a
  refine ⟨_, _, hread, ⟨_, exec_bp a b r8 s, ?bp⟩, ⟨_, exec_bn a b r8 s, ?bn⟩⟩
  case bp =>
    rw [rel8_eq_relTarget]
    exact jumpIf_outcome _ _ _
  case bn =>
    rw [rel8_eq_relTarget, ← Bool.not_eq_true']
    exact jumpIf_outcome _ _ _

end Sys2Proof.Proofs
end

section
/-! The flash load LDF (spec/46_system.md R342, R343). -/

namespace Sys2Proof.Proofs

open Sys2Proof.Machine Sys2Proof.Safety

/-! ### The flash address (R343) -/

/-- One field over another is a sum: the lower field stays below the weight of the upper one. -/
theorem toNat_append_eq_add {m n : Nat} (hi : BitVec m) (lo : BitVec n) :
    (hi ++ lo).toNat = hi.toNat * 2 ^ n + lo.toNat := by
  rw [BitVec.toNat_append, ← Nat.shiftLeft_add_eq_or_of_lt lo.isLt, Nat.shiftLeft_eq]

/-- TRH over TRL, as a sum. -/
theorem tablePtr_toNat (s : State) :
    s.tablePtr.toNat = 256 * (s.sfr.read 5).toNat + (s.sfr.read 4).toNat := by
  have happ : s.tablePtr = s.sfr.read 5 ++ s.sfr.read 4 := rfl
  rw [happ, toNat_append_eq_add]
  omega

/-- FPR.ADDR over TRH:TRL, as a sum: FPR.UNLOCK and the bits above it have no part in it. -/
theorem flashAddr_toNat (s : State) :
    s.flashAddr.toNat =
      65536 * ((s.sfr.read 0x54).toNat % 2) + 256 * (s.sfr.read 5).toNat + (s.sfr.read 4).toNat := by
  have happ : s.flashAddr = (s.sfr.read 0x54).extractLsb' 0 1 ++ s.tablePtr := rfl
  have hbit : ((s.sfr.read 0x54).extractLsb' 0 1).toNat = (s.sfr.read 0x54).toNat % 2 := by
    rw [BitVec.extractLsb'_toNat, Nat.shiftRight_zero, Nat.pow_one]
  rw [happ, toNat_append_eq_add, hbit, tablePtr_toNat]
  omega

/-! ### LDF (R342) -/

/-- `ACC <- FRead(FAddr())` (R342). -/
theorem exec_ldf (s : State) : exec .ldf s = .next (s.writeReg .acc (s.flash.read s.flashAddr.toNat)) := rfl

/-- Settles O41: LDF is a write of ACC alone, so the programming state and the flash stay; the byte comes from the
array at the arithmetic address, in which the program source has no part. -/
theorem ldfReadsFlash : Obligations.LdfReadsFlash := by
  intro s
  rw [← flashAddr_toNat]
  exact ⟨_, exec_ldf s, writeAcc_outcome s _⟩

end Sys2Proof.Proofs
end

section
/-! The host's pc hook (spec/60_exceptions.md R459). -/

namespace Sys2Proof.Proofs

open Sys2Proof.Machine Sys2Proof.Safety

/-- Making a 16-bit word of a number already reduces it modulo 65536. -/
theorem ofNat_mod_65536 (v : Nat) : BitVec.ofNat 16 (v % 65536) = BitVec.ofNat 16 v := by
  apply BitVec.eq_of_toNat_eq
  rw [BitVec.toNat_ofNat, BitVec.toNat_ofNat]
  exact Nat.mod_mod v 65536

/-- What `getPC` answers (R459). -/
theorem getPC_eq (s : State) : s.getPC = s.pc := rfl

/-- The two fields `setPC` writes, the event carrying the pc from before the write (R459). -/
theorem setPC_eq (s : State) (v : Nat) :
    s.setPC v = { s with
      pc := BitVec.ofNat 16 v
      eventLog := s.eventLog ++ [.pcChanged s.pc (BitVec.ofNat 16 v)] } := rfl

/-- Settles O59: `setPC` writes pc and one event, and the word it makes of v is v modulo 65536. -/
theorem setPcSetsPcAndLogsIt : Obligations.SetPcSetsPcAndLogsIt := by
  intro s v
  rw [ofNat_mod_65536]
  exact ⟨getPC_eq s, setPC_eq s v⟩

end Sys2Proof.Proofs
end

section
/-! The encoder and the decoder (spec/30_encoding.md): the opcode map, and that each undoes the other. -/

namespace Sys2Proof.Proofs

open Sys2Proof

/-! ### The opcode map (R142, R145) -/

/-- Settles O3: the 256 opcode bytes, each held against the 70 rows. -/
theorem everyOpcodeByteMatchesOneRow : Obligations.EveryOpcodeByteMatchesOneRow := by
  unfold Obligations.EveryOpcodeByteMatchesOneRow
  decide +kernel

/-- A row that an opcode byte matches is the row the lookup finds, since no other row matches the byte. -/
theorem rowOf_eq_some {op : Byte} {r : Row} (hr : r ∈ opcodeTable) (hop : op &&& r.mask = r.bits) :
    rowOf op = some r := by
  obtain ⟨x, hx⟩ := List.length_eq_one_iff.mp (everyOpcodeByteMatchesOneRow op).1
  have hmem : r ∈ opcodeTable.filter fun r => op &&& r.mask == r.bits := by simpa [hr] using hop
  rw [hx, List.mem_singleton] at hmem
  rw [rowOf, ← List.head?_filter, hx, hmem]
  rfl

/-- The row the lookup finds is in the map and matches the byte. -/
theorem mem_of_rowOf {op : Byte} {r : Row} (h : rowOf op = some r) : r ∈ opcodeTable ∧ op &&& r.mask = r.bits :=
  ⟨List.mem_of_find?_eq_some h, by simpa using List.find?_some h⟩

/-- Every opcode byte has a row. -/
theorem exists_rowOf (op : Byte) : ∃ r, rowOf op = some r :=
  Option.isSome_iff_exists.mp (everyOpcodeByteMatchesOneRow op).2

/-- The opcode bits a format fixes (R131). -/
def layoutMask : Layout → Byte
  | .f1 _ | .f2i _ | .f2r8 _ | .f3ir _ | .f3a16 _ | .f3r16 _ => 0xFF
  | .f2d _ | .f3di _ | .f3dr _ => 0xFE
  | .f1r _ | .f2ri _ | .f2rr _ | .f3rir _ => 0xFC
  | .f2a12 _ | .f2bit _ | .f3br _ => 0xE8

/-- `Holds l op i bs`: in the format `l`, with the fixed opcode bits `op`, the bytes `bs` are those of `i` (R131). -/
inductive Holds : Layout → Byte → Instr → List Byte → Prop where
  | f1 {mk op} : Holds (.f1 mk) op mk (encF1 op)
  | f1r {mk op} (j) : Holds (.f1r mk) op (mk j) (encF1R op j)
  | f2i {mk op} (i8) : Holds (.f2i mk) op (mk i8) (encF2I op i8)
  | f2d {mk op} (d9) : Holds (.f2d mk) op (mk d9) (encF2D op d9)
  | f2ri {mk op} (i8 j) : Holds (.f2ri mk) op (mk i8 j) (encF2RI op i8 j)
  | f2r8 {mk op} (r8) : Holds (.f2r8 mk) op (mk r8) (encF2R8 op r8)
  | f2rr {mk op} (j r8) : Holds (.f2rr mk) op (mk j r8) (encF2RR op j r8)
  | f2a12 {mk op} (a12) : Holds (.f2a12 mk) op (mk a12) (encF2A12 op a12)
  | f2bit {mk op} (d9 b3) : Holds (.f2bit mk) op (mk d9 b3) (encF2BIT op d9 b3)
  | f3di {mk op} (i8 d9) : Holds (.f3di mk) op (mk i8 d9) (encF3DI op i8 d9)
  | f3ir {mk op} (i8 r8) : Holds (.f3ir mk) op (mk i8 r8) (encF3IR op i8 r8)
  | f3dr {mk op} (d9 r8) : Holds (.f3dr mk) op (mk d9 r8) (encF3DR op d9 r8)
  | f3rir {mk op} (j i8 r8) : Holds (.f3rir mk) op (mk j i8 r8) (encF3RIR op j i8 r8)
  | f3br {mk op} (d9 b3 r8) : Holds (.f3br mk) op (mk d9 b3 r8) (encF3BR op d9 b3 r8)
  | f3a16 {mk op} (a16) : Holds (.f3a16 mk) op (mk a16) (encF3A16 op a16)
  | f3r16 {mk op} (r16) : Holds (.f3r16 mk) op (mk r16) (encF3R16 op r16)

/-- Every row's mask is its format's, and its bits lie inside the mask. -/
theorem row_mask : ∀ r ∈ opcodeTable, r.mask = layoutMask r.layout ∧ r.bits &&& r.mask = r.bits := by
  simp [opcodeTable, layoutMask]

/-- A row and the encoder agree on the bytes of the row's instructions. -/
theorem encode_of_holds : ∀ r ∈ opcodeTable, ∀ i bs, Holds r.layout r.bits i bs → encode i = bs := by
  simp only [opcodeTable, List.cons_append, List.nil_append, List.forall_mem_cons, List.not_mem_nil,
    IsEmpty.forall_iff, implies_true, and_true]
  and_intros
  all_goals
    intro i bs h
    cases h
    rfl

/-- Every instruction is held by its encoding, in the format of its row: the constructors stand in the order of the
rows. -/
theorem exists_row_holds (i : Instr) :
    ∃ r, opcodeTable[i.ctorIdx]? = some r ∧ Holds r.layout r.bits i (encode i) := by
  cases i
  all_goals exact ⟨_, rfl, by constructor⟩

/-! ### Operand fields (R132 to R139, R143) -/

/-- A pointer number set in an opcode byte, whose fixed bits leave room for it, is the field found there. -/
theorem ptrNum_field : ∀ (op : Byte) (j : PtrNum), op &&& 0xFC = op →
    (op ||| j.setWidth 8) &&& 0xFC = op ∧ ptrNum (op ||| j.setWidth 8) = j := by
  decide +kernel

theorem ptrNum_rest : ∀ b : Byte, (b &&& 0xFC) ||| (ptrNum b).setWidth 8 = b := by
  decide +kernel

/-- Bit 0 of the opcode byte, which holds d9[8] in the formats of R132 with d9[8] low. -/
theorem bit0_field : ∀ (op : Byte) (h : BitVec 1), op &&& 0xFE = op →
    (op ||| h.setWidth 8) &&& 0xFE = op ∧ (op ||| h.setWidth 8).extractLsb' 0 1 = h := by
  decide +kernel

theorem bit0_rest : ∀ b : Byte, (b &&& 0xFE) ||| (b.extractLsb' 0 1).setWidth 8 = b := by
  decide +kernel

/-- Bit 4 and bits 2:0 of the opcode byte, which hold d9[8] and b3, or a12[11] and a12[10:8]. -/
theorem bit4_field {op : Byte} (hop : op &&& 0xE8 = op) (h : BitVec 1) (b : BitVec 3) :
    (op ||| (h.setWidth 8 <<< 4) ||| b.setWidth 8) &&& 0xE8 = op ∧
      (op ||| (h.setWidth 8 <<< 4) ||| b.setWidth 8).extractLsb' 4 1 = h ∧
      (op ||| (h.setWidth 8 <<< 4) ||| b.setWidth 8).extractLsb' 0 3 = b := by
  have hmask : ∀ (h : BitVec 1) (b : BitVec 3), ((h.setWidth 8 <<< 4) ||| b.setWidth 8 : Byte) &&& 0xE8 = 0#8 ∧
      ((h.setWidth 8 <<< 4) ||| b.setWidth 8 : Byte).extractLsb' 4 1 = h ∧
      ((h.setWidth 8 <<< 4) ||| b.setWidth 8 : Byte).extractLsb' 0 3 = b := by decide
  have hfree : ∀ op : Byte, op &&& 0xE8 = op → op.extractLsb' 4 1 = 0#1 ∧ op.extractLsb' 0 3 = 0#3 := by decide +kernel
  obtain ⟨hm, hh, hb⟩ := hmask h b
  obtain ⟨h4, h0⟩ := hfree op hop
  rw [BitVec.or_assoc]
  generalize (h.setWidth 8 <<< 4) ||| b.setWidth 8 = x at hm hh hb
  refine ⟨?_, ?_, ?_⟩
  · rw [BitVec.and_or_distrib_right, hop, hm, BitVec.or_zero]
  · rw [BitVec.extractLsb'_or, h4, hh, BitVec.zero_or]
  · rw [BitVec.extractLsb'_or, h0, hb, BitVec.zero_or]

theorem bit4_rest : ∀ b : Byte,
    (b &&& (0xE8 : Byte)) ||| ((b.extractLsb' 4 1).setWidth 8 <<< 4) ||| (b.extractLsb' 0 3).setWidth 8 = b := by
  decide +kernel

/-- A word is its upper part over its lower part. -/
theorem extract_append_setWidth {m n : Nat} (x : BitVec (m + n)) : x.extractLsb' n m ++ x.setWidth n = x := by
  apply BitVec.eq_of_getLsbD_eq
  intro i hi
  rw [BitVec.getLsbD_append]
  split
  · next h => simp [h]
  · next h => simp [show i - n < m by omega, show n + (i - n) = i by omega]

theorem dAddr_split (d : DAddr) : d.extractLsb' 8 1 ++ d.setWidth 8 = d := extract_append_setWidth (m := 1) (n := 8) d

theorem dAddr_high (h : BitVec 1) (v : Byte) : (h ++ v : DAddr).extractLsb' 8 1 = h :=
  BitVec.extractLsb'_append_eq_left

theorem dAddr_low (h : BitVec 1) (v : Byte) : (h ++ v : DAddr).setWidth 8 = v := BitVec.setWidth_append_eq_right

theorem addr12_split (a : BitVec 12) : a.extractLsb' 11 1 ++ a.extractLsb' 8 3 ++ a.setWidth 8 = a := by
  rw [BitVec.extractLsb'_append_extractLsb'_eq_extractLsb' (start₁ := 8) (len₁ := 3) rfl]
  exact extract_append_setWidth (m := 4) (n := 8) a

theorem addr12_fields (h : BitVec 1) (m : BitVec 3) (v : Byte) : (h ++ m ++ v : BitVec 12).extractLsb' 11 1 = h ∧
    (h ++ m ++ v : BitVec 12).extractLsb' 8 3 = m ∧ (h ++ m ++ v : BitVec 12).setWidth 8 = v := by
  refine ⟨?_, ?_, BitVec.setWidth_append_eq_right⟩
  · exact (BitVec.extractLsb'_append_eq_of_le (by decide)).trans BitVec.extractLsb'_append_eq_left
  · exact (BitVec.extractLsb'_append_eq_of_le (by decide)).trans BitVec.extractLsb'_append_eq_right

theorem word16_split (a : BitVec 16) : word16 (a.extractLsb' 8 8) (a.setWidth 8) = a :=
  extract_append_setWidth (m := 8) (n := 8) a

theorem word16_high (h l : Byte) : (word16 h l).extractLsb' 8 8 = h := BitVec.extractLsb'_append_eq_left

theorem word16_low (h l : Byte) : (word16 h l).setWidth 8 = l := BitVec.setWidth_append_eq_right

/-- d9 in the formats of R132 with d9[8] in bit 0. -/
theorem d9Low_field {op : Byte} (hop : op &&& 0xFE = op) (d9 : DAddr) :
    encD9Low op d9 &&& 0xFE = op ∧ d9Low (encD9Low op d9) (d9.setWidth 8) = d9 := by
  obtain ⟨hmask, hbit⟩ := bit0_field op (d9.extractLsb' 8 1) hop
  refine ⟨hmask, ?_⟩
  rw [d9Low, encD9Low, hbit, dAddr_split]

theorem d9Low_rest (b0 b1 : Byte) :
    encD9Low (b0 &&& 0xFE) (d9Low b0 b1) = b0 ∧ (d9Low b0 b1).setWidth 8 = b1 := by
  refine ⟨?_, dAddr_low _ _⟩
  rw [encD9Low, d9Low, dAddr_high, bit0_rest]

/-- d9 and b3 in the formats of R132 with d9[8] in bit 4. -/
theorem d9High_field {op : Byte} (hop : op &&& 0xE8 = op) (d9 : DAddr) (b3 : BitNum) :
    encD9Bit op d9 b3 &&& 0xE8 = op ∧ d9High (encD9Bit op d9 b3) (d9.setWidth 8) = d9 ∧
      bitNum (encD9Bit op d9 b3) = b3 := by
  obtain ⟨hmask, hbit, hnum⟩ := bit4_field hop (d9.extractLsb' 8 1) b3
  refine ⟨hmask, ?_, hnum⟩
  rw [d9High, encD9Bit, hbit, dAddr_split]

theorem d9High_rest (b0 b1 : Byte) :
    encD9Bit (b0 &&& 0xE8) (d9High b0 b1) (bitNum b0) = b0 ∧ (d9High b0 b1).setWidth 8 = b1 := by
  refine ⟨?_, dAddr_low _ _⟩
  rw [encD9Bit, d9High, dAddr_high, bitNum, bit4_rest]

/-- a12, whose upper four bits stand in the opcode byte (R137). -/
theorem addr12_field {op : Byte} (hop : op &&& 0xE8 = op) (a12 : BitVec 12) :
    (op ||| ((a12.extractLsb' 11 1).setWidth 8 <<< 4) ||| (a12.extractLsb' 8 3).setWidth 8) &&& 0xE8 = op ∧
      addr12 (op ||| ((a12.extractLsb' 11 1).setWidth 8 <<< 4) ||| (a12.extractLsb' 8 3).setWidth 8)
        (a12.setWidth 8) = a12 := by
  obtain ⟨hmask, hbit, hnum⟩ := bit4_field hop (a12.extractLsb' 11 1) (a12.extractLsb' 8 3)
  refine ⟨hmask, ?_⟩
  rw [addr12, hbit, hnum, addr12_split]

theorem addr12_rest (b0 b1 : Byte) : encF2A12 (b0 &&& 0xE8) (addr12 b0 b1) = [b0, b1] := by
  obtain ⟨hbit, hnum, hlow⟩ := addr12_fields (b0.extractLsb' 4 1) (b0.extractLsb' 0 3) b1
  rw [encF2A12, addr12, hbit, hnum, hlow, bit4_rest]

/-! ### Decoding what was encoded -/

/-- What a decode answers when the bytes of an instruction stand at the head of the list. -/
theorem decode_take {b0 : Byte} {r : Row} (hrow : rowOf b0 = some r) (b1 b2 : Byte) (rest : List Byte) :
    decode ([b0, b1, b2].take (layoutLength r.layout) ++ rest) = .ok (layoutBuild r.layout b0 b1 b2, rest) := by
  cases hl : r.layout
  all_goals simp [decode, hrow, hl, layoutLength, layoutBuild]

/-- The bytes that hold an instruction: their opcode byte has the fixed bits, and the format finds every operand in its
field again. -/
theorem layoutBuild_of_holds {l : Layout} {op : Byte} {i : Instr} {bs : List Byte} (h : Holds l op i bs)
    (hop : op &&& layoutMask l = op) : ∃ b0 b1 b2, b0 &&& layoutMask l = op ∧
      bs = [b0, b1, b2].take (layoutLength l) ∧ layoutBuild l b0 b1 b2 = i := by
  cases h with
  | f1 => exact ⟨op, 0, 0, hop, rfl, rfl⟩
  | f1r j =>
    obtain ⟨hmask, hj⟩ := ptrNum_field op j hop
    exact ⟨_, 0, 0, hmask, rfl, by rw [layoutBuild, hj]⟩
  | f2i i8 => exact ⟨op, i8, 0, hop, rfl, rfl⟩
  | f2d d9 =>
    obtain ⟨hmask, hd⟩ := d9Low_field hop d9
    exact ⟨_, _, 0, hmask, rfl, by rw [layoutBuild, hd]⟩
  | f2ri i8 j =>
    obtain ⟨hmask, hj⟩ := ptrNum_field op j hop
    exact ⟨_, i8, 0, hmask, rfl, by rw [layoutBuild, hj]⟩
  | f2r8 r8 => exact ⟨op, r8, 0, hop, rfl, rfl⟩
  | f2rr j r8 =>
    obtain ⟨hmask, hj⟩ := ptrNum_field op j hop
    exact ⟨_, r8, 0, hmask, rfl, by rw [layoutBuild, hj]⟩
  | f2a12 a12 =>
    obtain ⟨hmask, ha⟩ := addr12_field hop a12
    exact ⟨_, _, 0, hmask, rfl, by rw [layoutBuild, ha]⟩
  | f2bit d9 b3 =>
    obtain ⟨hmask, hd, hb⟩ := d9High_field hop d9 b3
    exact ⟨_, _, 0, hmask, rfl, by rw [layoutBuild, hd, hb]⟩
  | f3di i8 d9 =>
    obtain ⟨hmask, hd⟩ := d9Low_field hop d9
    exact ⟨_, _, i8, hmask, rfl, by rw [layoutBuild, hd]⟩
  | f3ir i8 r8 => exact ⟨op, i8, r8, hop, rfl, rfl⟩
  | f3dr d9 r8 =>
    obtain ⟨hmask, hd⟩ := d9Low_field hop d9
    exact ⟨_, _, r8, hmask, rfl, by rw [layoutBuild, hd]⟩
  | f3rir j i8 r8 =>
    obtain ⟨hmask, hj⟩ := ptrNum_field op j hop
    exact ⟨_, i8, r8, hmask, rfl, by rw [layoutBuild, hj]⟩
  | f3br d9 b3 r8 =>
    obtain ⟨hmask, hd, hb⟩ := d9High_field hop d9 b3
    exact ⟨_, _, r8, hmask, rfl, by rw [layoutBuild, hd, hb]⟩
  | f3a16 a16 => exact ⟨op, _, _, hop, rfl, by rw [layoutBuild, addr16, word16_split]⟩
  | f3r16 r16 => exact ⟨op, _, _, hop, rfl, by rw [layoutBuild, rel16Field, word16_split]⟩

/-- Every instruction is built by the row of its opcode byte, and the constructors stand in the order of the rows. -/
theorem encode_eq_take (i : Instr) : ∃ r b0 b1 b2, opcodeTable[i.ctorIdx]? = some r ∧ rowOf b0 = some r ∧
    encode i = [b0, b1, b2].take (layoutLength r.layout) ∧ layoutBuild r.layout b0 b1 b2 = i := by
  obtain ⟨r, hget, hi⟩ := exists_row_holds i
  have hr := List.mem_of_getElem? hget
  obtain ⟨hmask, hbits⟩ := row_mask r hr
  rw [hmask] at hbits
  obtain ⟨b0, b1, b2, hop, henc, hbuild⟩ := layoutBuild_of_holds hi hbits
  rw [← hmask] at hop
  exact ⟨r, b0, b1, b2, hget, rowOf_eq_some hr hop, henc, hbuild⟩

/-- Settles O1: the opcode byte of the encoding selects the instruction's row, and the row builds the instruction. -/
theorem decodeOfEncodeIsTheInstruction : Obligations.DecodeOfEncodeIsTheInstruction := by
  intro i rest
  obtain ⟨r, b0, b1, b2, -, hrow, henc, hbuild⟩ := encode_eq_take i
  rw [henc, decode_take hrow, hbuild]

/-! ### Encoding what was decoded -/

theorem Holds.of_eq {l : Layout} {op : Byte} {i : Instr} {bs bs' : List Byte} (h : Holds l op i bs) (e : bs = bs') :
    Holds l op i bs' := e ▸ h

/-- The bytes a row matches hold the instruction its format builds from them. -/
theorem holds_layoutBuild {l : Layout} {op b0 : Byte} (h : b0 &&& layoutMask l = op) (b1 b2 : Byte) :
    Holds l op (layoutBuild l b0 b1 b2) ([b0, b1, b2].take (layoutLength l)) := by
  subst h
  have hall : b0 &&& 0xFF = b0 := BitVec.and_allOnes
  have hj : (b0 &&& 0xFC) ||| (ptrNum b0).setWidth 8 = b0 := ptrNum_rest b0
  obtain ⟨hd, hv⟩ := d9Low_rest b0 b1
  obtain ⟨hd', hv'⟩ := d9High_rest b0 b1
  have ha := addr12_rest b0 b1
  cases l with
  | f1 => exact (Holds.f1).of_eq (by rw [layoutMask, encF1, hall]; rfl)
  | f1r => exact (Holds.f1r _).of_eq (by rw [layoutMask, encF1R, hj]; rfl)
  | f2i => exact (Holds.f2i _).of_eq (by rw [layoutMask, encF2I, hall]; rfl)
  | f2d => exact (Holds.f2d _).of_eq (by rw [layoutMask, encF2D, hd, hv]; rfl)
  | f2ri => exact (Holds.f2ri _ _).of_eq (by rw [layoutMask, encF2RI, hj]; rfl)
  | f2r8 => exact (Holds.f2r8 _).of_eq (by rw [layoutMask, encF2R8, hall]; rfl)
  | f2rr => exact (Holds.f2rr _ _).of_eq (by rw [layoutMask, encF2RR, hj]; rfl)
  | f2a12 => exact (Holds.f2a12 _).of_eq (by rw [layoutMask, ha]; rfl)
  | f2bit => exact (Holds.f2bit _ _).of_eq (by rw [layoutMask, encF2BIT, hd', hv']; rfl)
  | f3di => exact (Holds.f3di _ _).of_eq (by rw [layoutMask, encF3DI, hd, hv]; rfl)
  | f3ir => exact (Holds.f3ir _ _).of_eq (by rw [layoutMask, encF3IR, hall]; rfl)
  | f3dr => exact (Holds.f3dr _ _).of_eq (by rw [layoutMask, encF3DR, hd, hv]; rfl)
  | f3rir => exact (Holds.f3rir _ _ _).of_eq (by rw [layoutMask, encF3RIR, hj]; rfl)
  | f3br => exact (Holds.f3br _ _ _).of_eq (by rw [layoutMask, encF3BR, hd', hv']; rfl)
  | f3a16 => exact (Holds.f3a16 _).of_eq (by rw [layoutMask, encF3A16, hall, addr16, word16_high, word16_low]; rfl)
  | f3r16 => exact (Holds.f3r16 _).of_eq (by rw [layoutMask, encF3R16, hall, rel16Field, word16_high, word16_low]; rfl)

/-- A format takes one, two or three bytes. -/
theorem layoutLength_cases (l : Layout) : layoutLength l = 1 ∨ layoutLength l = 2 ∨ layoutLength l = 3 := by
  cases l <;> simp [layoutLength]

/-- What a successful decode says: the opcode byte has a row, and its format builds the instruction from as many bytes
as it is long. -/
theorem decode_ok {bytes : List Byte} {i : Instr} {rest : List Byte} (h : decode bytes = .ok (i, rest)) :
    ∃ r b0 b1 b2, rowOf b0 = some r ∧ i = layoutBuild r.layout b0 b1 b2 ∧
      bytes = [b0, b1, b2].take (layoutLength r.layout) ++ rest := by
  cases bytes with
  | nil => simp [decode] at h
  | cons b0 tail =>
    obtain ⟨r, hr⟩ := exists_rowOf b0
    rcases layoutLength_cases r.layout with hlen | hlen | hlen
    · rw [show b0 :: tail = [b0, 0, 0].take (layoutLength r.layout) ++ tail by rw [hlen]; rfl, decode_take hr] at h
      obtain ⟨rfl, rfl⟩ := Prod.mk.inj (Except.ok.inj h)
      exact ⟨r, b0, 0, 0, hr, rfl, by rw [hlen]; rfl⟩
    · rcases tail with _ | ⟨b1, tail⟩
      · simp [decode, hr, hlen] at h
      · rw [show b0 :: b1 :: tail = [b0, b1, 0].take (layoutLength r.layout) ++ tail by rw [hlen]; rfl,
          decode_take hr] at h
        obtain ⟨rfl, rfl⟩ := Prod.mk.inj (Except.ok.inj h)
        exact ⟨r, b0, b1, 0, hr, rfl, by rw [hlen]; rfl⟩
    · rcases tail with _ | ⟨b1, _ | ⟨b2, tail⟩⟩
      · simp [decode, hr, hlen] at h
      · simp [decode, hr, hlen] at h
      · rw [show b0 :: b1 :: b2 :: tail = [b0, b1, b2].take (layoutLength r.layout) ++ tail by rw [hlen]; rfl,
          decode_take hr] at h
        obtain ⟨rfl, rfl⟩ := Prod.mk.inj (Except.ok.inj h)
        exact ⟨r, b0, b1, b2, hr, rfl, by rw [hlen]; rfl⟩

/-- Settles O4: twenty closed decodes, each by computation. -/
theorem writtenOutWordsDecode : Obligations.WrittenOutWordsDecode :=
  ⟨rfl, rfl, rfl, rfl, rfl, rfl, rfl, rfl, rfl, rfl, rfl, rfl, rfl, rfl, rfl, rfl, rfl, rfl, rfl, rfl⟩

/-- Settles O2: what was decoded was built by the row of its opcode byte, and the row holds it as those bytes. -/
theorem encodeOfDecodeIsTheBytes : Obligations.EncodeOfDecodeIsTheBytes := by
  intro bytes i rest h
  obtain ⟨r, b0, b1, b2, hrow, rfl, rfl⟩ := decode_ok h
  obtain ⟨hr, hop⟩ := mem_of_rowOf hrow
  rw [(row_mask r hr).1] at hop
  rw [encode_of_holds r hr _ _ (holds_layoutBuild hop b1 b2)]

/-! ### The patterns of the opcode map (R142) -/

theorem setPtr_append : ∀ (op : BitVec 6) (j : PtrNum), (op ++ 0#2) ||| j.setWidth 8 = op ++ j := by
  decide +kernel

theorem setBit0_append : ∀ (op : BitVec 7) (h : BitVec 1), (op ++ 0#1) ||| h.setWidth 8 = op ++ h := by
  decide +kernel

theorem setBit4_append : ∀ (op : BitVec 3) (h : BitVec 1) (m : BitVec 3),
    (op ++ 0#1 ++ 1#1 ++ 0#3) ||| (h.setWidth 8 <<< 4) ||| m.setWidth 8 = op ++ h ++ 1#1 ++ m := by
  decide +kernel

section
variable {op : Byte}

theorem encF1R_append {p : BitVec 6} (j : PtrNum) (hop : op = p ++ 0#2) : encF1R op j = [p ++ j] := by
  rw [encF1R, hop, setPtr_append]

theorem encF2RI_append {p : BitVec 6} (i8 : Byte) (j : PtrNum) (hop : op = p ++ 0#2) :
    encF2RI op i8 j = [p ++ j, i8] := by
  rw [encF2RI, hop, setPtr_append]

theorem encF2RR_append {p : BitVec 6} (j : PtrNum) (r8 : Byte) (hop : op = p ++ 0#2) :
    encF2RR op j r8 = [p ++ j, r8] := by
  rw [encF2RR, hop, setPtr_append]

theorem encF3RIR_append {p : BitVec 6} (j : PtrNum) (i8 r8 : Byte) (hop : op = p ++ 0#2) :
    encF3RIR op j i8 r8 = [p ++ j, i8, r8] := by
  rw [encF3RIR, hop, setPtr_append]

theorem encD9Low_append {p : BitVec 7} (h : BitVec 1) (v : Byte) (hop : op = p ++ 0#1) :
    encD9Low op (h ++ v) = p ++ h := by
  rw [encD9Low, dAddr_high, hop, setBit0_append]

theorem encF2D_append {p : BitVec 7} (h : BitVec 1) (v : Byte) (hop : op = p ++ 0#1) :
    encF2D op (h ++ v) = [p ++ h, v] := by
  rw [encF2D, encD9Low_append h v hop, dAddr_low]

theorem encF3DI_append {p : BitVec 7} (h : BitVec 1) (v i8 : Byte) (hop : op = p ++ 0#1) :
    encF3DI op i8 (h ++ v) = [p ++ h, v, i8] := by
  rw [encF3DI, encD9Low_append h v hop, dAddr_low]

theorem encF3DR_append {p : BitVec 7} (h : BitVec 1) (v r8 : Byte) (hop : op = p ++ 0#1) :
    encF3DR op (h ++ v) r8 = [p ++ h, v, r8] := by
  rw [encF3DR, encD9Low_append h v hop, dAddr_low]

theorem encF2A12_append {p : BitVec 3} (h : BitVec 1) (m : BitVec 3) (v : Byte)
    (hop : op = p ++ 0#1 ++ 1#1 ++ 0#3) : encF2A12 op (h ++ m ++ v) = [p ++ h ++ 1#1 ++ m, v] := by
  obtain ⟨hbit, hnum, hlow⟩ := addr12_fields h m v
  rw [encF2A12, hbit, hnum, hlow, hop, setBit4_append]

theorem encF2BIT_append {p : BitVec 3} (h : BitVec 1) (v : Byte) (b : BitNum)
    (hop : op = p ++ 0#1 ++ 1#1 ++ 0#3) : encF2BIT op (h ++ v) b = [p ++ h ++ 1#1 ++ b, v] := by
  rw [encF2BIT, encD9Bit, dAddr_high, dAddr_low, hop, setBit4_append]

theorem encF3BR_append {p : BitVec 3} (h : BitVec 1) (v : Byte) (b : BitNum) (r8 : Byte)
    (hop : op = p ++ 0#1 ++ 1#1 ++ 0#3) : encF3BR op (h ++ v) b r8 = [p ++ h ++ 1#1 ++ b, v, r8] := by
  rw [encF3BR, encD9Bit, dAddr_high, dAddr_low, hop, setBit4_append]

theorem encF3A16_append (h l : Byte) : encF3A16 op (h ++ l) = [op, h, l] := by
  rw [encF3A16, show (h ++ l : PAddr).extractLsb' 8 8 = h from word16_high h l,
    show (h ++ l : PAddr).setWidth 8 = l from word16_low h l]

theorem encF3R16_append (h l : Byte) : encF3R16 op (h ++ l) = [op, l, h] := by
  rw [encF3R16, show (h ++ l : BitVec 16).extractLsb' 8 8 = h from word16_high h l,
    show (h ++ l : BitVec 16).setWidth 8 = l from word16_low h l]

end

/-- Settles O5: each row's pattern is its format's, with the fixed bits of the row; the cost is looked up for every value
of the operand bits in the opcode byte. -/
theorem shortEncodingsAreTheMapPatterns : Obligations.ShortEncodingsAreTheMapPatterns := by
  refine ⟨?plain, ?pointer, ?operand, ?direct, ?movInd, ?dbnzInd, ?absolute, ?bit⟩
  case plain => decide +kernel
  case pointer =>
    simp only [List.forall_mem_cons, List.not_mem_nil, IsEmpty.forall_iff, implies_true, and_true]
    and_intros
    all_goals exact fun j => ⟨encF1R_append j (by decide), by revert j; decide⟩
  case operand =>
    simp only [List.forall_mem_cons, List.not_mem_nil, IsEmpty.forall_iff, implies_true, and_true]
    and_intros
    all_goals exact fun v => ⟨rfl, rfl⟩
  case direct =>
    simp only [List.forall_mem_cons, List.not_mem_nil, IsEmpty.forall_iff, implies_true, and_true]
    and_intros
    all_goals exact fun h v => ⟨encF2D_append h v (by decide), by revert h; decide⟩
  case movInd => exact fun v j => ⟨encF2RI_append v j (by decide), by revert j; decide⟩
  case dbnzInd => exact fun j v => ⟨encF2RR_append j v (by decide), by revert j; decide⟩
  case absolute =>
    simp only [List.forall_mem_cons, List.not_mem_nil, IsEmpty.forall_iff, implies_true, and_true]
    and_intros
    all_goals exact fun h m v => ⟨encF2A12_append h m v (by decide), by revert h m; decide⟩
  case bit =>
    simp only [List.forall_mem_cons, List.not_mem_nil, IsEmpty.forall_iff, implies_true, and_true]
    and_intros
    all_goals exact fun h v b => ⟨encF2BIT_append h v b (by decide), by revert h b; decide⟩

/-- The row of an instruction's opcode byte is the row of its constructor. -/
theorem rowOf_encode (i : Instr) : (encode i).head?.bind rowOf = opcodeTable[i.ctorIdx]? := by
  obtain ⟨r, b0, b1, b2, hget, hrow, henc, -⟩ := encode_eq_take i
  have hhead : (encode i).head? = some b0 := by
    rw [henc]
    rcases layoutLength_cases r.layout with hlen | hlen | hlen <;> rw [hlen] <;> rfl
  rw [hhead, hget]
  exact hrow

/-- Settles O6: as the patterns of one and two bytes; the cost is the one of the constructor's row. -/
theorem longEncodingsAreTheMapPatterns : Obligations.LongEncodingsAreTheMapPatterns := by
  refine ⟨?far, ?compare, ?movDir, ?direct, ?pointer, ?bit, ?cycles⟩
  case far =>
    exact fun h l => ⟨encF3A16_append h l, encF3A16_append h l, encF3R16_append h l,
      encF3R16_append h l⟩
  case compare => exact fun i8 r8 => ⟨rfl, rfl⟩
  case movDir => exact fun h v i8 => encF3DI_append h v i8 (by decide)
  case direct =>
    simp only [List.forall_mem_cons, List.not_mem_nil, IsEmpty.forall_iff, implies_true, and_true]
    and_intros
    all_goals exact fun h v r8 => encF3DR_append h v r8 (by decide)
  case pointer => exact fun j i8 r8 => ⟨encF3RIR_append j i8 r8 (by decide), encF3RIR_append j i8 r8 (by decide)⟩
  case bit =>
    simp only [List.forall_mem_cons, List.not_mem_nil, IsEmpty.forall_iff, implies_true, and_true]
    and_intros
    all_goals exact fun h v r8 b => encF3BR_append h v b r8 (by decide)
  case cycles =>
    intro i
    rw [rowOf_encode]
    cases i
    case callr | brf | callf | jmpf | movDir | beImm | beDir | beInd | bneImm | bneDir | bneInd | bpc | dbnzDir | bp | bn =>
      exact fun _ => rfl
    all_goals exact nofun

end Sys2Proof.Proofs
end

section
/-! What an instruction can do: a run of data accesses, stack operations and jumps, or one of the two instructions that
reach further, STF and RETI. Every statement about what all instructions leave alone follows from it. -/

namespace Sys2Proof.Proofs

open Sys2Proof.Machine Sys2Proof.Safety

/-! ### Moves -/

/-- The operations that the instructions but STF and RETI are made of. -/
inductive Move : State → State → Prop where
  | read (s : State) (a : DAddr) : Move s (s.dread a).2
  | latch (s : State) (a : DAddr) : Move s (s.dreadLatch a).2
  | write (s : State) (a : DAddr) (v : Byte) : Move s (s.dwrite a v)
  | push (s : State) (v : Byte) : Move s (s.push v)
  | pop (s : State) : Move s s.pop.2
  | jump (s : State) (t : PAddr) : Move s (s.jump t)

/-- A run of moves. -/
abbrev Moves : State → State → Prop := Relation.ReflTransGen Move

section
variable {s u : State}

theorem Moves.read (h : Moves s u) (a : DAddr) : Moves s (u.dread a).2 := h.tail (.read u a)
theorem Moves.latch (h : Moves s u) (a : DAddr) : Moves s (u.dreadLatch a).2 := h.tail (.latch u a)
theorem Moves.write (h : Moves s u) (a : DAddr) (v : Byte) : Moves s (u.dwrite a v) := h.tail (.write u a v)
theorem Moves.push (h : Moves s u) (v : Byte) : Moves s (u.push v) := h.tail (.push u v)
theorem Moves.pop (h : Moves s u) : Moves s u.pop.2 := h.tail (.pop u)
theorem Moves.jump (h : Moves s u) (t : PAddr) : Moves s (u.jump t) := h.tail (.jump u t)

theorem Moves.jumpIf (h : Moves s u) (c : Bool) (t : PAddr) : Moves s (u.jumpIf c t) := by
  cases c
  · exact h
  · exact h.jump t

theorem Moves.modify (h : Moves s u) (a : DAddr) (f : Byte → Byte) : Moves s (u.modify a f) := (h.latch a).write a _

theorem Moves.putAlu (h : Moves s u) (r : AluResult) : Moves s (u.putAlu r) := (h.write _ _).write _ _

theorem Moves.compareAndBranch (h : Moves s u) (lhs rhs : Byte) (want : Bool) (r8 : Byte) :
    Moves s (u.compareAndBranch lhs rhs want r8) := (h.write _ _).jumpIf _ _

theorem Moves.decrementAndBranch (h : Moves s u) (a : DAddr) (r8 : Byte) : Moves s (u.decrementAndBranch a r8) :=
  ((h.latch a).write a _).jumpIf _ _

theorem Moves.exchange (h : Moves s u) (a : DAddr) : Moves s (u.exchange a) := ((h.read a).write a _).write _ _

theorem Moves.pushPC (h : Moves s u) (t : PAddr) : Moves s (u.pushPC t) := (h.push _).push _

theorem Moves.popPC (h : Moves s u) : Moves s u.popPC.2 := h.pop.pop

end

/-- `LDC` always finds its byte inside program space (log entry 11). -/
theorem exec_ldc (s : State) : exec .ldc s = .next (s.writeReg .acc (s.programByte s.tableAddr)) :=
  if_pos (inProgram_true s _)

/-- `BPC` in its two cases (R297). -/
theorem exec_bpc (a : DAddr) (b : BitNum) (r8 : Byte) (s : State) :
    exec (.bpc a b r8) s = .next (if (s.dreadLatch a).1.getLsbD b.toNat then
      ((s.dreadLatch a).2.dwrite a ((s.dreadLatch a).1 &&& ~~~bitAt b.toNat true)).jump (rel8 s.pc r8)
      else (s.dreadLatch a).2) :=
  (apply_ite Host.Outcome.next _ _ _).symm

/-- What an instruction does: it always answers a next state. -/
theorem exec_cases (i : Instr) (s : State) : ∃ t, exec i s = .next t ∧
    (Moves s t ∨ (i = .stf ∧ t = s.flashStep s.acc) ∨ (i = .reti ∧ t = s.returnFromInterrupt)) := by
  have h : Moves s s := .refl
  cases i
  case stf => exact ⟨_, rfl, .inr (.inl ⟨rfl, rfl⟩)⟩
  case reti => exact ⟨_, rfl, .inr (.inr ⟨rfl, rfl⟩)⟩
  case ldc => exact ⟨_, exec_ldc s, .inl (h.write _ _)⟩
  case bpc a b r8 =>
    refine ⟨_, exec_bpc a b r8 s, .inl ?_⟩
    split
    · exact ((h.latch a).write a _).jump _
    · exact h.latch a
  case nop => exact ⟨_, rfl, .inl h⟩
  case br | brf | jmp | jmpf => exact ⟨_, rfl, .inl (h.jump _)⟩
  case bz | bnz => exact ⟨_, rfl, .inl (h.jumpIf _ _)⟩
  case bp | bn => exact ⟨_, rfl, .inl ((h.read _).jumpIf _ _)⟩
  case dbnzDir | dbnzInd => exact ⟨_, rfl, .inl (h.decrementAndBranch _ _)⟩
  case beImm | bneImm => exact ⟨_, rfl, .inl (h.compareAndBranch _ _ _ _)⟩
  case beDir | beInd | bneDir | bneInd => exact ⟨_, rfl, .inl ((h.read _).compareAndBranch _ _ _ _)⟩
  case call | callf | callr => exact ⟨_, rfl, .inl ((h.pushPC _).jump _)⟩
  case ret => exact ⟨_, rfl, .inl (h.popPC.jump _)⟩
  case push => exact ⟨_, rfl, .inl ((h.read _).push _)⟩
  case pop => exact ⟨_, rfl, .inl (h.pop.write _ _)⟩
  case xchDir | xchInd => exact ⟨_, rfl, .inl (h.exchange _)⟩
  case stDir | stInd | movDir | movInd | ldf | rol | ror | andImm | orImm | xorImm => exact ⟨_, rfl, .inl (h.write _ _)⟩
  case rolc | rorc => exact ⟨_, rfl, .inl ((h.write _ _).write _ _)⟩
  case ldDir | ldInd | andDir | andInd | orDir | orInd | xorDir | xorInd =>
    exact ⟨_, rfl, .inl ((h.read _).write _ _)⟩
  case addImm | addcImm | subImm | subcImm => exact ⟨_, rfl, .inl (h.putAlu _)⟩
  case addDir | addInd | addcDir | addcInd | subDir | subInd | subcDir | subcInd =>
    exact ⟨_, rfl, .inl ((h.read _).putAlu _)⟩
  case incDir | incInd | decDir | decInd | set1 | clr1 | not1 => exact ⟨_, rfl, .inl (h.modify _ _)⟩
  case mul | div => exact ⟨_, rfl, .inl ((((h.write _ _).write _ _).write _ _).write _ _)⟩

/-! ### What every instruction leaves alone -/

/-- What no move touches: the interrupt controller, the bookkeeping of the step, the program memories. -/
structure KeepsHidden (s t : State) : Prop where
  pic : KeepsPic s t
  misc : KeepsMisc s t
  rom : t.rom = s.rom
  flash : t.flash = s.flash

theorem KeepsPic.trans {s t u : State} (h : KeepsPic s t) (g : KeepsPic t u) : KeepsPic s u :=
  ⟨g.pending.trans h.pending, g.slot.trans h.slot, g.prevLevel.trans h.prevLevel, g.suppress.trans h.suppress,
    g.rrLast.trans h.rrLast⟩

theorem KeepsMisc.trans {s t u : State} (h : KeepsMisc s t) (g : KeepsMisc t u) : KeepsMisc s u :=
  ⟨g.fstate.trans h.fstate, g.fcount.trans h.fcount, g.lastCycles.trans h.lastCycles, g.ipc.trans h.ipc,
    g.arrivals.trans h.arrivals⟩

theorem KeepsHidden.trans {s t u : State} (h : KeepsHidden s t) (g : KeepsHidden t u) : KeepsHidden s u :=
  ⟨KeepsPic.trans h.pic g.pic, KeepsMisc.trans h.misc g.misc, g.rom.trans h.rom, g.flash.trans h.flash⟩

theorem Move.keepsHidden {s t : State} (h : Move s t) : KeepsHidden s t := by
  cases h
  all_goals exact ⟨⟨by simp, by simp, by simp, by simp, by simp⟩, ⟨by simp, by simp, by simp, by simp, by simp⟩, by simp, by simp⟩

theorem Moves.keepsHidden {s t : State} (h : Moves s t) : KeepsHidden s t := by
  induction h with
  | refl => exact ⟨keepsPic_refl s, keepsMisc_refl s, rfl, rfl⟩
  | tail _ hm ih => exact ih.trans hm.keepsHidden

/-! ### STF and RETI (46_system.md R345, 60_exceptions.md R434) -/

/-- What an STF can change: a rejected or a handshake step writes no flash byte, and a step that writes one is a step of
programming. -/
theorem flashStep_cases (s : State) (v : Byte) :
    (∃ fs n log, s.flashStep v = { s with fstate := fs, fcount := n, errorLog := s.errorLog ++ log } ∧
      (n = 0 ∨ s.fstate ≠ .prog ∧ n = s.fcount)) ∨
    (s.fstate = .prog ∧ ∃ fs n,
      s.flashStep v = { s with flash := s.flash.write s.flashAddr.toNat v, fstate := fs, fcount := n } ∧
      (n = 0 ∨ fs = .prog ∧ n = s.fcount + 1 ∧ n ≠ 128)) := by
  unfold State.flashStep State.flashProgram State.flashHandshake
  split
  · next hp =>
    split
    · exact .inl ⟨_, _, _, rfl, .inl rfl⟩
    · refine .inr ⟨hp, ?_⟩
      split
      · exact ⟨_, _, rfl, .inl rfl⟩
      · next hn => exact ⟨_, _, rfl, .inr ⟨hp, rfl, hn⟩⟩
  · next hp =>
    left
    split
    · split
      · exact ⟨_, 0, [], by rw [List.append_nil], .inl rfl⟩
      · exact ⟨_, _, _, rfl, .inr ⟨hp, rfl⟩⟩
    · exact ⟨_, _, _, rfl, .inl rfl⟩

/-- RETI with no slot occupied is a RET (decision D9). -/
theorem returnFromInterrupt_none {s : State} (h : s.slot.top = none) :
    s.returnFromInterrupt = { s.popPC.2 with pc := s.popPC.1 } := by
  unfold State.returnFromInterrupt
  simp only [State.popPC_slot, h]

/-- RETI vacates the highest occupied slot. -/
theorem returnFromInterrupt_some {s : State} {l : Level} (h : s.slot.top = some l) :
    s.returnFromInterrupt =
      { s.popPC.2 with pc := s.popPC.1, slot := s.slot.set l none, prevLevel := l } := by
  unfold State.returnFromInterrupt
  simp only [State.popPC_slot, h]

/-- Settles O53: no move touches the hidden state, STF writes only the flash-programming part of it, and RETI only a
slot and `prevLevel`. -/
theorem hiddenStateChangesOnlyByItsInstruction : Obligations.HiddenStateChangesOnlyByItsInstruction := by
  intro i s t h
  obtain ⟨t', ht, hcases⟩ := exec_cases i s
  obtain rfl : t' = t := Host.Outcome.next.inj (ht.symm.trans h)
  rcases hcases with hm | ⟨rfl, rfl⟩ | ⟨rfl, rfl⟩
  · obtain ⟨hpic, hmisc, -, -⟩ := hm.keepsHidden
    exact ⟨fun _ => hpic, ⟨hpic.pending, hpic.suppress, hpic.rrLast⟩, fun _ => ⟨hmisc.fstate, hmisc.fcount⟩,
      hmisc.lastCycles, hmisc.ipc, hmisc.arrivals⟩
  · rcases flashStep_cases s s.acc with ⟨fs, n, log, he, -⟩ | ⟨-, fs, n, he, -⟩
    all_goals
      rw [he]
      exact ⟨fun _ => ⟨rfl, rfl, rfl, rfl, rfl⟩, ⟨rfl, rfl, rfl⟩, fun hne => absurd rfl hne, rfl, rfl, rfl⟩
  · exact ⟨fun hne => absurd rfl hne, by simp, fun _ => by simp, by simp⟩

/-- An instruction that changes flash is an STF while programming; none changes ROM. -/
theorem exec_programMemories {i : Instr} {s t : State} (h : exec i s = .next t) :
    t.rom = s.rom ∧ (t.flash = s.flash ∨ i = .stf ∧ s.fstate = .prog) := by
  obtain ⟨t', ht, hcases⟩ := exec_cases i s
  obtain rfl : t' = t := Host.Outcome.next.inj (ht.symm.trans h)
  rcases hcases with hm | ⟨rfl, rfl⟩ | ⟨rfl, rfl⟩
  · exact ⟨hm.keepsHidden.rom, .inl hm.keepsHidden.flash⟩
  · rcases flashStep_cases s s.acc with ⟨fs, n, log, he, -⟩ | ⟨hp, fs, n, he, -⟩
    · rw [he]
      exact ⟨rfl, .inl rfl⟩
    · rw [he]
      exact ⟨rfl, .inr ⟨rfl, hp⟩⟩
  · exact ⟨by simp, .inl (by simp)⟩

/-! ### The error log (R47) -/

theorem Move.errorLog {s t : State} (h : Move s t) : s.errorLog <+: t.errorLog := by
  cases h with
  | read a => rw [(dread_outcome s a).effect.errors.errorLog]
  | latch a => rw [(dreadLatch_outcome s a).effect.errors.errorLog]
  | write a v => exact ⟨_, (dwrite_outcome s a v).errorLog.symm⟩
  | push v => exact ⟨_, (push_outcome s v).errorLog.symm⟩
  | pop => exact ⟨_, (pop_outcome s).errorLog.symm⟩
  | jump t => exact List.prefix_rfl

theorem Moves.errorLog {s t : State} (h : Moves s t) : s.errorLog <+: t.errorLog := by
  induction h with
  | refl => exact List.prefix_rfl
  | tail _ hm ih => exact ih.trans hm.errorLog

theorem returnFromInterrupt_errorLog (s : State) : s.returnFromInterrupt.errorLog = s.popPC.2.errorLog := by
  cases h : s.slot.top with
  | none => rw [returnFromInterrupt_none h]
  | some l => rw [returnFromInterrupt_some h]

theorem exec_errorLog {i : Instr} {s t : State} (h : exec i s = .next t) : s.errorLog <+: t.errorLog := by
  obtain ⟨t', ht, hcases⟩ := exec_cases i s
  obtain rfl : t' = t := Host.Outcome.next.inj (ht.symm.trans h)
  rcases hcases with hm | ⟨rfl, rfl⟩ | ⟨rfl, rfl⟩
  · exact hm.errorLog
  · rcases flashStep_cases s s.acc with ⟨fs, n, log, he, -⟩ | ⟨hp, fs, n, he, -⟩
    · rw [he]
      exact List.prefix_append _ _
    · rw [he]
  · rw [returnFromInterrupt_errorLog]
    exact (Moves.popPC .refl).errorLog

end Sys2Proof.Proofs
end

section
/-! One step of the block (spec/30_encoding.md R140, spec/60_exceptions.md R441): the fetch, and the end of a step. -/

namespace Sys2Proof.Proofs

open Sys2Proof.Machine Sys2Proof.Safety

/-! ### Fetch (R140) -/

/-- The three bytes from pc on, of which the instruction takes as many as its format is long. -/
def bytesAtPc (s : State) : List Byte := [codeByte s s.pc, codeByte s (s.pc + 1), codeByte s (s.pc + 2)]

/-- Three bytes always hold an instruction. -/
theorem exists_decode (s : State) : ∃ i rest, decode (bytesAtPc s) = .ok (i, rest) := by
  obtain ⟨r, hr⟩ := exists_rowOf (codeByte s s.pc)
  have h := decode_take hr (codeByte s (s.pc + 1)) (codeByte s (s.pc + 2)) ((bytesAtPc s).drop (layoutLength r.layout))
  exact ⟨_, _, (congrArg decode (List.take_append_drop _ _).symm).trans h⟩

theorem programBytes_eq_take (s : State) (l : Layout) :
    s.programBytes s.pc (layoutLength l) = (bytesAtPc s).take (layoutLength l) := by
  have h0 : s.pc + BitVec.ofNat 16 0 = s.pc := BitVec.add_zero _
  rcases layoutLength_cases l with h | h | h
  all_goals
    rw [h]
    simp [State.programBytes, programAddrs, List.range_succ, bytesAtPc, programByte_eq]

/-- The instruction a fetch gives is the one the bytes at pc decode to, with the length of its encoding and the cost of
its row. -/
theorem fetch_eq {s : State} {i : Instr} {rest : List Byte} (h : decode (bytesAtPc s) = .ok (i, rest)) :
    ∃ r, rowOf (codeByte s s.pc) = some r ∧ s.fetch = .instr i (encode i).length r.cycles := by
  obtain ⟨r, hr⟩ := exists_rowOf (codeByte s s.pc)
  have hdec := decode_take hr (codeByte s (s.pc + 1)) (codeByte s (s.pc + 2))
  have hi : i = layoutBuild r.layout (codeByte s s.pc) (codeByte s (s.pc + 1)) (codeByte s (s.pc + 2)) := by
    have h' := hdec ((bytesAtPc s).drop (layoutLength r.layout))
    rw [show [codeByte s s.pc, codeByte s (s.pc + 1), codeByte s (s.pc + 2)] = bytesAtPc s from rfl,
      List.take_append_drop, h] at h'
    exact (Prod.mk.inj (Except.ok.inj h')).1
  have hbytes : decode (s.programBytes s.pc (layoutLength r.layout)) = .ok (i, []) := by
    rw [programBytes_eq_take, hi, ← hdec [], List.append_nil]
    rfl
  have hlen : (encode i).length = layoutLength r.layout := by
    have henc := encodeOfDecodeIsTheBytes _ _ _ hbytes
    rw [List.append_nil, programBytes_eq_take] at henc
    rw [henc]
    rcases layoutLength_cases r.layout with h | h | h <;> rw [h] <;> rfl
  refine ⟨r, hr, ?_⟩
  have hin : (programAddrs s.pc (layoutLength r.layout)).find? (fun a => !s.inProgram a) = none :=
    List.find?_eq_none.mpr fun a _ => by rw [inProgram_true s a]; simp
  unfold State.fetch
  rw [if_pos (inProgram_true s s.pc), programByte_eq, hr]
  simp only [hin, hbytes, hlen]

/-! ### The step -/

theorem step_of_halted {s : State} (h : s.halted = true) : step s = .next (s.beginStep.idle.endStep idleCycles) :=
  if_pos h

theorem step_of_fetch {s t : State} {i : Instr} {n c : Nat} (hh : s.halted = false)
    (hf : s.beginStep.fetch = .instr i n c) (he : exec i (s.beginStep.enter n) = .next t) :
    step s = .next (t.endStep c) := by
  have hh' : ¬s.beginStep.halted = true := by rw [show s.beginStep.halted = s.halted from rfl, hh]; simp
  unfold step
  simp only [if_neg hh', hf, he, finish]

/-- Outside HALT a step runs the instruction at pc. -/
theorem step_of_decode {s : State} {i : Instr} {rest : List Byte} (hh : s.halted = false)
    (h : decode (bytesAtPc s) = .ok (i, rest)) : ∃ r t, rowOf (codeByte s s.pc) = some r ∧
      exec i (s.beginStep.enter (encode i).length) = .next t ∧ step s = .next (t.endStep r.cycles) := by
  obtain ⟨r, hr, hf⟩ := fetch_eq (s := s.beginStep) h
  obtain ⟨t, ht, -⟩ := exec_cases i (s.beginStep.enter (encode i).length)
  exact ⟨r, t, hr, ht, step_of_fetch hh hf ht⟩

/-- What a step does before its end: an idle step, or the instruction at pc. -/
theorem step_cases (s : State) : ∃ u c, step s = .next (u.endStep c) ∧ (u = s.beginStep.idle ∨
    ∃ i rest n, decode (bytesAtPc s) = .ok (i, rest) ∧ exec i (s.beginStep.enter n) = .next u) := by
  cases hh : s.halted with
  | true => exact ⟨_, _, step_of_halted hh, .inl rfl⟩
  | false =>
    obtain ⟨i, rest, h⟩ := exists_decode s
    obtain ⟨r, t, -, ht, hs⟩ := step_of_decode hh h
    exact ⟨t, _, hs, .inr ⟨i, rest, _, h, ht⟩⟩

/-- Settles O44: whatever the state, the step ends. -/
theorem everyStepAnswersNext : Obligations.EveryStepAnswersNext := by
  intro s
  obtain ⟨u, c, h, -⟩ := step_cases s
  exact ⟨_, h⟩

/-- Settles O45: the fetch decodes the bytes at pc, and `exec` answers a next state. -/
theorem stepRunsTheDecodedInstruction : Obligations.StepRunsTheDecodedInstruction := by
  intro s i rest hh _ h
  obtain ⟨r, t, hr, ht, hs⟩ := step_of_decode hh h
  exact ⟨t, r.cycles, by rw [hr]; rfl, ht, hs⟩

/-- Settles O46: the idle branch of the step. -/
theorem haltedStepExecutesNothing : Obligations.HaltedStepExecutesNothing :=
  fun _ h => step_of_halted h

/-! ### The end of a step: arrivals and the boundary step -/

/-- Requests raised one after the other change nothing but the pending bitmap. -/
theorem foldl_raiseIrq (now : List IrqSource) (s : State) : now.foldl State.raiseIrq s =
    { s with pending := now.foldl (fun p x => p ||| x.bit) s.pending } := by
  induction now generalizing s with
  | nil => rfl
  | cons x now ih => exact ih (s.raiseIrq x)

theorem foldl_bit_getLsbD (now : List IrqSource) (p : BitVec 10) (k : Nat) :
    (now.foldl (fun p x => p ||| x.bit) p).getLsbD k = (p.getLsbD k || decide (∃ x ∈ now, x.index = k)) := by
  induction now generalizing p with
  | nil => simp
  | cons x now ih =>
    rw [List.foldl_cons, ih, BitVec.getLsbD_or, IrqSource.bit_getLsbD]
    simp [Bool.or_assoc, eq_comm]

/-- Different sources have different bits. -/
theorem index_inj {x y : IrqSource} : x.index = y.index ↔ x = y := by
  cases x <;> cases y <;> decide

/-- What the arrivals of a step do: the first list of sources becomes pending and leaves the list of arrivals. -/
theorem takeArrivals_eq (s : State) : s.takeArrivals = { s with
    arrivals := s.arrivals.tail
    pending := (s.arrivals.headD []).foldl (fun p x => p ||| x.bit) s.pending } := by
  unfold State.takeArrivals
  cases h : s.arrivals with
  | nil => cases s; simp_all
  | cons now later => exact foldl_raiseIrq now _

/-- Settles O52: each request sets the bit of its source and no other. -/
theorem raisedRequestsBecomePending : Obligations.RaisedRequestsBecomePending := by
  constructor
  · intro s x
    refine ⟨rfl, fun y => ?_⟩
    rw [State.raiseIrq_pending, BitVec.getLsbD_or, IrqSource.bit_getLsbD]
    exact congrArg (s.pending.getLsbD y.index || ·) (decide_eq_decide.mpr index_inj)
  · intro s now later h
    rw [takeArrivals_eq, h]
    refine ⟨rfl, fun y => ?_⟩
    have hmem : (∃ x ∈ now, x.index = y.index) ↔ y ∈ now :=
      ⟨fun ⟨x, hx, he⟩ => index_inj.mp he ▸ hx, fun hy => ⟨y, hy, rfl⟩⟩
    refine (foldl_bit_getLsbD now s.pending y.index).trans ?_
    exact congrArg (s.pending.getLsbD y.index || ·) (decide_eq_decide.mpr hmem)

/-- What the boundary step does. -/
theorem boundary_cases (s : State) : s.boundary = { s with suppress := false } ∨ s.boundary = s ∨
    ∃ x l, s.suppress = false ∧ s.admitted = some (x, l) ∧ s.boundary = s.dispatch x l := by
  unfold State.boundary
  split
  · exact .inl rfl
  · split
    · exact .inr (.inl rfl)
    · next hs _ x l h => exact .inr (.inr ⟨x, l, by simpa using hs, h, rfl⟩)

/-- The state in which a step of cost `c` comes to its boundary step. -/
def beforeBoundary (s : State) (c : Nat) : State :=
  { s with
    lastCycles := c
    arrivals := s.arrivals.tail
    pending := (s.arrivals.headD []).foldl (fun p x => p ||| x.bit) s.pending }

theorem endStep_eq (s : State) (c : Nat) : s.endStep c = (beforeBoundary s c).boundary :=
  congrArg State.boundary (takeArrivals_eq { s with lastCycles := c })

theorem boundary_programMemories (s : State) : s.boundary.rom = s.rom ∧ s.boundary.flash = s.flash := by
  rcases boundary_cases s with h | h | ⟨x, l, -, -, h⟩
  · rw [h]
    exact ⟨rfl, rfl⟩
  · rw [h]
    exact ⟨rfl, rfl⟩
  · rw [h]
    exact ⟨State.dispatch_rom s x l, State.dispatch_flash s x l⟩

theorem endStep_programMemories (s : State) (c : Nat) : (s.endStep c).rom = s.rom ∧ (s.endStep c).flash = s.flash := by
  rw [endStep_eq]
  exact boundary_programMemories (beforeBoundary s c)

theorem boundary_errorLog (s : State) : s.errorLog <+: s.boundary.errorLog := by
  rcases boundary_cases s with h | h | ⟨x, l, -, -, h⟩ <;> rw [h]
  exact ⟨_, (dispatch_outcome s x l).errorLog.symm⟩

theorem endStep_errorLog (s : State) (c : Nat) : s.errorLog <+: (s.endStep c).errorLog := by
  rw [endStep_eq]
  exact boundary_errorLog (beforeBoundary s c)

/-- Settles O54: the instruction and the boundary step append to the log, and the rest of the step leaves it. -/
theorem errorLogOnlyGrows : Obligations.ErrorLogOnlyGrows := by
  intro s t h
  obtain ⟨u, c, hs, hu⟩ := step_cases s
  obtain rfl : u.endStep c = t := Host.Outcome.next.inj (hs.symm.trans h)
  have hlog : s.errorLog <+: u.errorLog := by
    rcases hu with rfl | ⟨i, rest, n, -, he⟩
    · exact List.prefix_rfl
    · have hlog := exec_errorLog he
      exact hlog
  obtain ⟨new, hnew⟩ := hlog.trans (endStep_errorLog u c)
  exact ⟨new, hnew.symm⟩

/-- A step changes flash only where it runs an STF while programming. -/
theorem step_programMemories {s t : State} (h : step s = .next t) :
    t.rom = s.rom ∧ (t.flash = s.flash ∨ s.fstate = .prog ∧ codeByte s s.pc = 0x51) := by
  obtain ⟨u, c, hs, hu⟩ := step_cases s
  obtain rfl : u.endStep c = t := Host.Outcome.next.inj (hs.symm.trans h)
  obtain ⟨hrom, hflash⟩ := endStep_programMemories u c
  rw [hrom, hflash]
  rcases hu with rfl | ⟨i, rest, n, hdec, he⟩
  · exact ⟨rfl, .inl rfl⟩
  · obtain ⟨hr, hf⟩ := exec_programMemories he
    refine ⟨hr, hf.imp_right fun ⟨hi, hp⟩ => ⟨hp, ?_⟩⟩
    have hbytes : encode .stf ++ rest = bytesAtPc s := encodeOfDecodeIsTheBytes _ _ _ (hi ▸ hdec)
    exact (List.cons.inj hbytes).1.symm

/-- Settles O43: an array that is the same data keeps every byte. -/
theorem onlyProgrammingStfChangesFlash : Obligations.OnlyProgrammingStfChangesFlash := by
  refine ⟨fun s t h k => ?_, fun s t h hne => ?_, fun i s t h hne => ?_⟩
  · rw [(step_programMemories h).1]
  · exact (step_programMemories h).2.resolve_left fun he => hne fun k => by rw [he]
  · exact (exec_programMemories h).2.resolve_left fun he => hne fun k => by rw [he]

end Sys2Proof.Proofs
end

section
/-! The invariant (spec/10_state.md R42 to R46): every move keeps it, and so does every step. -/

namespace Sys2Proof.Proofs

open Sys2Proof.Machine Sys2Proof.Safety

/-! ### The parts of the invariant -/

/-- Every array is in canonical form and inside its bounds (R42). -/
structure ArraysWf (s : State) : Prop where
  ram : s.ram.wf 512
  sfr : s.sfr.wf 128
  xram : s.xram.wf 384
  wram : s.wram.wf 512
  rom : s.rom.wf 65536
  flash : s.flash.wf 131072

/-- The program source is the one EXT selects (R34, R43). -/
def SourceIsExt (s : State) : Prop := s.progSrc = if (s.sfr.read 0x0D).getLsbD 0 then .flash else .rom

theorem Inv.arrays {s : State} (h : Inv s) : ArraysWf s := ⟨h.ram, h.sfr, h.xram, h.wram, h.rom, h.flash⟩

/-- Where the interrupt controller and the flash-programming state stay, the arrays and the source are all there is. -/
theorem Inv.of_keeps {s t : State} (h : Inv s) (hpic : KeepsPic s t) (hmisc : KeepsMisc s t) (ha : ArraysWf t)
    (hsrc : SourceIsExt t) : Inv t where
  ram := ha.ram
  sfr := ha.sfr
  xram := ha.xram
  wram := ha.wram
  rom := ha.rom
  flash := ha.flash
  source := hsrc
  count := by rw [hmisc.fcount]; exact h.count
  locked := by rw [hmisc.fcount, hmisc.fstate]; exact h.locked
  slots := by rw [hpic.slot, hpic.rrLast]; exact h.slots

/-! ### The arrays -/

theorem ramIndex_lt (s : State) {a : DAddr} (h : a.toNat < 0x100) : ramIndex s a < 512 := by
  have hb := Bool.toNat_le ((s.sfr.read 1).getLsbD 1)
  unfold ramIndex
  omega

theorem xramIndex_lt (s : State) (a : DAddr) : xramIndex s a < 384 := by
  have hb := s.xramBank.isLt
  have ha := a.isLt
  unfold xramIndex
  omega

theorem ArraysWf.setReg {s : State} (h : ArraysWf s) (r : Sfr) (v : Byte) : ArraysWf (s.setReg r v) :=
  { h with sfr := Memory.write_wf h.sfr r.idx_lt v }

theorem ArraysWf.raise {s : State} (h : ArraysWf s) (c : ErrorCode) (a : Nat) (v : Byte) : ArraysWf (s.raise c a v) :=
  { h with }

theorem ArraysWf.afterWorkAccess {s : State} (h : ArraysWf s) : ArraysWf s.afterWorkAccess := by
  unfold State.afterWorkAccess State.incWorkAddr
  split
  · dsimp only
    split
    · exact (h.setReg _ _).setReg _ _
    · exact h.setReg _ _
  · exact h

theorem ArraysWf.dread {s : State} (h : ArraysWf s) (a : DAddr) : ArraysWf (s.dread a).2 := by
  unfold State.dread
  split
  · exact h
  · split
    · exact h.afterWorkAccess
    · split
      · exact { h with }
      · split
        · exact h
        · exact h

theorem ArraysWf.dreadLatch {s : State} (h : ArraysWf s) (a : DAddr) : ArraysWf (s.dreadLatch a).2 := by
  unfold State.dreadLatch
  split
  · exact h
  · exact h.dread a

theorem ArraysWf.of_eq {s t : State} (h : ArraysWf s) (ram : t.ram = s.ram) (sfr : t.sfr = s.sfr)
    (xram : t.xram = s.xram) (wram : t.wram = s.wram) (rom : t.rom = s.rom) (flash : t.flash = s.flash) :
    ArraysWf t :=
  ⟨ram ▸ h.ram, sfr ▸ h.sfr, xram ▸ h.xram, wram ▸ h.wram, rom ▸ h.rom, flash ▸ h.flash⟩

theorem ArraysWf.writeEffect {s : State} (h : ArraysWf s) (a : DAddr) (v : Byte) : ArraysWf (s.writeEffect a v) := by
  unfold State.writeEffect
  split
  · exact h.of_eq (by simp) (by simp) (by simp) (by simp) (by simp) (by simp)
  · split
    · exact h.of_eq (by simp) (by simp) (by simp) (by simp) (by simp) (by simp)
    · split
      · exact h.of_eq (by simp) (by simp) (by simp) (by simp) (by simp) (by simp)
      · split
        · exact ArraysWf.afterWorkAccess { h with wram := Memory.write_wf h.wram s.workAddr.isLt v }
        · exact h

theorem ArraysWf.dwrite {s : State} (h : ArraysWf s) (a : DAddr) (v : Byte) : ArraysWf (s.dwrite a v) := by
  by_cases hlow : a.toNat < 0x100
  · rw [dwrite_low_eq s v hlow]
    exact { h with ram := Memory.write_wf h.ram (ramIndex_lt s hlow) v }
  by_cases hhigh : 0x180 ≤ a.toNat
  · rw [dwrite_high_eq s v hhigh]
    exact { h with xram := Memory.write_wf h.xram (xramIndex_lt s a) v }
  · rw [dwrite_sfr_eq s v (by omega) (by omega)]
    have he := h.writeEffect a v
    exact { he with sfr := Memory.write_wf he.sfr (by omega) v }

theorem ArraysWf.push {s : State} (h : ArraysWf s) (v : Byte) : ArraysWf (s.push v) := by
  have hsp := (s.sp + 1).isLt
  unfold State.push
  dsimp only
  split
  · have hr := (h.raise .stackOverflow (s.sp + 1).toNat v).setReg .sp (s.sp + 1)
    exact { hr with ram := Memory.write_wf h.ram (by omega) v }
  · have hr := h.setReg .sp (s.sp + 1)
    exact { hr with ram := Memory.write_wf h.ram (by omega) v }

theorem ArraysWf.pop {s : State} (h : ArraysWf s) : ArraysWf s.pop.2 := by
  unfold State.pop
  dsimp only
  split
  · exact (h.raise _ _ _).setReg _ _
  · exact h.setReg _ _

/-! ### The program source -/

theorem SourceIsExt.of_keeps {s t : State} (h : SourceIsExt s) (hb : KeepsBanks s t)
    (hr : t.sfr.read 0x0D = s.sfr.read 0x0D) : SourceIsExt t := by
  unfold SourceIsExt
  rw [hb.progSrc, hr]
  exact h

/-- A write to EXT moves the source with bit 0; every other write leaves both. -/
theorem SourceIsExt.dwrite {s : State} (h : SourceIsExt s) (a : DAddr) (v : Byte) : SourceIsExt (s.dwrite a v) := by
  have hw := dwrite_outcome s a v
  unfold SourceIsExt at h ⊢
  rw [hw.progSrc]
  by_cases ha : a = 0x10D
  · subst ha
    have hext : (s.dwrite 0x10D v).sfr.read 0x0D = v := hw.stored (by decide) (by decide)
    rw [hext]
    split
    · rfl
    · next hs =>
      have hbit : v.getLsbD 0 = (s.sfr.read 0x0D).getLsbD 0 := not_not.mp fun hne => hs ⟨rfl, hne⟩
      rw [hbit]
      exact h
  · rw [if_neg fun hs => ha hs.1, hw.regs 0x0D ?_]
    · exact h
    · intro hmem
      rcases List.mem_append.mp hmem with hmem | hmem
      · split at hmem
        · have hd : 0x0D = a.toNat - 0x100 := List.mem_singleton.mp hmem
          exact ha (BitVec.eq_of_toNat_eq (show a.toNat = 0x10D by omega))
        · exact absurd hmem List.not_mem_nil
      · split at hmem
        · exact absurd hmem (by decide)
        · exact absurd hmem List.not_mem_nil

/-! ### Every move keeps the invariant -/

theorem Move.inv {s t : State} (hm : Move s t) (h : Inv s) : Inv t := by
  obtain ⟨hpic, hmisc, -, -⟩ := hm.keepsHidden
  have ha := Inv.arrays h
  have hsrc : SourceIsExt s := h.source
  refine Inv.of_keeps h hpic hmisc ?_ ?_
  · cases hm with
    | read a => exact ha.dread a
    | latch a => exact ha.dreadLatch a
    | write a v => exact ha.dwrite a v
    | push v => exact ha.push v
    | pop => exact ha.pop
    | jump t => exact { ha with }
  · cases hm with
    | read a => 
      have hr := (dread_outcome s a).effect
      exact hsrc.of_keeps hr.banks (hr.regs _ (by split <;> decide))
    | latch a => 
      have hr := (dreadLatch_outcome s a).effect
      exact hsrc.of_keeps hr.banks (hr.regs _ (by split <;> decide))
    | write a v => exact hsrc.dwrite a v
    | push v => exact hsrc.of_keeps (push_outcome s v).banks ((push_outcome s v).regs _ (by decide))
    | pop => exact hsrc.of_keeps (pop_outcome s).banks ((pop_outcome s).regs _ (by decide))
    | jump t => exact hsrc

theorem Moves.inv {s t : State} (hm : Moves s t) (h : Inv s) : Inv t := by
  induction hm with
  | refl => exact h
  | tail _ hm ih => exact hm.inv ih

/-! ### STF, RETI, the boundary step -/

/-- A step of the flash-programming state machine never leaves a count that is not the budget's (R345). -/
theorem flashStep_inv {s : State} (h : Inv s) (v : Byte) : Inv (s.flashStep v) := by
  rcases flashStep_cases s v with ⟨fs, n, log, he, hn⟩ | ⟨hp, fs, n, he, hn⟩
  · rw [he]
    have hzero : s.fstate ≠ .prog → s.fcount = 0 := h.locked
    have hn0 : n = 0 := by
      rcases hn with rfl | ⟨hne, rfl⟩
      · rfl
      · exact hzero hne
    subst hn0
    exact { h with count := Nat.zero_lt_succ 127, locked := fun _ => rfl }
  · rw [he]
    have hc := h.count
    have hflash := Memory.write_wf h.flash s.flashAddr.isLt v
    rcases hn with rfl | ⟨rfl, rfl, hne⟩
    · exact { h with flash := hflash, count := Nat.zero_lt_succ 127, locked := fun _ => rfl }
    · exact { h with flash := hflash, count := by simp only; omega, locked := fun hne => absurd rfl hne }

/-- A slot that RETI leaves occupied is one it did not touch. -/
theorem returnFromInterrupt_inv {s : State} (h : Inv s) : Inv s.returnFromInterrupt := by
  have hpop : Inv s.popPC.2 := (Moves.popPC .refl).inv h
  cases htop : s.slot.top with
  | none =>
    rw [returnFromInterrupt_none htop]
    exact { hpop with }
  | some l =>
    rw [returnFromInterrupt_some htop]
    refine { hpop with slots := fun k hk => ?_ }
    simp only [PerLevel.get_set] at hk ⊢
    split at hk
    · exact absurd rfl hk
    · next hne =>
      rw [if_neg hne]
      exact (State.popPC_rrLast s ▸ h.slots k hk)

theorem exec_inv {i : Instr} {s t : State} (h : Inv s) (he : exec i s = .next t) : Inv t := by
  obtain ⟨t', ht, hcases⟩ := exec_cases i s
  obtain rfl : t' = t := Host.Outcome.next.inj (ht.symm.trans he)
  rcases hcases with hm | ⟨-, rfl⟩ | ⟨-, rfl⟩
  · exact hm.inv h
  · exact flashStep_inv h _
  · exact returnFromInterrupt_inv h

/-- A dispatch sets the slot of a level together with the level's round-robin memory. -/
theorem dispatch_inv {s : State} (h : Inv s) (x : IrqSource) (l : Level) : Inv (s.dispatch x l) := by
  have ho := dispatch_outcome s x l
  have ha : ArraysWf (s.dispatch x l) := by
    let s1 : State := { s with pending := s.pending &&& ~~~x.bit, slot := s.slot.set l (some x) }
    have h1 : ArraysWf s1 := { Inv.arrays h with }
    have h2 : ArraysWf (s1.pushPC s1.pc) := (h1.push _).push _
    exact { h2.setReg .pcon _ with }
  exact {
    ram := ha.ram
    sfr := ha.sfr
    xram := ha.xram
    wram := ha.wram
    rom := ha.rom
    flash := ha.flash
    source := SourceIsExt.of_keeps h.source ho.banks (ho.regs _ (by decide))
    count := by rw [ho.misc.fcount]; exact h.count
    locked := by rw [ho.misc.fcount, ho.misc.fstate]; exact h.locked
    slots := fun k => by
      rw [ho.slot, ho.rrLast]
      split
      · exact fun _ => rfl
      · exact h.slots k }

theorem boundary_inv {s : State} (h : Inv s) : Inv s.boundary := by
  rcases boundary_cases s with hb | hb | ⟨x, l, -, -, hb⟩
  · rw [hb]
    exact { h with }
  · rw [hb]
    exact h
  · rw [hb]
    exact dispatch_inv h x l

theorem endStep_inv {s : State} (h : Inv s) (c : Nat) : Inv (s.endStep c) := by
  rw [endStep_eq]
  exact boundary_inv { h with }

/-- Settles O58: the step is an idle step or one instruction, then the arrivals and the boundary step; each keeps the
invariant. -/
theorem stepKeepsInvariant : Obligations.StepKeepsInvariant := by
  intro s t h hs
  obtain ⟨u, c, hstep, hu⟩ := step_cases s
  obtain rfl : u.endStep c = t := Host.Outcome.next.inj (hstep.symm.trans hs)
  refine endStep_inv ?_ c
  rcases hu with rfl | ⟨i, rest, n, -, he⟩
  · exact { h with }
  · have hstart : Inv (s.beginStep.enter n) := { h with }
    exact exec_inv hstart he

/-- Settles O57: every array lists nothing, nothing is programmed and no slot is occupied. -/
theorem invariantHoldsAtReset : Obligations.InvariantHoldsAtReset where
  ram := Memory.nil_wf _
  sfr := Memory.nil_wf _
  xram := Memory.nil_wf _
  wram := Memory.nil_wf _
  rom := Memory.nil_wf _
  flash := Memory.nil_wf _
  source := rfl
  count := by decide
  locked := fun _ => rfl
  slots := fun l hl => absurd (by cases l <;> rfl) hl

end Sys2Proof.Proofs
end

section
/-! The stack and the subroutine instructions (spec/20_memory.md R106 to R109, spec/42_transfer.md section 4,
spec/45_subroutine.md). -/

namespace Sys2Proof.Proofs

open Sys2Proof.Machine Sys2Proof.Safety

/-! ### Push and pop -/

/-- A word is the byte above over the byte below. -/
theorem ofNat_append_ofNat (a : PAddr) : BitVec.ofNat 8 (a.toNat / 256) ++ BitVec.ofNat 8 a.toNat = a := by
  apply BitVec.eq_of_toNat_eq
  have ha := a.isLt
  rw [toNat_append_eq_add, BitVec.toNat_ofNat, BitVec.toNat_ofNat]
  omega

theorem byte_add_one_sub_one (b : Byte) : b + 1 - 1 = b := by simp

theorem byte_add_two_sub_one (b : Byte) : b + 2 - 1 = b + 1 := by
  rw [show (2 : Byte) = 1 + 1 from rfl, ← BitVec.add_assoc]
  exact byte_add_one_sub_one (b + 1)

/-- Two stack places in a row are different, also where SP wraps. -/
theorem stack_places_ne (b : Byte) : (b + 1).toNat ≠ (b + 2).toNat := by
  bv_omega

/-- Where a return address stands on the stack, `PopPC` gives it back and lowers SP below it. -/
theorem popPC_of_stack {s : State} {p : Byte} {a : PAddr} (hsp : s.sfr.read 6 = p + 2)
    (hlow : s.ram.read (p + 1).toNat = BitVec.ofNat 8 a.toNat)
    (hhigh : s.ram.read (p + 2).toNat = BitVec.ofNat 8 (a.toNat / 256)) :
    s.popPC.1 = a ∧ s.popPC.2.sfr.read 6 = p ∧ KeepsRegs [6] s s.popPC.2 := by
  obtain ⟨hi, lo, m, h1, h2, hra⟩ := popPC_outcome s
  have hm : m.sfr.read 6 = p + 1 := by rw [h1.sp, hsp, byte_add_two_sub_one]
  have hhi : hi = BitVec.ofNat 8 (a.toNat / 256) := by rw [h1.value, hsp, hhigh]
  have hlo : lo = BitVec.ofNat 8 a.toNat := by rw [h2.value, hm, h1.memory.ram _ List.not_mem_nil, hlow]
  refine ⟨?_, ?_, fun k hk => (h2.regs k hk).trans (h1.regs k hk)⟩
  · rw [hra, hhi, hlo, ofNat_append_ofNat]
  · rw [h2.sp, hm, byte_add_one_sub_one]

/-- What a pushed return address leaves: the two bytes above SP, and SP raised by 2. -/
structure PushedPC (s : State) (a : PAddr) (t : State) : Prop where
  sp : t.sfr.read 6 = s.sfr.read 6 + 2
  low : t.ram.read (s.sfr.read 6 + 1).toNat = BitVec.ofNat 8 a.toNat
  high : t.ram.read (s.sfr.read 6 + 2).toNat = BitVec.ofNat 8 (a.toNat / 256)
  ram : KeepsRam [(s.sfr.read 6 + 1).toNat, (s.sfr.read 6 + 2).toNat] s t
  regs : KeepsRegs [6] s t

theorem pushPC_pushed (s : State) (a : PAddr) : PushedPC s a (s.pushPC a) := by
  obtain ⟨m, h1, h2⟩ := pushPC_outcome s a
  have hplace : m.sfr.read 6 + 1 = s.sfr.read 6 + 2 := by rw [h1.sp, BitVec.add_assoc]; rfl
  have hram := h2.ram
  have htop := h2.top
  rw [hplace] at hram htop
  refine ⟨h2.sp.trans hplace, ?_, htop, fun k hk => ?_, fun k hk => (h2.regs k hk).trans (h1.regs k hk)⟩
  · exact (hram _ (by simpa using stack_places_ne _)).trans h1.top
  · obtain ⟨hk1, hk2⟩ : k ≠ (s.sfr.read 6 + 1).toNat ∧ k ≠ (s.sfr.read 6 + 2).toNat := by simpa using hk
    exact (hram k (by simpa using hk2)).trans (h1.ram k (by simpa using hk1))

/-! ### PUSH and POP (R260, R261) -/

/-- Settles O21: a data read, then a push of its byte. -/
theorem pushStoresAboveStackPointer : Obligations.PushStoresAboveStackPointer :=
  fun a s => ⟨_, _, dread_outcome s a, _, rfl, push_outcome _ _⟩

/-- Settles O22: a pop, then a data write of its byte. -/
theorem popWritesPoppedByte : Obligations.PopWritesPoppedByte :=
  fun a s => ⟨_, _, pop_outcome s, _, rfl, dwrite_outcome _ a _⟩

/-- Settles O23: the push raises SP to the place of the byte, and the pop reads that place and lowers SP again; the write
of B touches neither. -/
theorem popReturnsPushedByte : Obligations.PopReturnsPushedByte := by
  intro s
  have hpush := push_outcome s (s.sfr.read 0)
  refine ⟨s.push (s.sfr.read 0), rfl, ?_⟩
  generalize s.push (s.sfr.read 0) = t at hpush ⊢
  have hpop := pop_outcome t
  have hwrite := dwrite_outcome t.pop.2 0x102 t.pop.1
  refine ⟨_, rfl, ?_, fun k hk => ?_, fun k hk => ?_, ?_⟩
  · have hb : (t.pop.2.dwrite 0x102 t.pop.1).sfr.read 2 = t.pop.1 := hwrite.stored (by decide) (by decide)
    rw [hb, hpop.value, hpush.sp, hpush.top]
  · have hk2 : k ≠ 2 := by simpa using hk
    refine (hwrite.regs k (by simpa using hk2)).trans ?_
    by_cases h6 : k = 6
    · rw [h6, hpop.sp, hpush.sp, byte_add_one_sub_one]
    · exact (hpop.regs k (by simpa using h6)).trans (hpush.regs k (by simpa using h6))
  · rw [hwrite.ram, if_neg (fun h => absurd h.1 (by decide))]
    exact (hpop.memory.ram k List.not_mem_nil).trans (hpush.ram k hk)
  · rw [hwrite.pc, if_neg (fun h => absurd h.1.1 (by decide)), hpop.pc, hpush.pc]

/-! ### Calls and returns (R320 to R325) -/

/-- Adding the bias 0 and the displacement is the sum modulo 65536. -/
theorem rel16_eq_rel16Target (s : State) (r16 : BitVec 16) : rel16 s.pc r16 = rel16Target s r16 := by
  apply BitVec.eq_of_toNat_eq
  simp [rel16, rel16Target, rel16Bias]

/-- Settles O36: the return address is the pc of after the fetch, pushed before the jump. -/
theorem callsPushReturnAddress : Obligations.CallsPushReturnAddress := by
  intro s
  refine ⟨fun a12 => ⟨_, rfl, _, pushPC_outcome s s.pc, ?_⟩, fun a16 => ⟨_, rfl, _, pushPC_outcome s s.pc, rfl⟩⟩
  rw [← page12_eq_pageTarget]
  rfl

/-- Settles O37: both targets are sums from the pc of after the fetch. -/
theorem longRelativeTransfersAddToPc : Obligations.LongRelativeTransfersAddToPc := by
  intro r16 s
  rw [← rel16_eq_rel16Target]
  exact ⟨rfl, _, rfl, _, pushPC_outcome s s.pc, rfl⟩

/-- Settles O38: RET is `PopPC` and a jump. -/
theorem retPopsReturnAddress : Obligations.RetPopsReturnAddress :=
  fun s => ⟨_, rfl, _, _, popPC_outcome s, rfl⟩

/-- Settles O39: the highest occupied slot, looked for from HIGHEST down. -/
theorem retiVacatesInnermostSlot : Obligations.RetiVacatesInnermostSlot := by
  intro s
  refine ⟨_, rfl, _, _, popPC_outcome s, ?_⟩
  have hsome (o : Option IrqSource) : o ≠ none ↔ o.isSome = true := Option.isSome_iff_ne_none.symm
  simp only [hsome]
  split
  · next h =>
    rw [returnFromInterrupt_some (l := .highest) (if_pos h)]
    simp [PerLevel.set]
  · next h =>
    split
    · next h' =>
      rw [returnFromInterrupt_some (l := .high) ((if_neg h).trans (if_pos h'))]
      simp [PerLevel.set]
    · next h' =>
      split
      · next h'' =>
        rw [returnFromInterrupt_some (l := .low) ((if_neg h).trans ((if_neg h').trans (if_pos h'')))]
        simp [PerLevel.set]
      · next h'' => rw [returnFromInterrupt_none ((if_neg h).trans ((if_neg h').trans (if_neg h'')))]

/-- Settles O40: the return pops the two bytes that the call pushed, and neither touches anything else. -/
theorem retUndoesCall : Obligations.RetUndoesCall := by
  intro a16 s
  have hpush : PushedPC s s.pc ((s.pushPC s.pc).jump a16) := { pushPC_pushed s s.pc with }
  have hmoves : Moves s ((s.pushPC s.pc).jump a16) := (Moves.pushPC .refl s.pc).jump a16
  have hx : ((s.pushPC s.pc).jump a16).xram = s.xram := State.pushPC_xram s s.pc
  have hw : ((s.pushPC s.pc).jump a16).wram = s.wram := State.pushPC_wram s s.pc
  refine ⟨(s.pushPC s.pc).jump a16, rfl, rfl, ?_⟩
  generalize (s.pushPC s.pc).jump a16 = t at hpush hmoves hx hw
  obtain ⟨hpc, hsp, hregs⟩ := popPC_of_stack hpush.sp hpush.low hpush.high
  have hkeeps := (hmoves.popPC.jump t.popPC.1).keepsHidden
  refine ⟨_, rfl, hpc, fun k _ => ?_, fun k hk => ?_, fun k => ?_, fun k => ?_, fun k => ?_, fun k => ?_, hkeeps.pic⟩
  · rw [State.jump_sfr]
    by_cases h6 : k = 6
    · rw [h6, hsp]
    · exact (hregs k (by simpa using h6)).trans (hpush.regs k (by simpa using h6))
  · rw [State.jump_ram, State.popPC_ram, hpush.ram k hk]
  · rw [State.jump_xram, State.popPC_xram, hx]
  · rw [State.jump_wram, State.popPC_wram, hw]
  · rw [hkeeps.rom]
  · rw [hkeeps.flash]

end Sys2Proof.Proofs
end

section
/-! The interrupt controller (spec/60_exceptions.md R420 to R435): which request the boundary step admits, and the return
from its handler. -/

namespace Sys2Proof.Proofs

open Sys2Proof.Machine Sys2Proof.Safety

/-! ### Searches of a list sorted by a key -/

/-- In a list that a key sorts, a search finds the hit with the least key. -/
theorem findSome?_eq_some_iff_least {α β : Type} {f : α → Option β} {key : α → Nat} {l : List α}
    (hl : l.Pairwise fun a a' => key a < key a') {b : β} :
    l.findSome? f = some b ↔ ∃ a ∈ l, f a = some b ∧ ∀ a' ∈ l, (f a').isSome = true → key a ≤ key a' := by
  induction l with
  | nil => simp
  | cons c l ih =>
    obtain ⟨hc, hl⟩ := List.pairwise_cons.mp hl
    rw [List.findSome?_cons]
    cases hf : f c with
    | some d =>
      constructor
      · rintro ⟨⟩
        refine ⟨c, List.mem_cons_self, hf, fun a' ha' _ => ?_⟩
        rcases List.mem_cons.mp ha' with rfl | ha'
        · exact Nat.le_refl _
        · exact (hc a' ha').le
      · rintro ⟨a, ha, hb, hmin⟩
        have hle : key a ≤ key c := hmin c List.mem_cons_self (by rw [hf]; rfl)
        rcases List.mem_cons.mp ha with rfl | ha
        · exact hf.symm.trans hb
        · exact absurd (hc a ha) (by omega)
    | none =>
      refine (ih hl).trans ⟨?_, ?_⟩
      · rintro ⟨a, ha, hb, hmin⟩
        refine ⟨a, List.mem_cons_of_mem c ha, hb, fun a' ha' hs => ?_⟩
        rcases List.mem_cons.mp ha' with rfl | ha'
        · simp [hf] at hs
        · exact hmin a' ha' hs
      · rintro ⟨a, ha, hb, hmin⟩
        rcases List.mem_cons.mp ha with rfl | ha
        · simp [hf] at hb
        · exact ⟨a, ha, hb, fun a' ha' => hmin a' (List.mem_cons_of_mem c ha')⟩

theorem find?_eq_some_iff_least {α : Type} {p : α → Bool} {key : α → Nat} {l : List α}
    (hl : l.Pairwise fun a a' => key a < key a') {b : α} :
    l.find? p = some b ↔ b ∈ l ∧ p b = true ∧ ∀ a ∈ l, p a = true → key b ≤ key a := by
  rw [← List.findSome?_guard, findSome?_eq_some_iff_least hl]
  simp only [Option.guard_eq_some_iff, Option.isSome_guard]
  constructor
  · rintro ⟨a, ha, ⟨rfl, hp⟩, hmin⟩
    exact ⟨ha, hp, hmin⟩
  · rintro ⟨hb, hp, hmin⟩
    exact ⟨b, hb, ⟨rfl, hp⟩, hmin⟩

/-! ### Requests and levels (R420, R423) -/

/-- Settles O51: the table, row by row. -/
theorem interruptTableIsTheSpecTable : Obligations.InterruptTableIsTheSpecTable := rfl

theorem mem_irqTable (x : IrqSource) : x ∈ irqTable := by cases x <;> decide

/-- The level of a request, by the table's IP bit or by the source itself. -/
theorem priorityOf_eq_levelOf (s : State) (x : IrqSource) : s.priorityOf x = levelOf s x := by
  unfold State.priorityOf levelOf State.reg
  rw [Sfr.idx_ie, Sfr.idx_ip]
  dsimp only
  generalize (s.sfr.read 8).getLsbD 7 = enabled
  cases enabled
  all_goals cases x <;> simp [IrqSource.ipBit, IrqSource.index]

theorem mem_candidates {s : State} {l : Level} {x : IrqSource} : x ∈ s.candidates l ↔ candidate s l x := by
  unfold State.candidates candidate
  rw [List.mem_filter, priorityOf_eq_levelOf, Bool.and_eq_true, decide_eq_true_eq]
  exact and_iff_right (mem_irqTable x)

/-! ### The round robin (R431) -/

/-- The order in which the round robin of a level asks the sources. -/
def turnOrder : Option IrqSource → List IrqSource
  | none => irqTable
  | some y => tableAfter y

theorem mem_turnOrder (last : Option IrqSource) (x : IrqSource) : x ∈ turnOrder last := by
  cases last with
  | none => exact mem_irqTable x
  | some y => cases y <;> cases x <;> decide

theorem turnOrder_sorted (s : State) (l : Level) :
    (turnOrder (s.rrLast.get l)).Pairwise fun x y => turn s l x < turn s l y := by
  unfold turn
  cases s.rrLast.get l with
  | none => decide
  | some y => cases y <;> decide

/-- `Pick` as one search, whether or not a source was dispatched at the level before. -/
theorem pick_eq_find? (s : State) (l : Level) : pick (s.rrLast.get l) (s.candidates l) =
    (turnOrder (s.rrLast.get l)).find? fun x => decide (x ∈ s.candidates l) := by
  cases s.rrLast.get l with
  | some y => rfl
  | none =>
    have hp : (fun x => decide (x ∈ s.candidates l)) =
        fun x => s.isPending x && decide (s.priorityOf x = some l) := by
      funext x
      simp [State.candidates, mem_irqTable]
    rw [hp]
    exact List.head?_filter

/-- `Pick` gives the candidate whose turn is first. -/
theorem pick_eq_some_iff {s : State} {l : Level} {x : IrqSource} :
    pick (s.rrLast.get l) (s.candidates l) = some x ↔
      candidate s l x ∧ ∀ y, candidate s l y → turn s l x ≤ turn s l y := by
  rw [pick_eq_find?, find?_eq_some_iff_least (turnOrder_sorted s l)]
  simp only [mem_turnOrder, decide_eq_true_eq, mem_candidates, true_and, forall_const]

/-- `Pick` gives something exactly when there is a candidate. -/
theorem pick_isSome_iff {s : State} {l : Level} :
    (pick (s.rrLast.get l) (s.candidates l)).isSome = true ↔ ∃ x, candidate s l x := by
  rw [pick_eq_find?, List.find?_isSome]
  simp only [mem_turnOrder, decide_eq_true_eq, mem_candidates, true_and]

/-! ### The scan (R430) -/

theorem level_forall {p : Level → Prop} : (∀ l, p l) ↔ p .low ∧ p .high ∧ p .highest :=
  ⟨fun h => ⟨h _, h _, h _⟩, fun ⟨h0, h1, h2⟩ l => by cases l <;> assumption⟩

/-- The level that `top` gives is the highest occupied one. -/
theorem top_eq_some_iff {p : PerLevel} {l : Level} : p.top = some l ↔
    (p.get l).isSome = true ∧ ∀ k, (p.get k).isSome = true → levelNumber k ≤ levelNumber l := by
  rw [level_forall]
  unfold PerLevel.top
  dsimp only [PerLevel.get]
  obtain ⟨_ | _, _ | _, _ | _⟩ := p
  all_goals cases l <;> simp [levelNumber]

/-- The scan visits the permitted levels. -/
theorem mem_scanOrder {s : State} {l : Level} : l ∈ s.scanOrder ↔ permitted s l := by
  unfold permitted occupied
  rw [level_forall]
  dsimp only [PerLevel.get]
  unfold State.scanOrder PerLevel.top
  generalize s.slot.low.isSome = a
  generalize s.slot.high.isSome = b
  generalize s.slot.highest.isSome = c
  cases l
  all_goals
    cases s.prevLevel
    all_goals
      revert a b c
      decide

theorem scanOrder_sorted (s : State) : s.scanOrder.Pairwise fun k l => scanPlace s k < scanPlace s l := by
  unfold State.scanOrder scanPlace occupied PerLevel.top
  generalize s.slot = p
  obtain ⟨_ | _, _ | _, _ | _⟩ := p
  all_goals cases s.prevLevel <;> simp [PerLevel.get, idleOrder, levelsAbove, levelNumber]

/-! ### The request the boundary step admits (R430) -/

/-- The boundary step admits the request that the statements' `Admits` names. -/
theorem admitted_eq_some_iff {s : State} {x : IrqSource} {l : Level} : s.admitted = some (x, l) ↔ Admits s l x := by
  unfold State.admitted
  rw [findSome?_eq_some_iff_least (scanOrder_sorted s)]
  simp only [Option.isSome_map, pick_isSome_iff, mem_scanOrder, Option.map_eq_some_iff, pick_eq_some_iff,
    Prod.mk.injEq]
  constructor
  · rintro ⟨k, hperm, ⟨y, ⟨hcand, hnext⟩, rfl, rfl⟩, hfirst⟩
    exact ⟨hperm, hcand, fun k y hk hy => hfirst k hk ⟨y, hy⟩, hnext⟩
  · rintro ⟨hperm, hcand, hfirst, hnext⟩
    exact ⟨l, hperm, ⟨x, ⟨hcand, hnext⟩, rfl, rfl⟩, fun k hk ⟨y, hy⟩ => hfirst k y hk hy⟩

theorem admitted_eq_none_iff {s : State} : s.admitted = none ↔ ∀ l x, permitted s l → ¬candidate s l x := by
  have hpick (l : Level) : pick (s.rrLast.get l) (s.candidates l) = none ↔ ∀ x, ¬candidate s l x := by
    rw [← Option.not_isSome_iff_eq_none, pick_isSome_iff, not_exists]
  unfold State.admitted
  rw [List.findSome?_eq_none_iff]
  simp only [mem_scanOrder, Option.map_eq_none_iff, hpick]
  exact ⟨fun h l x hl => h l hl x, fun h l hl x => h l x hl⟩

theorem boundary_of_suppress {s : State} (h : s.suppress = true) : s.boundary = { s with suppress := false } :=
  if_pos h

theorem boundary_of_admits {s : State} {x : IrqSource} {l : Level} (hs : s.suppress = false) (h : Admits s l x) :
    s.boundary = s.dispatch x l := by
  unfold State.boundary
  simp [hs, admitted_eq_some_iff.mpr h]

theorem boundary_of_none {s : State} (hs : s.suppress = false) (h : ∀ l x, permitted s l → ¬candidate s l x) :
    s.boundary = s := by
  unfold State.boundary
  simp [hs, admitted_eq_none_iff.mpr h]

/-- With nothing to admit the boundary step leaves at most the suppression flag changed. -/
theorem boundary_without_request {s : State} (h : ∀ l x, permitted s l → ¬candidate s l x) :
    s.boundary = { s with suppress := false } := by
  cases hs : s.suppress with
  | true => exact boundary_of_suppress hs
  | false => rw [boundary_of_none hs h, ← hs]

/-- Settles O48: the search of the boundary step finds the first permitted level with a candidate and the candidate whose
turn is first there, and there is one to find whenever a permitted level has a candidate. -/
theorem boundaryDispatchesTheChosenRequest : Obligations.BoundaryDispatchesTheChosenRequest := by
  intro s
  refine ⟨boundary_of_suppress, fun hs l x h => ?_, boundary_of_none, fun ⟨l, x, hl, hx⟩ => ?_⟩
  · rw [boundary_of_admits hs h]
    exact dispatch_outcome s x l
  · cases h : s.admitted with
    | none => exact absurd hx (admitted_eq_none_iff.mp h l x hl)
    | some a => exact ⟨a.2, a.1, admitted_eq_some_iff.mp h⟩

/-- Settles O50: a slot is filled by a dispatch only, and the source dispatched there last has the last turn. -/
theorem sameLevelSourcesAlternate : Obligations.SameLevelSourcesAlternate := by
  intro s l a b hs hlast hne hb hempty hfilled hslot
  rcases boundary_cases s with h | h | ⟨x, k, -, hadm, h⟩
  · exact hfilled (by rw [h]; exact hempty)
  · exact hfilled (by rw [h]; exact hempty)
  · rw [h, (dispatch_outcome s x k).slot] at hslot
    split at hslot
    · next hk =>
      subst hk
      obtain rfl : x = a := Option.some.inj hslot
      have hnext := (admitted_eq_some_iff.mp hadm).next b hb
      unfold turn at hnext
      rw [hlast] at hnext
      have hidx : b.index ≠ x.index := fun he => hne (index_inj.mp he)
      have hlt : b.index < 10 ∧ x.index < 10 := ⟨by cases b <;> decide, by cases x <;> decide⟩
      simp only at hnext
      omega
    · rw [hempty] at hslot
      exact absurd hslot (by simp)

/-- Settles O47: the idle step reaches its boundary step with the same requests, levels and slots, so it dispatches
nothing. -/
theorem haltedWithoutRequestStaysHalted : Obligations.HaltedWithoutRequestStaysHalted := by
  intro s hh harr hnone
  have hnow : s.arrivals.headD [] = [] := by
    rcases harr with h | h
    · rw [h]; rfl
    · rw [List.headD_eq_head?_getD, h]; rfl
  have hidle : beforeBoundary s.beginStep.idle idleCycles =
      { s.beginStep.idle with lastCycles := 1, arrivals := s.arrivals.tail } :=
    congrArg (fun now : List IrqSource => ({ s.beginStep.idle with
      lastCycles := 1
      arrivals := s.arrivals.tail
      pending := now.foldl (fun p x => p ||| x.bit) s.pending } : State)) hnow
  have hstep := step_of_halted hh
  rw [endStep_eq, (congrArg State.boundary hidle).trans (boundary_without_request hnone)] at hstep
  exact ⟨_, hstep, rfl⟩

/-! ### The return from a handler (R434, R435) -/

theorem perLevel_ext {p q : PerLevel} (h : ∀ l, p.get l = q.get l) : p = q := by
  obtain ⟨h0, h1, h2⟩ := level_forall.mp h
  cases p
  cases q
  exact (PerLevel.mk.injEq ..).mpr ⟨h0, h1, h2⟩

/-- Settles O49: the dispatch fills the slot of its level, which is then the highest, and leaves the return address on
the stack; RETI vacates that slot and pops that address. -/
theorem retiUndoesDispatch : Obligations.RetiUndoesDispatch := by
  intro s l x hs h
  rw [boundary_of_admits hs h]
  have hd := dispatch_outcome s x l
  have hempty : s.slot.get l = none := by
    by_contra hne
    exact absurd (h.permitted l (Option.isSome_iff_ne_none.mpr hne)) (lt_irrefl _)
  have htop : (s.dispatch x l).slot.top = some l := by
    refine top_eq_some_iff.mpr ⟨by rw [hd.slot, if_pos rfl]; rfl, fun k hk => ?_⟩
    rw [hd.slot] at hk
    split at hk
    · next he => rw [he]
    · exact (h.permitted k hk).le
  obtain ⟨hpc, hsp, hregs⟩ := popPC_of_stack hd.sp hd.low hd.high
  refine ⟨_, rfl, ?_⟩
  rw [returnFromInterrupt_some htop]
  refine ⟨hpc, hsp, fun k hk => ?_, perLevel_ext fun k => ?_, rfl, ?_⟩
  · by_cases h6 : k = 6
    · rw [h6]
      exact hsp
    · exact (hregs k (by simpa using h6)).trans (hd.regs k (by simpa [h6] using hk))
  · rw [PerLevel.get_set, hd.slot]
    split
    · next he => rw [he, hempty]
    · rfl
  · rw [State.popPC_rrLast, hd.rrLast, if_pos rfl]

end Sys2Proof.Proofs
end

section
/-! The arithmetic, logic and transfer instructions (spec/40_arith.md, spec/41_logic.md, spec/42_transfer.md). -/

namespace Sys2Proof.Proofs

open Sys2Proof.Machine Sys2Proof.Safety

/-! ### Addition and subtraction (R200 to R213) -/

/-- What the adder's result in ACC and PSW is, in the arithmetic of the statements. -/
theorem adds_putAlu (u : State) (a b : Byte) (cin : Bool) : Adds u a b cin (.next (u.putAlu (addAlu a b cin))) := by
  have h := putAlu_outcome u (addAlu a b cin)
  rw [addAlu_ov] at h
  exact ⟨_, rfl, h⟩

/-- What the subtracter's result in ACC and PSW is: a borrow is a negative exact difference. -/
theorem subtracts_putAlu (u : State) (a b : Byte) (cin : Bool) :
    Subtracts u a b cin (.next (u.putAlu (subAlu a b cin))) := by
  have h := putAlu_outcome u (subAlu a b cin)
  have hcy : (subAlu a b cin).cy = decide ((a.toNat : Int) - b.toNat - cin.toNat < 0) := by
    unfold subAlu
    exact decide_eq_decide.mpr (by omega)
  rw [subAlu_ov, hcy] at h
  exact ⟨_, rfl, h⟩

/-- Settles O7: the adder on ACC and the immediate. -/
theorem addImmediateWritesSumAndFlags : Obligations.AddImmediateWritesSumAndFlags :=
  fun i8 s => ⟨adds_putAlu s (s.sfr.read 0) i8 false, adds_putAlu s (s.sfr.read 0) i8 (carry s)⟩

/-- Settles O8: the adder on ACC, with the carry of before the read, and the byte read. -/
theorem addDataWritesSumAndFlags : Obligations.AddDataWritesSumAndFlags := by
  have hadd (s : State) (a : DAddr) (cin : Bool) := adds_putAlu (s.dread a).2 (s.sfr.read 0) (s.dread a).1 cin
  exact ⟨fun a s => ⟨_, _, dread_outcome s a, hadd s a false, hadd s a (carry s)⟩,
    fun j s => ⟨_, _, dread_outcome s (s.indEA j), hadd s (s.indEA j) false, hadd s (s.indEA j) (carry s)⟩⟩

/-- Settles O9: the subtracter on ACC and the immediate. -/
theorem subImmediateWritesDifferenceAndFlags : Obligations.SubImmediateWritesDifferenceAndFlags :=
  fun i8 s => ⟨subtracts_putAlu s (s.sfr.read 0) i8 false, subtracts_putAlu s (s.sfr.read 0) i8 (carry s)⟩

/-- Settles O10: the subtracter on ACC, with the carry of before the read, and the byte read. -/
theorem subDataWritesDifferenceAndFlags : Obligations.SubDataWritesDifferenceAndFlags := by
  have hsub (s : State) (a : DAddr) (cin : Bool) := subtracts_putAlu (s.dread a).2 (s.sfr.read 0) (s.dread a).1 cin
  exact ⟨fun a s => ⟨_, _, dread_outcome s a, hsub s a false, hsub s a (carry s)⟩,
    fun j s => ⟨_, _, dread_outcome s (s.indEA j), hsub s (s.indEA j) false, hsub s (s.indEA j) (carry s)⟩⟩

/-! ### Increment and decrement (R214 to R217) -/

theorem byte_add_one (v : Byte) : v + 1 = BitVec.ofNat 8 (v.toNat + 1) :=
  BitVec.eq_of_toNat_eq (by simp)

theorem byte_sub_one (v : Byte) : v - 1 = BitVec.ofNat 8 (v.toNat + 255) :=
  BitVec.eq_of_toNat_eq (by simp [BitVec.toNat_sub, Nat.add_comm])

/-- A data write, its byte under another name. -/
theorem dwrite_outcome_of_eq (s : State) (a : DAddr) {v w : Byte} (h : v = w) : WriteOutcome s a w (s.dwrite a v) :=
  h ▸ dwrite_outcome s a v

/-- A read-modify-write is a latch read, then a write of the changed byte (20_memory.md R87). -/
theorem modify_outcome (s : State) (a : DAddr) {f : Byte → Byte} {v : Byte} (hf : f (s.dreadLatch a).1 = v) :
    WriteOutcome (s.dreadLatch a).2 a v (s.modify a f) :=
  dwrite_outcome_of_eq _ a hf

/-- Settles O11: both are read-modify-writes, direct and indirect. -/
theorem incDecWriteBackLatchPlusMinusOne : Obligations.IncDecWriteBackLatchPlusMinusOne := by
  have hinc (s : State) (a : DAddr) := modify_outcome s a (f := fun v => v + 1) (byte_add_one (s.dreadLatch a).1)
  have hdec (s : State) (a : DAddr) := modify_outcome s a (f := fun v => v - 1) (byte_sub_one (s.dreadLatch a).1)
  exact ⟨fun a s => ⟨_, _, dreadLatch_outcome s a, ⟨_, rfl, hinc s a⟩, ⟨_, rfl, hdec s a⟩⟩,
    fun j s => ⟨_, _, dreadLatch_outcome s (s.indEA j), ⟨_, rfl, hinc s _⟩, ⟨_, rfl, hdec s _⟩⟩⟩

/-! ### Multiplication and division (R218, R219) -/

/-- The result of a MUL or a DIV: `x` to C, `y` to ACC, `z` to B, then CY 0 and OV. -/
def writeWide (s : State) (x y z : Byte) (ov : Bool) : State :=
  (((s.writeReg .c x).writeReg .acc y).writeReg .b z).setCyOv false ov

/-- What such a result changes. -/
structure WideOutcome (s : State) (x y z : Byte) (ov : Bool) (t : State) : Prop where
  c : t.sfr.read 3 = x
  acc : t.sfr.read 0 = y
  b : t.sfr.read 2 = z
  cy : (t.sfr.read 1).getLsbD 7 = false
  ov : (t.sfr.read 1).getLsbD 2 = ov
  parity : (pswRead t).getLsbD 0 = decide (popcount y % 2 = 1)
  others : t.sfr.read 1 &&& 0x7A = s.sfr.read 1 &&& 0x7A
  frame : RegsOnly [0, 1, 2, 3] s t
  pc : t.pc = s.pc
  eventLog : t.eventLog = s.eventLog ++ [.sinkWrite 0x103 x, .memoryChanged 0x103 x,
    .sinkWrite 0x100 y, .memoryChanged 0x100 y, .sinkWrite 0x102 z, .memoryChanged 0x102 z,
    .sinkWrite 0x101 (t.sfr.read 1), .memoryChanged 0x101 (t.sfr.read 1)]

theorem writeWide_outcome (s : State) (x y z : Byte) (ov : Bool) :
    WideOutcome s x y z ov (writeWide s x y z ov) := by
  let m := ((s.writeReg .c x).writeReg .acc y).writeReg .b z
  have hm : m = { s with
      sfr := ((s.sfr.write 3 x).write 0 y).write 2 z
      eventLog := s.eventLog ++ [.sinkWrite 0x103 x, .memoryChanged 0x103 x, .sinkWrite 0x100 y,
        .memoryChanged 0x100 y, .sinkWrite 0x102 z, .memoryChanged 0x102 z] } := by
    simp only [m, writeReg_c_eq, writeReg_acc_eq, writeReg_b_eq, List.append_assoc, List.cons_append, List.nil_append]
  have hflags : FlagOutcome m 0x84 _ (writeWide s x y z ov) := setCyOv_outcome m false ov
  have hframe : RegsOnly [0, 2, 3] s m := by
    rw [hm]
    refine regsOnly_of_sfr s _ _ _ s.pc fun k hk => ?_
    simp only [List.mem_cons, List.not_mem_nil, or_false, not_or] at hk
    simp only [Memory.read_write, hk, if_false]
  have hread (k : Nat) (hk : k ≠ 1) :
      (writeWide s x y z ov).sfr.read k = (((s.sfr.write 3 x).write 0 y).write 2 z).read k := by
    rw [hflags.frame.regs k (by simpa using hk), hm]
  have hacc : (writeWide s x y z ov).sfr.read 0 = y := by
    rw [hread 0 (by decide)]
    simp [Memory.read_write]
  refine ⟨?c, hacc, ?b, ?cy, ?ov, ?parity, ?others, ?frame, ?pc, ?eventLog⟩
  case c =>
    rw [hread 3 (by decide)]
    simp [Memory.read_write]
  case b =>
    rw [hread 2 (by decide)]
    simp
  case cy => exact (flagOutcome_bit hflags (i := 7) (by decide)).trans (by cases ov <;> rfl)
  case ov => exact (flagOutcome_bit hflags (i := 2) (by decide)).trans (by cases ov <;> rfl)
  case parity => rw [pswRead_bit_zero, hacc]
  case others => exact hflags.others.trans (by rw [hframe.regs 1 (by decide)]; rfl)
  case frame => exact regsOnly_trans hframe hflags.frame fun k hk => by simp at hk ⊢; omega
  case pc => rw [hflags.pc, hm]
  case eventLog =>
    rw [hflags.eventLog, hm]
    simp

/-- ACC:C as a number. -/
theorem word16_toNat (h l : Byte) : (word16 h l).toNat = 256 * h.toNat + l.toNat := by
  rw [word16, toNat_append_eq_add]
  omega

theorem numByte_zero (n : Nat) : numByte n 0 = BitVec.ofNat 8 n := by
  rw [numByte, Nat.pow_zero, Nat.div_one]

theorem numByte_one (n : Nat) : numByte n 1 = BitVec.ofNat 8 (n / 256) := rfl

theorem numByte_two (n : Nat) : numByte n 2 = BitVec.ofNat 8 (n / 65536) := rfl

/-- `MUL` writes the three low bytes of the product (R218). -/
theorem exec_mul {s : State} {p : Nat}
    (hp : (256 * (s.sfr.read 0).toNat + (s.sfr.read 3).toNat) * (s.sfr.read 2).toNat = p) :
    exec .mul s = .next (writeWide s (BitVec.ofNat 8 p) (BitVec.ofNat 8 (p / 256)) (BitVec.ofNat 8 (p / 65536))
      (decide (0xFFFF < p))) := by
  have h : mulProduct (s.sfr.read 0) (s.sfr.read 3) (s.sfr.read 2) = p := by rw [mulProduct, word16_toNat, hp]
  rw [← numByte_zero, ← numByte_one, ← numByte_two, ← h]
  rfl

/-- Settles O12: the product's bytes in C, ACC and B. -/
theorem mulPacksTwentyFourBitProduct : Obligations.MulPacksTwentyFourBitProduct := by
  intro s p
  have h := writeWide_outcome s (BitVec.ofNat 8 p) (BitVec.ofNat 8 (p / 256)) (BitVec.ofNat 8 (p / 65536))
    (decide (0xFFFF < p))
  refine ⟨_, exec_mul rfl, h.c, h.acc, h.b, h.cy, h.ov, h.parity, h.others, h.frame, h.pc, ?_⟩
  rw [h.c, h.acc, h.b]
  exact h.eventLog

theorem toNat_eq_zero_iff {b : Byte} : b.toNat = 0 ↔ b = 0 := by
  rw [← BitVec.toNat_inj]
  rfl

/-- Quotient and remainder, with the fixed result of a division by zero (R219). -/
theorem divResult_eq (acc c b : Byte) : divResult acc c b =
    (if b.toNat = 0 then 0xFF00 + c.toNat else (256 * acc.toNat + c.toNat) / b.toNat,
      if b.toNat = 0 then 0 else (256 * acc.toNat + c.toNat) % b.toNat) := by
  have hor : 0xFF00 ||| c.toNat = 0xFF00 + c.toNat := (Nat.shiftLeft_add_eq_or_of_lt c.isLt 0xFF).symm
  unfold divResult
  simp only [toNat_eq_zero_iff, hor, word16_toNat]
  split <;> rfl

/-- `DIV` writes the two bytes of the quotient and the remainder (R219). -/
theorem exec_div {s : State} {q r : Nat}
    (h : divResult (s.sfr.read 0) (s.sfr.read 3) (s.sfr.read 2) = (q, r)) :
    exec .div s = .next (writeWide s (BitVec.ofNat 8 q) (BitVec.ofNat 8 (q / 256)) (BitVec.ofNat 8 r)
      (decide (r = 0))) := by
  have hq : (divResult (s.sfr.read 0) (s.sfr.read 3) (s.sfr.read 2)).1 = q := by rw [h]
  have hr : (divResult (s.sfr.read 0) (s.sfr.read 3) (s.sfr.read 2)).2 = r := by rw [h]
  rw [← numByte_zero, ← numByte_one, ← numByte_zero r, ← hq, ← hr]
  rfl

/-- Settles O13: the quotient's bytes in C and ACC, the remainder in B. -/
theorem divLeavesQuotientAndRemainder : Obligations.DivLeavesQuotientAndRemainder := by
  intro s x d q r
  have h := writeWide_outcome s (BitVec.ofNat 8 q) (BitVec.ofNat 8 (q / 256)) (BitVec.ofNat 8 r) (decide (r = 0))
  refine ⟨_, exec_div (divResult_eq _ _ _), h.c, h.acc, h.b, h.cy, h.ov, h.parity, h.others, h.frame, h.pc, ?_⟩
  rw [h.c, h.acc, h.b]
  exact h.eventLog

/-- A word goes through its two bytes unchanged. -/
theorem bytes_of_word {p : Nat} (hp : p < 65536) :
    256 * (BitVec.ofNat 8 (p / 256)).toNat + (BitVec.ofNat 8 p).toNat = p := by
  rw [BitVec.toNat_ofNat, BitVec.toNat_ofNat]
  omega

/-- Settles O14: without overflow the product is the word ACC:C, and dividing it by the old B is exact. -/
theorem divUndoesMulWithoutOverflow : Obligations.DivUndoesMulWithoutOverflow := by
  intro s hb
  let x := 256 * (s.sfr.read 0).toNat + (s.sfr.read 3).toNat
  let p := x * (s.sfr.read 2).toNat
  have hd : 0 < (s.sfr.read 2).toNat := Nat.pos_of_ne_zero fun h => hb (toNat_eq_zero_iff.mp h)
  have hmul := writeWide_outcome s (BitVec.ofNat 8 p) (BitVec.ofNat 8 (p / 256)) (BitVec.ofNat 8 (p / 65536))
    (decide (0xFFFF < p))
  refine ⟨_, exec_mul rfl, fun hov => ?_⟩
  generalize writeWide s _ _ _ _ = t at hmul hov
  have hp : p < 65536 := by
    rw [hmul.ov, decide_eq_false_iff_not] at hov
    omega
  have hmov := dwrite_outcome t 0x102 (s.sfr.read 2)
  refine ⟨?_, _, rfl, ?_⟩
  · rw [hmul.b, Nat.div_eq_of_lt hp]
    rfl
  generalize t.dwrite 0x102 (s.sfr.read 2) = u at hmov
  have hb2 : u.sfr.read 2 = s.sfr.read 2 := hmov.stored (by decide) (by decide)
  have h0 : u.sfr.read 0 = BitVec.ofNat 8 (p / 256) := (hmov.regs 0 (by simp)).trans hmul.acc
  have h3 : u.sfr.read 3 = BitVec.ofNat 8 p := (hmov.regs 3 (by simp)).trans hmul.c
  have hdiv : divResult (u.sfr.read 0) (u.sfr.read 3) (u.sfr.read 2) = (x, 0) := by
    rw [divResult_eq, h0, h3, hb2, bytes_of_word hp, if_neg hd.ne', if_neg hd.ne', Nat.mul_div_cancel _ hd,
      Nat.mul_mod_left]
  have hw := writeWide_outcome u (BitVec.ofNat 8 x) (BitVec.ofNat 8 (x / 256)) (BitVec.ofNat 8 0) (decide (0 = 0))
  refine ⟨_, exec_div hdiv, ?_, ?_, hw.b, hw.ov⟩
  · rw [hw.acc]
    have hacc : x / 256 = (s.sfr.read 0).toNat := by simp only [x]; omega
    rw [hacc, BitVec.ofNat_toNat, BitVec.setWidth_eq]
  · rw [hw.c]
    apply BitVec.eq_of_toNat_eq
    rw [BitVec.toNat_ofNat]
    simp only [x]
    omega

/-! ### Logic and rotates (R231 to R243) -/

/-- Settles O15: each is a write of ACC. -/
theorem logicImmediateWritesAccOnly : Obligations.LogicImmediateWritesAccOnly :=
  fun _ s => ⟨⟨_, rfl, writeAcc_outcome s _⟩, ⟨_, rfl, writeAcc_outcome s _⟩, ⟨_, rfl, writeAcc_outcome s _⟩⟩

/-- Settles O16: each is a data read, then a write of ACC. -/
theorem logicDataWritesAccOnly : Obligations.LogicDataWritesAccOnly :=
  ⟨fun a s => ⟨_, _, dread_outcome s a, ⟨_, rfl, writeAcc_outcome _ _⟩, ⟨_, rfl, writeAcc_outcome _ _⟩,
      ⟨_, rfl, writeAcc_outcome _ _⟩⟩,
    fun j s => ⟨_, _, dread_outcome s (s.indEA j), ⟨_, rfl, writeAcc_outcome _ _⟩, ⟨_, rfl, writeAcc_outcome _ _⟩,
      ⟨_, rfl, writeAcc_outcome _ _⟩⟩⟩

theorem rotateLeft_eq : ∀ (a : Byte) (c : Bool), rotateLeft a c = BitVec.ofNat 8 (2 * a.toNat + c.toNat) := by
  decide +kernel

theorem rotateRight_eq : ∀ (a : Byte) (c : Bool), rotateRight a c = BitVec.ofNat 8 (a.toNat / 2 + 128 * c.toNat) := by
  decide +kernel

/-- The bit a left rotate moves out. -/
theorem getLsbD_seven_eq : ∀ a : Byte, a.getLsbD 7 = decide (128 ≤ a.toNat) ∧ (a.getLsbD 7).toNat = a.toNat / 128 := by
  decide +kernel

/-- The bit a right rotate moves out. -/
theorem getLsbD_zero_eq : ∀ a : Byte, a.getLsbD 0 = decide (a.toNat % 2 = 1) ∧ (a.getLsbD 0).toNat = a.toNat % 2 := by
  decide +kernel

/-- A write of ACC, its value under another name. -/
theorem writeAcc_outcome_of_eq (s : State) {v r : Byte} (h : v = r) : AccOutcome s r (s.writeReg .acc v) :=
  h ▸ writeAcc_outcome s v

/-- A write of CY, its condition as a proposition. -/
theorem setCy_outcome_of_eq (s : State) {cy : Bool} {p : Prop} [Decidable p] (h : cy = decide p) :
    FlagOutcome s 0x80 (if p then 0x80 else 0) (s.setCy cy) := by
  subst h
  simpa only [decide_eq_true_eq] using setCy_outcome s (decide p)

/-- Settles O17: a rotate is twice or half of ACC with the bit that enters; the carry rotates write the bit moved out to
CY after ACC. -/
theorem rotatesMoveBitsAndCarry : Obligations.RotatesMoveBitsAndCarry := by
  intro s a c
  obtain ⟨h7, h7'⟩ := getLsbD_seven_eq (s.sfr.read 0)
  obtain ⟨h0, h0'⟩ := getLsbD_zero_eq (s.sfr.read 0)
  refine ⟨⟨_, rfl, writeAcc_outcome_of_eq s ?rol⟩, ⟨_, rfl, writeAcc_outcome_of_eq s ?ror⟩,
    ⟨_, rfl, _, writeAcc_outcome_of_eq s (rotateLeft_eq _ _), setCy_outcome_of_eq _ h7⟩,
    ⟨_, rfl, _, writeAcc_outcome_of_eq s (rotateRight_eq _ _), setCy_outcome_of_eq _ h0⟩⟩
  case rol => exact (rotateLeft_eq _ _).trans (congrArg (fun n => BitVec.ofNat 8 (2 * a + n)) h7')
  case ror => exact (rotateRight_eq _ _).trans (congrArg (fun n => BitVec.ofNat 8 (a / 2 + 128 * n)) h0')

/-! ### Transfers (R252 to R257, R270) -/

/-- Settles O19: each is one data write. -/
theorem storeAndMoveAreOneDataWrite : Obligations.StoreAndMoveAreOneDataWrite :=
  ⟨fun a i8 s => ⟨⟨_, rfl, dwrite_outcome s a (s.sfr.read 0)⟩, ⟨_, rfl, dwrite_outcome s a i8⟩⟩,
    fun j i8 s => ⟨⟨_, rfl, dwrite_outcome s (s.indEA j) (s.sfr.read 0)⟩, ⟨_, rfl, dwrite_outcome s (s.indEA j) i8⟩⟩⟩

/-- A data read leaves ACC alone. -/
theorem dread_acc (s : State) (a : DAddr) : (s.dread a).2.sfr.read 0 = s.sfr.read 0 :=
  (dread_outcome s a).effect.regs 0 (by split <;> decide)

/-- An exchange writes the old ACC, then the byte read. -/
theorem exchange_outcome (s : State) (a : DAddr) :
    ∃ m, WriteOutcome (s.dread a).2 a (s.sfr.read 0) m ∧ AccOutcome m (s.dread a).1 (s.exchange a) :=
  ⟨_, dwrite_outcome_of_eq _ a (dread_acc s a), writeAcc_outcome _ _⟩

/-- Settles O20: the exchange, direct and indirect. -/
theorem exchangeWritesMemoryThenAcc : Obligations.ExchangeWritesMemoryThenAcc :=
  ⟨fun a s => ⟨_, _, dread_outcome s a, _, rfl, exchange_outcome s a⟩,
    fun j s => ⟨_, _, dread_outcome s (s.indEA j), _, rfl, exchange_outcome s (s.indEA j)⟩⟩

/-- The table address as a sum modulo 65536. -/
theorem tableAddr_eq (s : State) : s.tableAddr =
    BitVec.ofNat 16 (256 * (s.sfr.read 5).toNat + (s.sfr.read 4).toNat + (s.sfr.read 0).toNat) := by
  apply BitVec.eq_of_toNat_eq
  have hacc : s.acc = s.sfr.read 0 := rfl
  have ha := (s.sfr.read 0).isLt
  rw [State.tableAddr, BitVec.toNat_add, tablePtr_toNat, hacc, BitVec.toNat_setWidth, BitVec.toNat_ofNat]
  omega

/-- Settles O24: LDC is a write of ACC with a program byte, since every address is inside program space. -/
theorem ldcReadsProgramTable : Obligations.LdcReadsProgramTable := by
  intro s
  rw [← tableAddr_eq, ← programByte_eq]
  exact ⟨_, exec_ldc s, writeAcc_outcome s _⟩

/-! ### The indirect address (20_memory.md R110, R111) -/

/-- The pointer's address: the bank number of PSW over the pointer number. -/
theorem ptrAddr_toNat (s : State) (j : PtrNum) : (s.ptrAddr j).toNat = 4 * ((s.sfr.read 1).toNat / 8 % 4) + j.toNat := by
  have hbank : s.irbk.toNat = (s.sfr.read 1).toNat / 8 % 4 := by
    have hirbk : s.irbk = (s.sfr.read 1).extractLsb' 3 2 := rfl
    rw [hirbk, BitVec.extractLsb'_toNat, Nat.shiftRight_eq_div_pow]
  have hj := j.isLt
  rw [State.ptrAddr, BitVec.toNat_setWidth, toNat_append_eq_add, hbank]
  omega

/-- Settles O25: the pointer lies below 0x100, in the mapped RAM bank. -/
theorem indirectAddressIsPointerByte : Obligations.IndirectAddressIsPointerByte := by
  intro s j
  have hptr := ptrAddr_toNat s j
  have hj := j.isLt
  have hbyte : s.dataByte (s.ptrAddr j) = s.ram.read (256 * ((s.sfr.read 1).getLsbD 1).toNat +
      (4 * ((s.sfr.read 1).toNat / 8 % 4) + j.toNat)) := by
    rw [State.dataByte_eq, backing, if_pos (by omega), hptr]
  apply BitVec.eq_of_toNat_eq
  have hlt := (s.dataByte (s.ptrAddr j)).isLt
  rw [State.indEA, toNat_append_eq_add, BitVec.extractLsb'_toNat, Nat.shiftRight_eq_div_pow, ← hbyte,
    BitVec.toNat_ofNat]
  omega

end Sys2Proof.Proofs
end

section
/-! Bits, data branches and the registers with a side effect of their own (spec/43_bit.md, spec/44_branch.md,
spec/20_memory.md R80 to R97). -/

namespace Sys2Proof.Proofs

open Sys2Proof.Machine Sys2Proof.Safety

/-! ### Bit instructions (R280 to R282) -/

/-- Settles O26: each is a read-modify-write with the mask of its bit. -/
theorem bitInstructionsRewriteOneBit : Obligations.BitInstructionsRewriteOneBit :=
  fun a _ s => ⟨_, _, dreadLatch_outcome s a, ⟨_, rfl, modify_outcome s a rfl⟩, ⟨_, rfl, modify_outcome s a rfl⟩,
    ⟨_, rfl, modify_outcome s a rfl⟩⟩

/-! ### Branches on a data byte (R297, R300 to R307) -/

/-- Settles O32: the bit read decides between the write with the jump and nothing at all. -/
theorem bpcClearsTheBitItBranchesOn : Obligations.BpcClearsTheBitItBranchesOn := by
  intro a b r8 s
  refine ⟨_, _, dreadLatch_outcome s a, _, exec_bpc a b r8 s, ?_⟩
  split
  · rw [rel8_eq_relTarget]
    exact ⟨_, dwrite_outcome _ a _, rfl⟩
  · rfl

/-- A conditional branch, its condition as a proposition. -/
theorem jumpIf_outcome_of_iff (s : State) {c : Bool} {p : Prop} (h : c = true ↔ p) (t : PAddr) :
    BranchOutcome p t s (s.jumpIf c t) :=
  propext h ▸ jumpIf_outcome s c t

/-- The write-back and the branch of DBNZ: the result is 0 exactly for the byte 1. -/
theorem decrementAndBranch_outcome (s : State) (a : DAddr) (r8 : Byte) :
    ∃ m, WriteOutcome (s.dreadLatch a).2 a (BitVec.ofNat 8 ((s.dreadLatch a).1.toNat + 255)) m ∧
      BranchOutcome ((s.dreadLatch a).1 ≠ 1) (relTarget s r8) m (s.decrementAndBranch a r8) := by
  refine ⟨_, dwrite_outcome_of_eq _ a (byte_sub_one _), ?_⟩
  rw [← rel8_eq_relTarget]
  exact jumpIf_outcome_of_iff _ (by rw [bne_iff_ne, ne_eq, ne_eq, sub_eq_zero]) _

/-- Settles O33: DBNZ, direct and indirect. -/
theorem dbnzDecrementsAndBranches : Obligations.DbnzDecrementsAndBranches :=
  ⟨fun a r8 s => ⟨_, _, dreadLatch_outcome s a, _, rfl, decrementAndBranch_outcome s a r8⟩,
    fun j r8 s => ⟨_, _, dreadLatch_outcome s (s.indEA j), _, rfl, decrementAndBranch_outcome s (s.indEA j) r8⟩⟩

/-- The compare carry and the branch of BE (`want` true) and BNE (`want` false), from a pc that the read kept. -/
theorem compareAndBranch_outcome {s u : State} (hpc : u.pc = s.pc) (lhs rhs : Byte) (r8 : Byte) :
    CompareOutcome u lhs rhs (lhs = rhs) (relTarget s r8) (u.compareAndBranch lhs rhs true r8) ∧
      CompareOutcome u lhs rhs (lhs ≠ rhs) (relTarget s r8) (u.compareAndBranch lhs rhs false r8) := by
  have hflag : FlagOutcome u 0x80 (if lhs.toNat < rhs.toNat then 0x80 else 0) (u.setCy (compareCarry lhs rhs)) :=
    setCy_outcome_of_eq u rfl
  have htarget : rel8 u.pc r8 = relTarget s r8 := by rw [hpc, rel8_eq_relTarget]
  rw [← htarget]
  exact ⟨⟨_, hflag, jumpIf_outcome_of_iff _ (by simp) _⟩, ⟨_, hflag, jumpIf_outcome_of_iff _ (by simp) _⟩⟩

/-- Settles O34: the comparison with the immediate. -/
theorem compareImmediateBranches : Obligations.CompareImmediateBranches := by
  intro i8 r8 s
  obtain ⟨hbe, hbne⟩ := compareAndBranch_outcome (s := s) rfl (s.sfr.read 0) i8 r8
  exact ⟨⟨_, rfl, hbe⟩, ⟨_, rfl, hbne⟩⟩

/-- Settles O35: the comparison after the data read, which keeps pc. -/
theorem compareDataBranches : Obligations.CompareDataBranches := by
  constructor
  · intro a r8 s
    have hread := dread_outcome s a
    obtain ⟨hbe, hbne⟩ := compareAndBranch_outcome hread.effect.pc (s.sfr.read 0) (s.dread a).1 r8
    exact ⟨_, _, hread, ⟨_, rfl, hbe⟩, ⟨_, rfl, hbne⟩⟩
  · intro j i8 r8 s
    have hread := dread_outcome s (s.indEA j)
    obtain ⟨hbe, hbne⟩ := compareAndBranch_outcome hread.effect.pc (s.dread (s.indEA j)).1 i8 r8
    exact ⟨_, _, hread, ⟨_, rfl, hbe⟩, ⟨_, rfl, hbne⟩⟩

/-! ### Write-only registers (R80, R97) -/

theorem readValue_writeOnly (s : State) {a : DAddr} (h : a ∈ ([0x120, 0x127, 0x145, 0x146, 0x14D] : List DAddr)) :
    readValue s a = 0xFF := if_pos h

/-- No write-only register is a latch register, so a latch read of one is a plain read. -/
theorem latchValue_writeOnly (s : State) {a : DAddr} (h : a ∈ ([0x120, 0x127, 0x145, 0x146, 0x14D] : List DAddr)) :
    latchValue s a = 0xFF := by
  have hlatch : ∀ a ∈ ([0x120, 0x127, 0x145, 0x146, 0x14D] : List DAddr),
      a ∉ ([0x11B, 0x11D, 0x144, 0x14C, 0x15C] : List DAddr) := by decide
  exact (if_neg (hlatch a h)).trans (readValue_writeOnly s h)

/-- What a read-modify-write stores in a write-only register. -/
theorem modify_writeOnly (s : State) {a : DAddr} (h : a ∈ ([0x120, 0x127, 0x145, 0x146, 0x14D] : List DAddr))
    (f : Byte → Byte) : (s.modify a f).sfr.read (a.toNat - 0x100) = f 0xFF := by
  have hsfr : ∀ a ∈ ([0x120, 0x127, 0x145, 0x146, 0x14D] : List DAddr), 0x100 ≤ a.toNat ∧ a.toNat < 0x180 := by decide
  obtain ⟨hlo, hhi⟩ := hsfr a h
  have hval : (s.dreadLatch a).1 = 0xFF := (dreadLatch_outcome s a).value.trans (latchValue_writeOnly s h)
  exact (modify_outcome s a (congrArg f hval)).stored hlo hhi

/-- Settles O27: what is stored comes from 0xFF, and what is loaded afterwards is 0xFF, whatever was stored. -/
theorem writeOnlyRegistersReadAsOnes : Obligations.WriteOnlyRegistersReadAsOnes := by
  intro a b s h
  refine ⟨⟨_, rfl, (modify_writeOnly s h _).trans ?_⟩, ⟨_, rfl, modify_writeOnly s h _⟩,
    ⟨_, rfl, modify_writeOnly s h _, _, rfl, ?_⟩⟩
  · exact BitVec.allOnes_or
  · exact (writeAcc_outcome _ _).acc.trans ((dread_outcome _ a).value.trans (readValue_writeOnly _ h))

/-! ### The work-RAM port (R83, R95) -/

/-- The access address is made of two registers. -/
theorem workIndex_congr {s t : State} (h : ∀ k ∈ [0x64, 0x65], t.sfr.read k = s.sfr.read k) :
    workIndex t = workIndex s := by
  rw [workIndex, workIndex, h 0x64 (by decide), h 0x65 (by decide)]

/-- LD VTRBF with INCE set: the addressed byte in ACC, the address moved on, INCE and the work RAM as before. -/
theorem loadWork {s : State} (hinc : workInc s = true) : Next (exec (.ldDir 0x166) s) fun t =>
    t.sfr.read 0 = s.wram.read (workIndex s) ∧ workIndex t = (workIndex s + 1) % 512 ∧ workInc t = true ∧
      KeepsWram s t := by
  have hread := dread_outcome s 0x166
  have hacc := writeAcc_outcome (s.dread 0x166).2 (s.dread 0x166).1
  have hmoved : workIndex (s.dread 0x166).2 = (workIndex s + 1) % 512 := by
    rw [hread.effect.workIndex, if_pos ⟨rfl, hinc⟩]
  have hsel : (s.dread 0x166).2.sfr.read 0x63 = s.sfr.read 0x63 := hread.effect.regs _ (by split <;> decide)
  refine ⟨_, exec_ldDir 0x166 s, hacc.acc.trans hread.value, ?_, ?_, fun k => ?_⟩
  · rw [← hmoved]
    exact workIndex_congr fun k hk => hacc.frame.regs k (by revert hk; simp; omega)
  · rw [workInc, hacc.frame.regs _ (by decide), hsel]
    exact hinc
  · exact (hacc.frame.memory.wram k).trans (hread.effect.memory.wram k)

/-- Settles O28: the read and the write each move the address on, and the write of ACC between them does not touch it. -/
theorem workRamPortStepsThroughAllBytes : Obligations.WorkRamPortStepsThroughAllBytes := by
  intro s hinc
  obtain ⟨t, ht, hacc, hidx, hinc', hwram⟩ := loadWork hinc
  have hw := dwrite_outcome t 0x166 (t.sfr.read 0)
  refine ⟨t, ht, hacc, hidx, t.dwrite 0x166 (t.sfr.read 0), rfl, ?_, fun k hk => ?_, ?_⟩
  · rw [hw.wram, if_pos ⟨rfl, hidx.symm⟩, hacc]
  · rw [hw.wram, if_neg (fun h => hk (h.2.trans hidx)), hwram]
  · rw [hw.workIndex rfl, if_pos hinc', hidx]
    omega

/-! ### Bank switches (R91, R93) -/

/-- Settles O29: the data address is decoded with the bank stored by the write before. -/
theorem bankSwitchesTakeEffectAtOnce : Obligations.BankSwitchesTakeEffectAtOnce := by
  intro v s
  constructor
  · have h := dwrite_outcome s 0x101 v
    have hram : KeepsRam [] s (s.dwrite 0x101 v) := fun k _ => (h.ram k).trans (if_neg fun c => absurd c.1 (by decide))
    have hxram : KeepsXram s (s.dwrite 0x101 v) := fun k => (h.xram k).trans (if_neg fun c => absurd c.1 (by decide))
    refine ⟨_, rfl, hram, hxram, fun a ha => ?_⟩
    have hpsw : (s.dwrite 0x101 v).sfr.read 1 = v := h.stored (by decide) (by decide)
    rw [backing, if_pos ha, hpsw, hram _ List.not_mem_nil]
  · intro hv
    have h := dwrite_outcome s 0x125 v
    have hram : KeepsRam [] s (s.dwrite 0x125 v) := fun k _ => (h.ram k).trans (if_neg fun c => absurd c.1 (by decide))
    have hxram : KeepsXram s (s.dwrite 0x125 v) := fun k => (h.xram k).trans (if_neg fun c => absurd c.1 (by decide))
    refine ⟨_, rfl, hram, hxram, fun a ha => ?_⟩
    have hbank : (s.dwrite 0x125 v).xramBank.val =
        if Config.displayBlanked s.sfr then s.xramBank.val else v.toNat := by
      rw [h.xramBank]
      cases Config.displayBlanked s.sfr <;> simp [hv]
    rw [backing, if_neg (by omega), if_neg (by omega), hbank, hxram]

end Sys2Proof.Proofs
end

section
/-! Flash programming (spec/46_system.md R344 to R346), reset (spec/70_reset_and_hazards.md R500, R501) and the host's
data accesses (spec/60_exceptions.md R460). -/

namespace Sys2Proof.Proofs
open Sys2Proof.Machine Sys2Proof.Safety

/-! ### STF (R345, R346) -/

/-- The pair (TRH:TRL, ACC) an STF is held against the unlock sequence with, as numbers. -/
def unlockPair (s : State) : Nat × Nat :=
  (256 * (s.sfr.read 5).toNat + (s.sfr.read 4).toNat, (s.sfr.read 0).toNat)

/-- The pair a state of the handshake expects, as numbers; S2's for every state but S0 and S1. -/
def expectedPair (fs : FlashState) : Nat × Nat :=
  if fs = .s0 then (0x5555, 0xAA) else if fs = .s1 then (0x2AAA, 0x55) else (0x5555, 0xA0)

/-- The first byte of a block is aligned when the low seven bits of TRL are clear. -/
theorem tablePtr_low_eq_zero_iff (s : State) :
    s.tablePtr.extractLsb' 0 7 = 0 ↔ (s.sfr.read 4).toNat % 128 = 0 := by
  rw [← BitVec.toNat_inj, BitVec.extractLsb'_toNat, tablePtr_toNat, Nat.shiftRight_zero,
    show (0 : BitVec 7).toNat = 0 from rfl]
  omega

/-- Outside programming, matching the unlock pair of the state is an equality of numbers. -/
theorem matches_unlockPair_iff (s : State) {fs : FlashState} (h : fs ≠ .prog) :
    some (s.tablePtr, s.acc) = flashUnlockPair fs ↔ unlockPair s = expectedPair fs := by
  have hpair (p : BitVec 16) (v : Byte) :
      some (s.tablePtr, s.acc) = some (p, v) ↔ unlockPair s = (p.toNat, v.toNat) := by
    rw [Option.some_inj, Prod.mk.injEq, unlockPair, Prod.mk.injEq, ← tablePtr_toNat, BitVec.toNat_inj]
    exact and_congr_right fun _ => BitVec.toNat_inj.symm
  cases fs with
  | s0 => exact hpair 0x5555 0xAA
  | s1 => exact hpair 0x2AAA 0x55
  | s2 => exact hpair 0x5555 0xA0
  | prog => exact absurd rfl h

/-- The error of a rejected STF is logged with the flash address as a number, and is not of the fault class. -/
theorem flashError_eq (s : State) (v : Byte) : s.flashError v = { s with
    errorLog := s.errorLog ++ [⟨.flashProgramSequenceError,
      65536 * ((s.sfr.read 0x54).toNat % 2) + 256 * (s.sfr.read 5).toNat + (s.sfr.read 4).toNat, v, s.ipc⟩] } := by
  rw [← flashAddr_toNat]
  rfl

/-- A rejected STF goes back to locked. -/
theorem flashReject_eq (s : State) (v : Byte) : s.flashReject v = { s with
    errorLog := s.errorLog ++ [⟨.flashProgramSequenceError,
      65536 * ((s.sfr.read 0x54).toNat % 2) + 256 * (s.sfr.read 5).toNat + (s.sfr.read 4).toNat, v, s.ipc⟩]
    fstate := .s0
    fcount := 0 } := by
  rw [State.flashReject, flashError_eq]

/-- An STF while programming whose first byte is aligned stores it and counts; the 128th locks the machine. -/
theorem flashProgram_store {s : State} (v : Byte) (h : ¬(s.fcount = 0 ∧ (s.sfr.read 4).toNat % 128 ≠ 0)) :
    s.flashProgram v = { s with
      flash := s.flash.write s.flashAddr.toNat v
      fstate := if s.fcount = 127 then .s0 else s.fstate
      fcount := if s.fcount = 127 then 0 else s.fcount + 1 } := by
  have hlast : s.fcount + 1 = flashBudget ↔ s.fcount = 127 := by
    rw [flashBudget]
    omega
  rw [State.flashProgram, if_neg (by rwa [ne_eq, tablePtr_low_eq_zero_iff])]
  simp only [hlast]
  split <;> rfl

/-- An STF while programming whose first byte is not aligned is rejected. -/
theorem flashProgram_unaligned {s : State} (v : Byte) (h : s.fcount = 0 ∧ (s.sfr.read 4).toNat % 128 ≠ 0) :
    s.flashProgram v = s.flashReject v :=
  if_pos (h.imp_right (mt (tablePtr_low_eq_zero_iff s).mp))

/-- An STF of the handshake whose pair matches advances it. -/
theorem flashHandshake_match {s : State} (hp : s.fstate ≠ .prog) (h : unlockPair s = expectedPair s.fstate) :
    s.flashHandshake s.acc = { s with fstate := flashNextState s.fstate, fcount := 0 } :=
  if_pos ((matches_unlockPair_iff s hp).mpr h)

/-- An STF of the handshake whose pair does not match is rejected; the first pair counts as a new start. -/
theorem flashHandshake_mismatch {s : State} (hp : s.fstate ≠ .prog) (h : unlockPair s ≠ expectedPair s.fstate) :
    s.flashHandshake s.acc =
      { s.flashError s.acc with fstate := if unlockPair s = (0x5555, 0xAA) then .s1 else .s0 } := by
  have hfirst : some (s.tablePtr, s.acc) = flashUnlockPair .s0 ↔ unlockPair s = (0x5555, 0xAA) :=
    matches_unlockPair_iff s (by decide)
  rw [State.flashHandshake, if_neg (mt (matches_unlockPair_iff s hp).mp h)]
  simp only [hfirst]

/-- The successor of a state of the handshake. -/
theorem flashNextState_eq (fs : FlashState) :
    flashNextState fs = if fs = .s0 then .s1 else if fs = .s1 then .s2 else .prog := by
  cases fs <;> rfl

/-- Settles O42: one case per branch of `FlashStep`, each by the equation of its branch. -/
theorem stfRunsTheFlashStateMachine : Obligations.StfRunsTheFlashStateMachine := by
  intro s
  refine ⟨s.flashStep s.acc, rfl, ?_⟩
  beta_reduce
  by_cases hp : s.fstate = .prog
  · rw [if_pos hp, State.flashStep, if_pos hp]
    by_cases hu : s.fcount = 0 ∧ (s.sfr.read 4).toNat % 128 ≠ 0
    · rw [if_pos hu, flashProgram_unaligned _ hu]
      exact flashReject_eq s _
    · rw [if_neg hu, flashProgram_store _ hu, ← hp]
      refine ⟨fun k => ?_, rfl⟩
      rw [← flashAddr_toNat]
      exact Memory.read_write ..
  rw [if_neg hp, State.flashStep, if_neg hp]
  by_cases hlock : (s.sfr.read 0x54).getLsbD 1 = false
  · have hlocked : ¬s.flashUnlock = true := Bool.eq_false_iff.mp hlock
    rw [if_pos hlock, if_neg hlocked]
    exact flashReject_eq s _
  have hunlocked : s.flashUnlock = true := Bool.eq_true_of_not_eq_false hlock
  rw [if_neg hlock, if_pos hunlocked]
  by_cases hm : unlockPair s = expectedPair s.fstate
  · rw [flashHandshake_match hp hm, flashNextState_eq]
    exact (if_pos hm).mpr rfl
  · rw [flashHandshake_mismatch hp hm, flashError_eq]
    exact (if_neg hm).mpr rfl

/-! ### Reset (R500, R501) -/

/-- Settles O55: the power-on state is closed, so every clause evaluates. -/
theorem powerOnLeavesTheStatedValues : Obligations.PowerOnLeavesTheStatedValues :=
  ⟨rfl, rfl, rfl, rfl, fun l => by cases l <;> exact ⟨rfl, rfl⟩, rfl, rfl, rfl, rfl, rfl, rfl, rfl, rfl, rfl⟩

/-- After a warm reset the invariant asks of the arrays only that the kept and the drawn ones are in canonical form:
the drawn EXT selects ROM, nothing is programmed and no slot is occupied. -/
theorem warmReset_inv {s : State} {d : ResetDraw} (hd : d.allowed) (hrom : s.rom.wf 65536) (hflash : s.flash.wf 131072)
    (hsfr : d.sfr.wf 128) (hram : d.ram.wf 512) (hxram : d.xram.wf 384) (hwram : d.wram.wf 512) :
    Inv (s.warmReset d) where
  ram := hram
  sfr := hsfr
  xram := hxram
  wram := hwram
  rom := hrom
  flash := hflash
  source := (if_neg hd.1).symm
  count := Nat.zero_lt_succ 127
  locked := fun _ => rfl
  slots := fun l hl => absurd (by cases l <;> rfl) hl

/-- Settles O56: the fields are those the reset sets; HALT is clear in every allowed draw. -/
theorem warmResetSetsTheWholeState : Obligations.WarmResetSetsTheWholeState := by
  intro s d hd
  obtain ⟨-, -, hhalt⟩ := id hd
  exact ⟨rfl, rfl, rfl, rfl, rfl, rfl, rfl, rfl, rfl, rfl, rfl, rfl, rfl, rfl, rfl, rfl, rfl, rfl, rfl, hhalt,
    warmReset_inv hd⟩

/-! ### Host accesses (R460) -/

/-- A host access outside the data space records and reports `OutOfRange` and changes no memory and no register. -/
theorem outOfRangeRead_keeps (s : State) (a : Nat) :
    KeepsMemory s (s.hostAccess.outOfRangeRead a).2 ∧ KeepsRegs [] s (s.hostAccess.outOfRangeRead a).2 :=
  ⟨⟨fun _ _ => rfl, fun _ => rfl, fun _ => rfl, fun _ => rfl, fun _ => rfl⟩, fun _ _ => rfl⟩

/-- An address of the data space, as the host gives it, is that address again. -/
theorem ofNat_toNat_addr (a : DAddr) : ¬a.toNat > 0x1FF ∧ BitVec.ofNat 9 a.toNat = a :=
  ⟨by omega, (BitVec.ofNat_toNat 9 a).trans (BitVec.setWidth_eq a)⟩

/-- Settles O60: outside the space only the error and the draw are left; inside it each host access is the machine's
own at the state of the access. -/
theorem hostAccessIsBoundsChecked : Obligations.HostAccessIsBoundsChecked := by
  constructor
  · intro s a v h
    refine ⟨if_pos h, fun t ht => ?_⟩
    have hread : (s.hostRead a).2 = (s.hostAccess.outOfRangeRead a).2 := congrArg Prod.snd (if_pos h)
    have hlatch : (s.hostReadLatch a).2 = (s.hostAccess.outOfRangeRead a).2 := congrArg Prod.snd (if_pos h)
    obtain rfl : t = (s.hostAccess.outOfRangeRead a).2 := by simpa [hread, hlatch] using ht
    obtain ⟨hmem, hregs⟩ := outOfRangeRead_keeps s a
    exact ⟨hmem, hregs, rfl⟩
  · intro s a v
    obtain ⟨hin, ha⟩ := ofNat_toNat_addr a
    rw [State.hostRead, State.hostReadLatch, State.hostWrite, if_neg hin, if_neg hin, if_neg hin, ha]
    exact ⟨dread_outcome s.hostAccess a, dreadLatch_outcome s.hostAccess a, dwrite_outcome s.hostAccess a v⟩

end Sys2Proof.Proofs
end
